-- ==== Sys2Proof/Word.lean ====
section
/-! DEFINITION. The word types of the hardware (00_scope.md R6, R12; 30_encoding.md R90). Everything is
unsigned and bit 0 is the least significant bit. -/

namespace Sys2Proof

/-- One element: a buffer cell, a byte of the sink, an input symbol (00_scope.md R6, "element width"). -/
abbrev Byte := BitVec 8

/-- One 6-bit unit of the encoded direction, an index of `ALPHABET` (10_state.md R31). -/
abbrev Sextet := BitVec 6

/-- One command word `cmd[9:0]` (30_encoding.md R90). -/
abbrev CmdWord := BitVec 10

end Sys2Proof
end

