-- ==== Sys2Proof/Config.lean ====
section
/-! DEFINITION. What an implementation fixes (the parameters `C` and `CNT_W`, 92_eei_decisions.md section 6)
and the values the spec leaves open (93_implementation_defined.md U4, U6; 20_memory.md R78). -/

namespace Sys2Proof

/-- The two open parameters of the block (00_scope.md R5, R6). They are constants of one block; State holds
them so that a claim about every state is a claim about every parameter (log 4). -/
structure Params where
  /-- `C`, the capacity of the output buffer in elements. -/
  capacity : Nat
  /-- `CNT_W`, the width of the two counts; `none` is `inf`. -/
  cntW : Option Nat
  deriving DecidableEq, Repr

/-- The constraints on the parameters: `C >= 1` (R5), and a finite `CNT_W` is positive (R6). -/
abbrev Params.wf (p : Params) : Prop := 1 ≤ p.capacity ∧ p.cntW ≠ some 0

/-- The defaults of the spec: `C = 5120` (R5), `CNT_W = inf` (R6). -/
def Params.default : Params where
  capacity := 5120
  cntW := none

/-- FREE VALUE. The sink's answer to its `n`-th question (an Open or a Write), `true` for ok, where the
environment's list of answers has ended (20_memory.md R78: under no law). Log 5. -/
opaque Config.sinkAnswer : Nat → Bool

/-- FREE VALUE. What of a Write answered fail, or cut short by reset, reaches the sink, for the `n`-th question and the
payload (93_implementation_defined.md U4). The machine cuts it to at most the payload's length. Log 6. -/
opaque Config.landed : Nat → List Byte → List Byte

/-- FREE VALUE. What the tail port reads at a cell that is not in use, for the count of questions, the cells
in use and the index (93_implementation_defined.md U6). Log 8. -/
opaque Config.unusedCell : Nat → List Byte → Nat → Byte

/-- FREE VALUE. How many beats of an event that reset cut short have gone out, for its payload and what of it the sink
keeps (70_reset_and_hazards.md R231 does not say). Log 16. -/
opaque Config.beatsSent : List Byte → List Byte → Nat

end Sys2Proof
end

