-- ==== Sys2Proof/Syntax.lean ====
section
/-! DEFINITION. The operation mode and the nine instructions (30_encoding.md R95, one constructor per row of
opcode_table.json). -/

namespace Sys2Proof

/-- The operation mode of a session (10_state.md R27): `enc` is 0, `dec` is 1. -/
inductive Mode where
  | enc
  | dec
  deriving DecidableEq, Repr

/-- The instructions (30_encoding.md R95). An operand is the whole data byte of the command word (R93). -/
inductive Instr where
  /-- NOP (43_session_control.md R181). -/
  | nop
  /-- OPEN.E (43_session_control.md R182). -/
  | openE
  /-- OPEN.D (43_session_control.md R183). -/
  | openD
  /-- ENC.PUT, `b` the raw byte (40_encoder.md R120). -/
  | encPut (b : Byte)
  /-- DEC.SYM, `c` one of the 64 alphabet codes (41_decoder.md R140). -/
  | decSym (c : Byte)
  /-- DEC.PAD, the pad symbol (41_decoder.md R142). -/
  | decPad
  /-- DEC.BAD, `c` any of the 191 other codes (41_decoder.md R143). -/
  | decBad (c : Byte)
  /-- ENC.FIN (40_encoder.md R122). -/
  | encFin
  /-- DEC.FIN (41_decoder.md R144). -/
  | decFin
  deriving DecidableEq, Repr

end Sys2Proof
end

