-- ==== Sys2Proof/Machine/State.lean ====
section
/-! DEFINITION. The state of the block, plain data (10_state.md R20 to R30, R40; 30_encoding.md R99), its inputs
(00_scope.md R10) and the value after reset (10_state.md R42; 70_reset_and_hazards.md R230). -/

namespace Sys2Proof.Machine

/-- The lifecycle of a session (10_state.md R28). -/
inductive Phase where
  | idle
  | active
  | done
  | fault
  deriving DecidableEq, Repr

/-- The codes of the response and of the fault register (60_exceptions.md R200). Code 7 is reserved and never
produced, so it has no constructor. -/
inductive FaultCode where
  /-- 0, OK in a response, none in the fault register. -/
  | ok
  /-- 1, raised by OPEN when the sink answers fail (R201). -/
  | sinkOpenFailure
  /-- 2, raised by a capacity flush or a drain whose Write is answered fail (R202). -/
  | sinkWriteFailure
  /-- 3, raised by DEC.BAD (R203). -/
  | invalidSymbol
  /-- 4, raised by a command out of phase (R205). -/
  | protocolError
  /-- 5, raised by a reserved word (R206). -/
  | illegalCommand
  /-- 6, raised by ENC.PUT at the limit of a finite count (R207). -/
  | counterOverflow
  deriving DecidableEq, Repr

/-- A sink event (20_memory.md R62) with the sink's answer to it (`true` for ok); Close has no answer, and an event
that reset comes in the middle of gets none (70_reset_and_hazards.md R231). -/
inductive SinkEvent where
  | opened (ok : Bool)
  | wrote (seq : List Byte) (ok : Bool)
  | closed
  /-- An Open that reset cut short. -/
  | openCut
  /-- A Write of `seq` that reset cut short, and what of it the sink keeps (R231, 93_implementation_defined.md U4). -/
  | writeCut (seq kept : List Byte)
  deriving DecidableEq, Repr

/-- Where in a command reset comes, told by the command's sink events: `after` of them are over, and the next one is
in progress (`during`) or has not begun (70_reset_and_hazards.md R230, R231; log 11). -/
structure ResetPoint where
  after : Nat
  during : Bool
  deriving DecidableEq, Repr

/-- One thing the host does to the block: a command word (30_encoding.md R90), reset at a command boundary, or a
command word and reset while the command is in progress (70_reset_and_hazards.md R230, R231; log 11). -/
inductive Input where
  | cmd (w : CmdWord)
  | rst
  | rstDuring (w : CmdWord) (p : ResetPoint)
  deriving DecidableEq, Repr

/-- What stands for memory: the elements of `BUF` in use, oldest first (10_state.md R25, 20_memory.md R61). No
address names a cell (20_memory.md R71); position `i` is `buf[i]`. -/
abbrev Memory := List Byte

/-- The canonical form of the buffer: `len <= C` (10_state.md R38). -/
abbrev Memory.wf (capacity : Nat) (m : Memory) : Prop := m.length ≤ capacity

/-- The state. `buf` and `len` are one list, as 10_state.md R25 allows. -/
structure State where
  /-- `C` and `CNT_W` (00_scope.md R5, R6), fixed for one block. -/
  params : Params
  /-- The accumulator (10_state.md R21). -/
  acc : BitVec 8
  /-- Valid bits of `acc` (10_state.md R22). -/
  bitCount : BitVec 3
  /-- Bytes absorbed in encode mode (10_state.md R23). -/
  totalBytesRead : Nat
  /-- Characters emitted in encode mode (10_state.md R24). -/
  totalUnitsWritten : Nat
  /-- The output buffer; `len` is its length (10_state.md R25). -/
  buf : Memory
  /-- Whether a capacity flush has completed since OPEN (10_state.md R26). -/
  overflowed : Bool
  /-- The session's mode (10_state.md R27). -/
  mode : Mode
  /-- The session's phase (10_state.md R28). -/
  phase : Phase
  /-- The first fault since OPEN or reset (10_state.md R29). -/
  fault : FaultCode
  /-- The response to the last command; `none` is no response pending (30_encoding.md R99, log 9). -/
  rsp : Option FaultCode
  /-- Whether the session's sink is open (10_state.md R40). -/
  sinkOpen : Bool
  /-- The bytes the session's sink holds (10_state.md R40). -/
  sinkData : List Byte
  /-- All sink events issued, oldest first (20_memory.md R62, log 10). -/
  events : List SinkEvent
  /-- What the host does next, in order (00_scope.md R9, log 1). -/
  inputs : List Input
  /-- The sink's answers to come, in order (20_memory.md R78, log 5). -/
  answers : List Bool
  /-- How many questions the sink has been asked: the index of the free values (log 5). -/
  freeCount : Nat
  deriving DecidableEq, Repr

/-- A stop of the machine. The spec has none: each of its faults is a state (60_exceptions.md R210), and its step
function is total (43_session_control.md R180). So no step raises one, and the type is empty (log 14). -/
inductive Fault where
  deriving DecidableEq, Repr

/-- Why `exec` gives an instruction no meaning. -/
inductive Refusal where
  /-- Raised by `exec`'s arm of an instruction with no meaning yet; no arm is left. Safe. -/
  | notModelled (mnemonic : String)
  /-- Raised by the meaning of a PUT or FIN instruction asked for where dispatch selects another instruction: in
  the other mode, or on a symbol of another class (30_encoding.md R95, 43_session_control.md R180). No command
  word has this outcome, so `step` never answers it. Safe (log 13). -/
  | notSelected
  deriving DecidableEq, Repr

/-- The state after a hardware reset (70_reset_and_hazards.md R230, 10_state.md R42), with the default parameters
and with no input and no answer placed. -/
def State.reset : State where
  params := Params.default
  acc := 0#8
  bitCount := 0#3
  totalBytesRead := 0
  totalUnitsWritten := 0
  buf := []
  overflowed := false
  mode := .enc
  phase := .idle
  fault := .ok
  rsp := none
  sinkOpen := false
  sinkData := []
  events := []
  inputs := []
  answers := []
  freeCount := 0

end Sys2Proof.Machine
end

