-- ==== Sys2Proof/Machine/Flags.lean ====
section
/-! DEFINITION. The flags, the numeric codes and the status word (10_state.md R26 to R30; 30_encoding.md R99, R100;
60_exceptions.md R200). -/

namespace Sys2Proof

/-- The mode bit: 0 ENC, 1 DEC (10_state.md R27). -/
def Mode.bit : Mode → Bool
  | .enc => false
  | .dec => true

end Sys2Proof

namespace Sys2Proof.Machine

/-- The value of the `phase` register (10_state.md R28). -/
def Phase.code : Phase → BitVec 2
  | .idle => 0#2
  | .active => 1#2
  | .done => 2#2
  | .fault => 3#2

/-- The numeric fault code (60_exceptions.md R200). -/
def FaultCode.code : FaultCode → BitVec 3
  | .ok => 0#3
  | .sinkOpenFailure => 1#3
  | .sinkWriteFailure => 2#3
  | .invalidSymbol => 3#3
  | .protocolError => 4#3
  | .illegalCommand => 5#3
  | .counterOverflow => 6#3

/-- `trailing`, computed and not stored (10_state.md R30). -/
def State.trailing (s : State) : Bool :=
  s.phase == .done && s.mode == .dec && s.bitCount != 0#3

/-- `STATUS[19:0]` (30_encoding.md R100), most significant field first; bit 11 is reserved and reads 0. -/
def State.status (s : State) : BitVec 20 :=
  s.acc ++ 0#1 ++ s.bitCount ++ s.fault.code ++ BitVec.ofBool s.trailing ++ BitVec.ofBool s.overflowed ++
    BitVec.ofBool s.mode.bit ++ s.phase.code

/-- Setting `overflowed`: the capacity flush and nothing else (10_state.md R26, 42_buffer_flush.md R164). -/
def State.setOverflowed (s : State) : State := { s with overflowed := true }

/-- Clearing `overflowed`: OPEN and reset and nothing else (10_state.md R26). -/
def State.clearOverflowed (s : State) : State := { s with overflowed := false }

end Sys2Proof.Machine
end

