-- ==== Sys2Proof/Machine/Tables.lean ====
section
/-! DEFINITION. The constant tables: `ALPHABET`, `PAD` and `REV` (10_state.md R31 to R33; 20_memory.md R64).
The numeric codes are those the spec prints (93_implementation_defined.md G1, log 12). -/

namespace Sys2Proof

/-- `ALPHABET[i]` (10_state.md R31), in the closed form the rule gives. -/
def alphabet (i : Sextet) : Byte :=
  let n := i.toNat
  if n ≤ 25 then BitVec.ofNat 8 (0x41 + n)
  else if n ≤ 51 then BitVec.ofNat 8 (0x61 + (n - 26))
  else if n ≤ 61 then BitVec.ofNat 8 (0x30 + (n - 52))
  else if n = 62 then 0x2B#8
  else 0x2F#8

/-- `PAD`, the character `=` (10_state.md R32). -/
def pad : Byte := 0x3D#8

/-- An entry of `REV` (10_state.md R33). -/
inductive SymClass where
  | val (v : Sextet)
  | isPad
  | bad
  deriving DecidableEq, Repr

/-- `REV[c]` (10_state.md R33), in the closed form the rule gives. -/
def rev (c : Byte) : SymClass :=
  let n := c.toNat
  if 0x41 ≤ n ∧ n ≤ 0x5A then .val (BitVec.ofNat 6 (n - 0x41))
  else if 0x61 ≤ n ∧ n ≤ 0x7A then .val (BitVec.ofNat 6 (n - 0x61 + 26))
  else if 0x30 ≤ n ∧ n ≤ 0x39 then .val (BitVec.ofNat 6 (n - 0x30 + 52))
  else if n = 0x2B then .val 62#6
  else if n = 0x2F then .val 63#6
  else if n = 0x3D then .isPad
  else .bad

/-- Whether a symbol is one of the 64 alphabet codes. -/
def SymClass.isVal : SymClass → Bool
  | .val _ => true
  | .isPad => false
  | .bad => false

end Sys2Proof
end

