-- ==== Sys2Proof/Machine/Operands.lean ====
section
/-! DEFINITION. How operands reach the accumulator and how units leave it (00_scope.md R12, 20_memory.md R65), and
the arithmetic of the two counts (40_encoder.md R123, R125; 60_exceptions.md R207). -/

namespace Sys2Proof

/-- The bits of a byte, bit 7 first: the order of `for i = 7 downto 0` (40_encoder.md R120). -/
def Byte.bitsMsbFirst (b : Byte) : List Bool :=
  [b.getLsbD 7, b.getLsbD 6, b.getLsbD 5, b.getLsbD 4, b.getLsbD 3, b.getLsbD 2, b.getLsbD 1, b.getLsbD 0]

/-- The bits of a 6-bit value, bit 5 first: the order of `for i = 5 downto 0` (41_decoder.md R140). -/
def Sextet.bitsMsbFirst (v : Sextet) : List Bool :=
  [v.getLsbD 5, v.getLsbD 4, v.getLsbD 3, v.getLsbD 2, v.getLsbD 1, v.getLsbD 0]

/-- `(acc << 1) | zext_8(bit)` (40_encoder.md R120, 41_decoder.md R140). -/
def shiftIn (acc : BitVec 8) (bit : Bool) : BitVec 8 :=
  (acc <<< 1) ||| BitVec.setWidth 8 (BitVec.ofBool bit)

/-- `acc[5:0]`, the index of the next character (40_encoder.md R120). -/
def lowSextet (acc : BitVec 8) : Sextet := acc.extractLsb' 0 6

/-- `encodedLength(n) = ceil(n / 3) * 4`, which is also `finalLength` (40_encoder.md R123, R125). -/
def encodedLength (n : Nat) : Nat := (n + 2) / 3 * 4

/-- `M = 2^CNT_W - 1` for a finite `CNT_W`: the largest value of a count (60_exceptions.md R207). -/
def Params.maxCount (p : Params) : Option Nat := p.cntW.map fun w => 2 ^ w - 1

/-- `MAXN = 3 * floor(M / 4)` for a finite `CNT_W`, and `none` for infinite (60_exceptions.md R207). -/
def Params.maxN (p : Params) : Option Nat := p.maxCount.map fun m => 3 * (m / 4)

/-- `LEN_W = ceil(log2(C + 1))` (00_scope.md R6); for `C >= 1` this is `floor(log2 C) + 1`. -/
def Params.lenW (p : Params) : Nat := if p.capacity = 0 then 0 else Nat.log2 p.capacity + 1

end Sys2Proof
end

