-- ==== Sys2Proof/Machine/Ops.lean ====
section
/-! DEFINITION. The shared operations: the sink's events and answers (20_memory.md R62, R78), fault entry
(60_exceptions.md R210), the four procedures of the buffer-flush unit (42_buffer_flush.md R160 to R163), reset
(70_reset_and_hazards.md R230), and the phase check of dispatch (43_session_control.md R180). There is no return
from a fault (60_exceptions.md R212). -/

namespace Sys2Proof.Machine

/-! ### The sink -/

/-- The sink's answer to the next question: the next of the environment's answers, and past their end a free
value (20_memory.md R78, log 5). -/
def State.nextAnswer (s : State) : Bool :=
  match s.answers with
  | a :: _ => a
  | [] => Config.sinkAnswer s.freeCount

/-- The question has been asked. -/
def State.takeAnswer (s : State) : State :=
  { s with answers := s.answers.tail, freeCount := s.freeCount + 1 }

/-- What a Write of `seq` adds to the sink's record: all of it when answered ok, and a free sequence of at most
its length when answered fail (93_implementation_defined.md U4, log 6). -/
def landed (n : Nat) (seq : List Byte) (ok : Bool) : List Byte :=
  if ok then seq else (Config.landed n seq).take seq.length

/-- `SinkWrite(seq)` (20_memory.md R62): the event, its answer and the sink's record; the answer itself is
`s.nextAnswer`. -/
def sinkWrite (seq : List Byte) (s : State) : State :=
  { s.takeAnswer with
    events := s.events ++ [.wrote seq s.nextAnswer]
    sinkData := s.sinkData ++ landed s.freeCount seq s.nextAnswer }

/-- `SinkOpen()` (20_memory.md R62): the record of the new session starts empty (10_state.md R42); the answer
itself is `s.nextAnswer`. -/
def sinkOpenEvent (s : State) : State :=
  { s.takeAnswer with
    events := s.events ++ [.opened s.nextAnswer]
    sinkOpen := s.nextAnswer
    sinkData := [] }

/-- CLOSE (42_buffer_flush.md R163): `SinkClose()`, which has no answer. -/
def close (s : State) : State :=
  { s with events := s.events ++ [.closed], sinkOpen := false }

/-! ### Fault entry -/

/-- `raise X` (60_exceptions.md R210): the response carries the code; the first fault is recorded; nothing else
changes. -/
def raise (x : FaultCode) (s : State) : State :=
  { s with
    rsp := some x
    phase := .fault
    fault := if s.phase = .fault then s.fault else x }

/-- A command in progress: it goes on from a state, or a raise has ended it in a state ("end the command: no later
statement of the instruction runs", 60_exceptions.md R210). -/
inductive Run where
  | ok (s : State)
  | raised (s : State)
  deriving DecidableEq, Repr

/-- The next statement of the command runs unless a raise has ended it. -/
def Run.andThen : Run → (State → Run) → Run
  | .ok s, f => f s
  | .raised s, _ => .raised s

/-- `for` over the bits of an operand in order, each run seeing the writes of the one before (00_scope.md R13). -/
def forBits (body : Bool → State → Run) : List Bool → State → Run
  | [], s => .ok s
  | b :: bs, s => (body b s).andThen (forBits body bs)

/-- The state at the end of a command: `rsp <- OK` if nothing was raised (40_encoder.md R120). -/
def Run.finish : Run → State
  | .ok s => { s with rsp := some .ok }
  | .raised s => s

/-! ### The buffer-flush unit -/

/-- FLUSH (42_buffer_flush.md R161): one Write of the whole buffer; when it is answered ok, `overflowed` is set and
the buffer is empty. -/
def flush (s : State) : Run :=
  if s.nextAnswer then .ok { (sinkWrite s.buf s).setOverflowed with buf := [] }
  else .raised (raise .sinkWriteFailure (sinkWrite s.buf s))

/-- APPEND (42_buffer_flush.md R160): room first, then the store. -/
def append (x : Byte) (s : State) : Run :=
  (if s.buf.length = s.params.capacity then flush s else .ok s).andThen fun t =>
    .ok { t with buf := t.buf ++ [x] }

/-- DRAIN (42_buffer_flush.md R162): one Write of what the buffer holds, and none when it holds nothing; `buf`,
`len` and `overflowed` stay. -/
def drain (s : State) : Run :=
  if s.buf = [] then .ok s
  else if s.nextAnswer then .ok (sinkWrite s.buf s)
  else .raised (raise .sinkWriteFailure (sinkWrite s.buf s))

/-- The end of both FIN instructions: DRAIN, CLOSE, `phase <- DONE` (40_encoder.md R122, 41_decoder.md R144). -/
def finalize (s : State) : Run :=
  (drain s).andThen fun t => .ok { close t with phase := .done }

/-! ### Session start and reset -/

/-- The start values of a session but for `phase` (10_state.md R42; the first statements of OPEN, 43_session_control.md
R182). -/
def startValues (m : Mode) (s : State) : State :=
  { s.clearOverflowed with
    mode := m
    acc := 0#8
    bitCount := 0#3
    totalBytesRead := 0
    totalUnitsWritten := 0
    buf := []
    fault := .ok }

/-- OPEN(m) (43_session_control.md R182). SinkOpenFailure sets its three values directly, over an earlier FAULT
(60_exceptions.md R210). -/
def openSession (m : Mode) (s : State) : State :=
  { sinkOpenEvent (startValues m s) with
    phase := if s.nextAnswer then .active else .fault
    fault := if s.nextAnswer then .ok else .sinkOpenFailure
    rsp := some (if s.nextAnswer then .ok else .sinkOpenFailure) }

/-- Hardware reset at a command boundary (70_reset_and_hazards.md R230): the state of `State.reset`, with this block's
parameters; it issues no sink event (R231), and the host's and the sink's future inputs are not the block's to
clear. The record of the session's sink starts again (10_state.md R42, log 11). -/
def hardReset (s : State) : State :=
  { State.reset with
    params := s.params
    events := s.events
    inputs := s.inputs
    answers := s.answers
    freeCount := s.freeCount }

/-- The sink's answer that an event carries: Open and Write have one unless reset cut them short, Close has none
(30_encoding.md R102). -/
def SinkEvent.answer : SinkEvent → Option Bool
  | .opened ok => some ok
  | .wrote _ ok => some ok
  | .closed => none
  | .openCut => none
  | .writeCut _ _ => none

/-- The event is an Open or a Write, answered or not. -/
def SinkEvent.isQuestion : SinkEvent → Bool
  | .opened _ => true
  | .wrote _ _ => true
  | .closed => false
  | .openCut => true
  | .writeCut _ _ => true

/-- The sink's answers in a sequence of events, in order. -/
def answersIn (es : List SinkEvent) : List Bool := es.filterMap SinkEvent.answer

/-- The number of questions in a sequence of events. -/
def questionsIn (es : List SinkEvent) : Nat := es.countP SinkEvent.isQuestion

/-- The event as it stands when reset comes in the middle of it (70_reset_and_hazards.md R231). Of a Write the sink
keeps a free sequence of at most its length (93_implementation_defined.md U4, log 6), for question number `n`. Close has
no answer to wait for. -/
def SinkEvent.cut (n : Nat) : SinkEvent → SinkEvent
  | .opened _ => .openCut
  | .wrote seq _ => .writeCut seq (landed n seq false)
  | .closed => .closed
  | .openCut => .openCut
  | .writeCut seq kept => .writeCut seq kept

/-- What is left of a command's events `new` when reset comes at `p`: those that are over, and the one in progress, cut
short; `n` is the number of the command's first question. -/
def eventsBeforeReset (p : ResetPoint) (n : Nat) (new : List SinkEvent) : List SinkEvent :=
  let done := new.take p.after
  if p.during then done ++ ((new.drop p.after).take 1).map (SinkEvent.cut (n + questionsIn done)) else done

/-- Reset while a command is in progress, from the state `s` before the command and the state `t` the command alone
leads to: the state of `hardReset`, "whatever command was in progress" (70_reset_and_hazards.md R230), with the events
the command had issued by then; the command has no response and its later events are not issued (R231). What the
command had issued by then does not depend on later answers, so `t` tells it (60_exceptions.md R210: a command runs to
its end or to its first failed answer). The sink has given the answers to the events that are over. -/
def resetInside (p : ResetPoint) (s t : State) : State :=
  let issued := eventsBeforeReset p s.freeCount (t.events.drop s.events.length)
  { hardReset s with
    inputs := t.inputs
    events := s.events ++ issued
    answers := s.answers.drop (answersIn issued).length
    freeCount := s.freeCount + questionsIn issued }

/-- The outcome of a command, or of reset in the middle of it. -/
def cutByReset (s : State) : Option ResetPoint → Host.Outcome State Fault Refusal →
    Host.Outcome State Fault Refusal
  | none, o => o
  | some p, .next t => .next (resetInside p s t)
  | some _, .fault f => .fault f
  | some _, .refused r => .refused r

/-! ### Dispatch -/

/-- The checks in front of a PUT or FIN instruction (43_session_control.md R180): the phase first, then the mode and
the class of the symbol (`selected`). Where dispatch selects another instruction there is no meaning to give
(log 13). -/
def inSession (selected : Bool) (body : State → Run) (s : State) : Host.Outcome State Fault Refusal :=
  if s.phase ≠ .active then .next (raise .protocolError s)
  else if selected then .next (body s).finish
  else .refused .notSelected

/-- The phase check in front of OPEN (43_session_control.md R180, R185). -/
def outsideSession (body : State → State) (s : State) : Host.Outcome State Fault Refusal :=
  if s.phase = .active then .next (raise .protocolError s)
  else .next (body s)

/-- The next instruction is given to the block: it is the host's next command. -/
def State.pushCommand (w : CmdWord) (s : State) : State :=
  { s with inputs := .cmd w :: s.inputs }

end Sys2Proof.Machine
end

