-- ==== Sys2Proof/Machine/Decoder.lean ====
section
/-! DEFINITION. The decoder unit: DEC.SYM, DEC.PAD, DEC.BAD and DEC.FIN (41_decoder.md R140 to R144). -/

namespace Sys2Proof.Machine

/-- One turn of DEC.SYM's loop (41_decoder.md R140): the bit is shifted in; a full byte leaves. -/
def decodeBit (bit : Bool) (s : State) : Run :=
  let t := { s with acc := shiftIn s.acc bit }
  let n := s.bitCount.toNat + 1
  if n = 8 then
    (append t.acc t).andThen fun u => .ok { u with acc := 0#8, bitCount := 0#3 }
  else .ok { t with bitCount := BitVec.ofNat 3 n }

/-- The pseudocode of DEC.SYM for the 6-bit value `v` (41_decoder.md R140). -/
def decSymBody (v : Sextet) (s : State) : Run :=
  forBits decodeBit v.bitsMsbFirst s

/-- DEC.SYM (41_decoder.md R140, 43_session_control.md R180). -/
def execDecSym (c : Byte) (s : State) : Host.Outcome State Fault Refusal :=
  match rev c with
  | .val v => inSession (s.mode == .dec) (decSymBody v) s
  | .isPad => inSession false (fun t => .ok t) s
  | .bad => inSession false (fun t => .ok t) s

/-- The pseudocode of DEC.PAD (41_decoder.md R142); the subtraction stops at 0, which is `max(bitCount - 2, 0)`. -/
def decPadBody (s : State) : Run :=
  .ok { s with acc := s.acc >>> 2, bitCount := BitVec.ofNat 3 (s.bitCount.toNat - 2) }

/-- DEC.PAD (41_decoder.md R142, 43_session_control.md R180). -/
def execDecPad (s : State) : Host.Outcome State Fault Refusal :=
  inSession (s.mode == .dec) decPadBody s

/-- The pseudocode of DEC.BAD (41_decoder.md R143). -/
def decBadBody (s : State) : Run := .raised (raise .invalidSymbol s)

/-- DEC.BAD (41_decoder.md R143, 43_session_control.md R180). -/
def execDecBad (c : Byte) (s : State) : Host.Outcome State Fault Refusal :=
  inSession (s.mode == .dec && rev c == .bad) decBadBody s

/-- DEC.FIN (41_decoder.md R144, 43_session_control.md R180): `acc` and `bitCount` keep their values (R145). -/
def execDecFin (s : State) : Host.Outcome State Fault Refusal :=
  inSession (s.mode == .dec) finalize s

end Sys2Proof.Machine
end

