-- ==== Sys2Proof/Machine/Encoder.lean ====
section
/-! DEFINITION. The encoder unit: ENC.PUT and ENC.FIN (40_encoder.md R120, R122). -/

namespace Sys2Proof.Machine

/-- One turn of ENC.PUT's loop (40_encoder.md R120): the bit is shifted in; a full group leaves as a character. The
count is stored only when the group is not full, and after the APPEND when it is. -/
def encodeBit (bit : Bool) (s : State) : Run :=
  let t := { s with acc := shiftIn s.acc bit }
  let n := s.bitCount.toNat + 1
  if n = 6 then
    (append (alphabet (lowSextet t.acc)) t).andThen fun u =>
      .ok { u with acc := 0#8, bitCount := 0#3, totalUnitsWritten := u.totalUnitsWritten + 1 }
  else .ok { t with bitCount := BitVec.ofNat 3 n }

/-- The pseudocode of ENC.PUT (40_encoder.md R120). -/
def encPutBody (b : Byte) (s : State) : Run :=
  if s.params.maxN = some s.totalBytesRead then .raised (raise .counterOverflow s)
  else forBits encodeBit b.bitsMsbFirst { s with totalBytesRead := s.totalBytesRead + 1 }

/-- ENC.PUT (40_encoder.md R120, 43_session_control.md R180). -/
def execEncPut (b : Byte) (s : State) : Host.Outcome State Fault Refusal :=
  inSession (s.mode == .enc) (encPutBody b) s

/-- Step 1 of ENC.FIN (40_encoder.md R122): the last partial group, zero-padded on the right. -/
def emitPartial (s : State) : Run :=
  if s.bitCount = 0#3 then .ok s
  else
    let t := { s with acc := s.acc <<< (6 - s.bitCount.toNat) }
    (append (alphabet (lowSextet t.acc)) t).andThen fun u =>
      .ok { u with totalUnitsWritten := u.totalUnitsWritten + 1, acc := 0#8, bitCount := 0#3 }

/-- `k` turns of the loop of step 2 of ENC.FIN (40_encoder.md R122). -/
def emitPads : Nat → State → Run
  | 0, s => .ok s
  | k + 1, s =>
    (append pad s).andThen fun t =>
      emitPads k { t with totalUnitsWritten := t.totalUnitsWritten + 1 }

/-- Step 2 of ENC.FIN (40_encoder.md R122). Each turn adds one to `totalUnitsWritten` and the bound does not move, so
`while totalUnitsWritten < finalLength` takes `finalLength - totalUnitsWritten` turns, none when the difference
is not positive. -/
def emitPadding (s : State) : Run :=
  emitPads (encodedLength s.totalBytesRead - s.totalUnitsWritten) s

/-- The pseudocode of ENC.FIN (40_encoder.md R122). -/
def encFinBody (s : State) : Run :=
  ((emitPartial s).andThen emitPadding).andThen finalize

/-- ENC.FIN (40_encoder.md R122, 43_session_control.md R180). -/
def execEncFin (s : State) : Host.Outcome State Fault Refusal :=
  inSession (s.mode == .enc) encFinBody s

end Sys2Proof.Machine
end

