-- ==== Sys2Proof/Machine/Session.lean ====
section
/-! DEFINITION. NOP, OPEN.E and OPEN.D (43_session_control.md R181 to R183). -/

namespace Sys2Proof.Machine

/-- NOP (43_session_control.md R181): `rsp <- OK` in every phase. -/
def execNop (s : State) : Host.Outcome State Fault Refusal :=
  .next { s with rsp := some .ok }

/-- OPEN.E (43_session_control.md R182). -/
def execOpenE (s : State) : Host.Outcome State Fault Refusal :=
  outsideSession (openSession .enc) s

/-- OPEN.D (43_session_control.md R183). -/
def execOpenD (s : State) : Host.Outcome State Fault Refusal :=
  outsideSession (openSession .dec) s

end Sys2Proof.Machine
end

