-- ==== Sys2Proof/Machine/Dispatch.lean ====
section
/-! DEFINITION. One arm per instruction (30_encoding.md R95, 43_session_control.md R180). -/

namespace Sys2Proof.Machine

def exec (i : Instr) (s : State) : Host.Outcome State Fault Refusal :=
  match i with
  | .nop => Sys2Proof.Machine.execNop s
  | .openE => Sys2Proof.Machine.execOpenE s
  | .openD => Sys2Proof.Machine.execOpenD s
  | .encPut b => Sys2Proof.Machine.execEncPut b s
  | .decSym c => Sys2Proof.Machine.execDecSym c s
  | .decPad => Sys2Proof.Machine.execDecPad s
  | .decBad c => Sys2Proof.Machine.execDecBad c s
  | .encFin => Sys2Proof.Machine.execEncFin s
  | .decFin => Sys2Proof.Machine.execDecFin s

end Sys2Proof.Machine
end

