-- ==== Sys2Proof/WellFormed.lean ====
section
/-! DEFINITION. Which terms of `Instr` are instructions of the hardware, and in which mode dispatch can select
them (30_encoding.md R95, R96). -/

namespace Sys2Proof

/-- The operand lies in the symbol class of the instruction (30_encoding.md R96): DEC.SYM takes the 64
alphabet codes, DEC.BAD the 191 codes that are neither in the alphabet nor the pad symbol. -/
def Instr.wf : Instr → Bool
  | .nop => true
  | .openE => true
  | .openD => true
  | .encPut _ => true
  | .decSym c => (rev c).isVal
  | .decPad => true
  | .decBad c => rev c == .bad
  | .encFin => true
  | .decFin => true

/-- The `mode` column of 30_encoding.md R95: the modes in which a word selects the instruction. -/
def Instr.selectedIn : Instr → Mode → Bool
  | .nop, _ => true
  | .openE, _ => true
  | .openD, _ => true
  | .encPut _, m => m == .enc
  | .encFin, m => m == .enc
  | .decSym _, m => m == .dec
  | .decPad, m => m == .dec
  | .decBad _, m => m == .dec
  | .decFin, m => m == .dec

end Sys2Proof
end

