-- ==== Sys2Proof/Decode.lean ====
section
/-! DEFINITION. The decoder (30_encoding.md R90 to R97), total on command words and rejecting reserved words by
name, and the encoder. Classification takes the mode as well as the word, as R95 does: a PUT or FIN word names
an encoder instruction in an encode session and a decoder instruction in a decode session. -/

namespace Sys2Proof

/-- Why a word is reserved (30_encoding.md R95, R97, and 60_exceptions.md R206). -/
inductive Reserved where
  /-- `op` = 00 with a data field other than 0x00. -/
  | nopWithData
  /-- `op` = 01 with a data field above 0x01. -/
  | openWithData
  /-- `op` = 11 with a data field other than 0x00. -/
  | finWithData
  deriving DecidableEq, Repr

/-- The verdict on a word: an instruction, or ILLEGAL and why (30_encoding.md R95). -/
inductive Decoded where
  | instr (i : Instr)
  | illegal (why : Reserved)
  deriving DecidableEq, Repr

/-- `op`, the field `cmd[9:8]` (30_encoding.md R90). -/
def opField (w : CmdWord) : BitVec 2 := w.extractLsb' 8 2

/-- `data`, the field `cmd[7:0]` (30_encoding.md R90). -/
def dataField (w : CmdWord) : Byte := w.extractLsb' 0 8

/-- A PUT word in decode mode: the class of the symbol picks the instruction (30_encoding.md R96). -/
def decodeSymbol (c : Byte) : Instr :=
  match rev c with
  | .val _ => .decSym c
  | .isPad => .decPad
  | .bad => .decBad c

/-- The classification of 30_encoding.md R95. -/
def decode (m : Mode) (w : CmdWord) : Decoded :=
  let data := dataField w
  match (opField w).toNat with
  | 0 => if data = 0#8 then .instr .nop else .illegal .nopWithData
  | 1 =>
    if data = 0#8 then .instr .openE
    else if data = 1#8 then .instr .openD
    else .illegal .openWithData
  | 2 =>
    match m with
    | .enc => .instr (.encPut data)
    | .dec => .instr (decodeSymbol data)
  | _ =>
    if data = 0#8 then
      match m with
      | .enc => .instr .encFin
      | .dec => .instr .decFin
    else .illegal .finWithData

/-- The word `{op, data}` (30_encoding.md R90). -/
def cmdWord (op : BitVec 2) (data : Byte) : CmdWord := op ++ data

/-- The command word of an instruction (30_encoding.md R91 to R95). -/
def encode : Instr → CmdWord
  | .nop => cmdWord 0b00#2 0x00#8
  | .openE => cmdWord 0b01#2 0x00#8
  | .openD => cmdWord 0b01#2 0x01#8
  | .encPut b => cmdWord 0b10#2 b
  | .decSym c => cmdWord 0b10#2 c
  | .decPad => cmdWord 0b10#2 pad
  | .decBad c => cmdWord 0b10#2 c
  | .encFin => cmdWord 0b11#2 0x00#8
  | .decFin => cmdWord 0b11#2 0x00#8

/-- The instruction of a table word. A command is one 10-bit word and no memory stores it, so there is no byte
order to settle; a number of 2^10 or more is no command word. The table gives no mode, and the word alone does
not decide between ENC.* and DEC.*: it is read in the mode of the reset state, ENC (70_reset_and_hazards.md
R230), which is the mode the first step after reset reads it in (log 3). -/
def decodeTableWord (_nbits w : Nat) : Option Instr :=
  if w < 1024 then
    match decode .enc (BitVec.ofNat 10 w) with
    | .instr i => some i
    | .illegal _ => none
  else none

end Sys2Proof
end

