-- ==== Sys2Proof/Machine/Fetch.lean ====
section
/-! DEFINITION. What one step has before it: the host's next input, classified (43_session_control.md R180). -/

namespace Sys2Proof.Machine

/-- The outcome of taking the next input: the step is settled without an instruction, or an instruction is to run
in a state from which the input has been taken. -/
inductive Fetched where
  | settled (s : State)
  | run (i : Instr) (s : State)
  deriving DecidableEq, Repr

/-- A command word is classified in the session's mode; a reserved word raises IllegalCommand in every phase
(30_encoding.md R95, R97). -/
def classify (w : CmdWord) (s : State) : Fetched :=
  match decode s.mode w with
  | .instr i => .run i s
  | .illegal _ => .settled (raise .illegalCommand s)

/-- Take the next input. With none pending the block waits and keeps all state (60_exceptions.md R218,
70_reset_and_hazards.md R230, log 2). A command that reset will cut short begins like any other. -/
def fetch (s : State) : Fetched :=
  match s.inputs with
  | [] => .settled s
  | .rst :: rest => .settled (hardReset { s with inputs := rest })
  | .cmd w :: rest => classify w { s with inputs := rest }
  | .rstDuring w _ :: rest => classify w { s with inputs := rest }

/-- Where reset comes in the command that is the next input, if it does (70_reset_and_hazards.md R231). -/
def resetPoint (s : State) : Option ResetPoint :=
  match s.inputs with
  | [] => none
  | .rst :: _ => none
  | .cmd _ :: _ => none
  | .rstDuring _ p :: _ => some p

end Sys2Proof.Machine
end

