-- ==== Sys2Proof/Machine/Step.lean ====
section
/-! DEFINITION. One step of the core (00_scope.md R8; 43_session_control.md R180). -/

namespace Sys2Proof.Machine

/-- What was fetched is done: it is settled, or its instruction runs. -/
def perform : Fetched → Host.Outcome State Fault Refusal
  | .settled t => .next t
  | .run i t => exec i t

/-- One step: the next input of the host, the instruction it is, if it is one, and reset in the middle of it, if it
comes there. -/
def step (s : State) : Host.Outcome State Fault Refusal :=
  cutByReset s (resetPoint s) (perform (fetch s))

/-- The host gives the word as its next command (the commands come from the host's port, 20_memory.md R75; the low
ten bits are the command, 30_encoding.md R90). Log 1. -/
def State.withFetchWord (s : State) (_nbits w : Nat) : State :=
  s.pushCommand (BitVec.ofNat 10 w)

end Sys2Proof.Machine
end

