-- ==== Sys2Proof/Machine/HostView.lean ====
section
/-! DEFINITION. What the host sees and sends: the status registers and the tail port (30_encoding.md R99, R100;
20_memory.md R76), the sink's beats (30_encoding.md R101), and command sequences (30_encoding.md R103 to R105). -/

namespace Sys2Proof.Machine

/-! ### Reads, with no side effect -/

/-- `len` (10_state.md R25). -/
def State.len (s : State) : Nat := s.buf.length

/-- `rsp[2:0]` (30_encoding.md R99); no value while no response is pending. -/
def State.rspCode (s : State) : Option (BitVec 3) := s.rsp.map FaultCode.code

/-- The register `LEN[LEN_W-1:0]` (30_encoding.md R100). -/
def State.lenRegister (s : State) : BitVec s.params.lenW := BitVec.ofNat s.params.lenW s.len

/-- The register `TBR[CNT_W-1:0]` (30_encoding.md R100), a number below `2^CNT_W` where `CNT_W` is finite
(60_exceptions.md R207). -/
def State.tbrRegister (s : State) : Nat := s.totalBytesRead

/-- The register `TUW[CNT_W-1:0]` (30_encoding.md R100). -/
def State.tuwRegister (s : State) : Nat := s.totalUnitsWritten

/-- The tail port (20_memory.md R76): `buf[i]` for a cell in use, and a free value elsewhere
(93_implementation_defined.md U6, log 8). -/
def State.tail (s : State) (i : Nat) : Byte :=
  match s.buf[i]? with
  | some x => x
  | none => Config.unusedCell s.freeCount s.buf i

/-- The source's `FinalizedResult` (30_encoding.md R100, 42_buffer_flush.md R166). -/
structure FinalizedResult where
  bufferedTail : List Byte
  overflowed : Bool
  deriving DecidableEq, Repr

/-- The result of a session, read when `phase = DONE` (30_encoding.md R100). -/
def State.finalizedResult (s : State) : Option FinalizedResult :=
  if s.phase = .done then some ⟨s.buf, s.overflowed⟩ else none

/-! ### The sink channel -/

/-- A beat `snk[10:0] = {kind, last, data}` (30_encoding.md R101). -/
def beat (kind : BitVec 2) (last : Bool) (data : Byte) : BitVec 11 := kind ++ BitVec.ofBool last ++ data

/-- The beats of a Write: one an element, the first element first, `last` on the final one (30_encoding.md R101). -/
def writeBeats : List Byte → List (BitVec 11)
  | [] => []
  | [x] => [beat 0b10#2 true x]
  | x :: y :: rest => beat 0b10#2 false x :: writeBeats (y :: rest)

/-- The beats of a sink event (30_encoding.md R101); of one that reset cut short, the first so many, a free number
(log 16). -/
def SinkEvent.beats : SinkEvent → List (BitVec 11)
  | .opened _ => [beat 0b01#2 true 0x00#8]
  | .wrote seq _ => writeBeats seq
  | .closed => [beat 0b11#2 true 0x00#8]
  | .openCut => [beat 0b01#2 true 0x00#8].take (Config.beatsSent [] [])
  | .writeCut seq kept => (writeBeats seq).take (Config.beatsSent seq kept)

/-! ### Command sequences -/

/-- `PUT <sym>` (30_encoding.md R103): the mode of the session picks the instruction. -/
def putWord (sym : Byte) : CmdWord := cmdWord 0b10#2 sym

/-- `FIN` (30_encoding.md R103). -/
def finWord : CmdWord := cmdWord 0b11#2 0x00#8

/-- `open(mode, sink)` (30_encoding.md R105). -/
def openWord : Mode → CmdWord
  | .enc => encode .openE
  | .dec => encode .openD

/-- `UPDATE`, the source's `update(session, chunk)` (30_encoding.md R104, R105; 43_session_control.md R188). -/
def updateWords (chunk : List Byte) : List CmdWord := chunk.map putWord

/-- `ENCODE` and `DECODE` (30_encoding.md R104). -/
def sessionWords (m : Mode) (msg : List Byte) : List CmdWord :=
  openWord m :: (updateWords msg ++ [finWord])

end Sys2Proof.Machine
end

