-- ==== Sys2Proof/Machine/Message.lean ====
section
/-! DEFINITION. The whole-message functions `enc` and `dec` (40_encoder.md R126, 41_decoder.md R148), written on bit
strings and apart from the instructions, so that a statement can hold the machine against them. -/

namespace Sys2Proof

/-- The number a group of bits stands for, the first bit most significant (20_memory.md R65). -/
def ofBits (bits : List Bool) : Nat := bits.foldl (fun n b => 2 * n + b.toNat) 0

/-- The full groups of six bits of a bit string, from its start (40_encoder.md R126). -/
def sextets : List Bool → List Sextet
  | a :: b :: c :: d :: e :: f :: rest => BitVec.ofNat 6 (ofBits [a, b, c, d, e, f]) :: sextets rest
  | _ => []

/-- `enc(b)` (40_encoder.md R126). -/
def encMessage (msg : List Byte) : List Byte :=
  let zeros := List.replicate ((6 - 8 * msg.length % 6) % 6) false
  (sextets (msg.flatMap Byte.bitsMsbFirst ++ zeros)).map alphabet ++
    List.replicate ((3 - msg.length % 3) % 3) pad

/-- The decoder on bit strings: the bits held, oldest first, and the bytes that have left (41_decoder.md R148, from
R140 and R142). A data symbol brings six bits, and eight bits held leave as a byte; a pad symbol drops the two
newest bits, or what there is; a symbol of neither kind brings nothing. -/
def decSymbol (st : List Bool × List Byte) (c : Byte) : List Bool × List Byte :=
  match rev c with
  | .val v =>
    let bits := st.1 ++ v.bitsMsbFirst
    if 8 ≤ bits.length then (bits.drop 8, st.2 ++ [BitVec.ofNat 8 (ofBits (bits.take 8))])
    else (bits, st.2)
  | .isPad => (st.1.take (st.1.length - 2), st.2)
  | .bad => st

/-- The fold of a symbol stream, from no bit held. -/
def decFold (syms : List Byte) : List Bool × List Byte := syms.foldl decSymbol ([], [])

/-- `dec(s)`: the bytes that left; the bits still held are dropped (41_decoder.md R145, R148). -/
def decMessage (syms : List Byte) : List Byte := (decFold syms).2

end Sys2Proof
end

