-- ==== Sys2Proof/Safety.lean ====
section
/-! DEFINITION. The terms claims are stated in: a good end, the invariants of 10_state.md section 7 and of
42_buffer_flush.md R165, the order of sink events, and when the sink's answers let a command complete. -/

namespace Sys2Proof.Machine

/-- A session has ended well (00_scope.md R11). -/
abbrev State.endedWell (s : State) : Prop := s.phase = .done

/-- The instructions a PUT or FIN word selects (30_encoding.md R95). -/
def isPutOrFin : Instr → Bool
  | .nop => false
  | .openE => false
  | .openD => false
  | .encPut _ => true
  | .decSym _ => true
  | .decPad => true
  | .decBad _ => true
  | .encFin => true
  | .decFin => true

/-- The words ILLEGAL: NOP or FIN with a non-zero data field, OPEN with `data > 1` (30_encoding.md R95, R97). -/
abbrev reservedWord (w : CmdWord) : Prop :=
  ((opField w = 0b00#2 ∨ opField w = 0b11#2) ∧ dataField w ≠ 0x00#8) ∨
    (opField w = 0b01#2 ∧ 0x01 < (dataField w).toNat)

/-- The two OPEN words (30_encoding.md R91). -/
abbrev openCommand (w : CmdWord) : Prop := w = 0x100#10 ∨ w = 0x101#10

/-- The next input is reset, at a command boundary or inside a command. -/
def State.resets (s : State) : Bool :=
  match s.inputs with
  | [] => false
  | .rst :: _ => true
  | .cmd _ :: _ => false
  | .rstDuring _ _ :: _ => true

/-- The command word of the next input, whether or not reset comes before the command's end. -/
def State.nextWord (s : State) : Option CmdWord :=
  match s.inputs with
  | [] => none
  | .rst :: _ => none
  | .cmd w :: _ => some w
  | .rstDuring w _ :: _ => some w

/-- The next input starts a session or resets the block: an OPEN outside a session, or reset. -/
def State.startsAnew (s : State) : Bool :=
  s.resets || match s.nextWord with
    | none => false
    | some w => decide (openCommand w ∧ s.phase ≠ .active)

/-- The command of the next input is a PUT word in an active session of the mode. -/
def State.putsIn (s : State) (m : Mode) : Bool :=
  match s.nextWord with
  | none => false
  | some w => decide (opField w = 0b10#2 ∧ s.phase = .active ∧ s.mode = m)

/-- The command of the next input is the FIN word in an active session of the mode. -/
def State.finsIn (s : State) (m : Mode) : Bool :=
  match s.nextWord with
  | none => false
  | some w => decide (w = 0x300#10 ∧ s.phase = .active ∧ s.mode = m)

/-! ### The data path -/

/-- What holds of the data path and the control registers at every command boundary: 10_state.md R29, R35, R36, R37
(which do not bind in FAULT), R23 and R24 in decode mode, and the bounds of 60_exceptions.md R207. -/
structure DataPathInv (s : State) : Prop where
  /-- `fault != 0` exactly when `phase = FAULT` (10_state.md R29). -/
  fault_iff : s.fault ≠ .ok ↔ s.phase = .fault
  /-- 10_state.md R35. -/
  acc_lt : s.phase ≠ .fault → s.acc.toNat < 2 ^ s.bitCount.toNat
  /-- 10_state.md R36, the count of bits. -/
  enc_bits : s.mode = .enc → s.phase = .active → s.bitCount.toNat = 2 * (s.totalBytesRead % 3)
  /-- 10_state.md R36, the count of characters. -/
  enc_units : s.mode = .enc → s.phase = .active → s.totalUnitsWritten = 4 * s.totalBytesRead / 3
  /-- 40_encoder.md R122, R123: at DONE all of the final length has been emitted and no bit is held. -/
  enc_done : s.mode = .enc → s.phase = .done →
    s.bitCount = 0#3 ∧ s.totalUnitsWritten = encodedLength s.totalBytesRead
  /-- 10_state.md R37. -/
  dec_bits : s.mode = .dec → s.phase ≠ .fault → s.bitCount.toNat % 2 = 0
  /-- 10_state.md R23, R24: no decode instruction writes a count. -/
  dec_counts : s.mode = .dec → s.totalBytesRead = 0 ∧ s.totalUnitsWritten = 0
  /-- `totalUnitsWritten <= finalLength` (60_exceptions.md R207). -/
  units_le : s.totalUnitsWritten ≤ encodedLength s.totalBytesRead
  /-- `totalBytesRead <= MAXN` with a finite `CNT_W` (60_exceptions.md R207). -/
  bytes_le : ∀ n, s.params.maxN = some n → s.totalBytesRead ≤ n
  /-- In IDLE every register has its reset value (70_reset_and_hazards.md R230). -/
  idle_clear : s.phase = .idle →
    s.acc = 0#8 ∧ s.bitCount = 0#3 ∧ s.totalBytesRead = 0 ∧ s.totalUnitsWritten = 0 ∧ s.mode = .enc

/-! ### The buffer and the sink -/

/-- The logical output so far (10_state.md R39): what the sink has and, until the drain, what the buffer has. -/
def State.logicalOutput (s : State) : List Byte :=
  if s.phase = .done then s.sinkData else s.sinkData ++ s.buf

/-- What holds of the buffer and the sink's record at every command boundary (10_state.md R38, R39; 42_buffer_flush.md
R164 to R166; 20_memory.md R76). `T` of R165 is the length of the logical output. -/
structure BufferInv (s : State) : Prop where
  /-- `0 <= len <= C` (10_state.md R38). -/
  len_le : Memory.wf s.params.capacity s.buf
  /-- Nothing is in the buffer or the record before a session. -/
  idle_empty : s.phase = .idle → s.buf = [] ∧ s.sinkData = [] ∧ s.overflowed = false
  /-- What the sink has in an active session is capacity flushes, each of `C` elements (42_buffer_flush.md R165). -/
  active_flushes : s.phase = .active → s.params.capacity ∣ s.sinkData.length
  /-- `overflowed` is 1 exactly when a capacity flush has completed (42_buffer_flush.md R164). -/
  active_overflowed : s.phase = .active → (s.overflowed = true ↔ s.sinkData ≠ [])
  /-- After a capacity flush the buffer is not empty: the element that caused it follows (42_buffer_flush.md R160). -/
  overflowed_nonempty : s.overflowed = true → s.buf ≠ []
  /-- In DONE the tail is the end of the sink's record, and what precedes it is capacity flushes (42_buffer_flush.md
  R165, R166). -/
  done_tail : s.phase = .done →
    ∃ flushed, s.sinkData = flushed ++ s.buf ∧ s.params.capacity ∣ flushed.length ∧
      (s.overflowed = true ↔ flushed ≠ [])

/-! ### The order of sink events -/

/-- Where the sink is in the life of a session, as the events tell it. -/
inductive SinkPhase where
  /-- No session, or the last one's Close has been issued. -/
  | quiet
  /-- An Open has been answered ok and no Write has failed. -/
  | streaming
  /-- An Open or a Write has been answered fail or cut short by reset: no further event of this session. -/
  | broken
  /-- An event stood where 20_memory.md R72 allows none. -/
  | wrongOrder
  deriving DecidableEq, Repr

/-- One event: "one Open; then Writes ...; then one Close; nothing after Close" (20_memory.md R72), no Write of no
element (20_memory.md R68), and no event of a session after a failed answer (60_exceptions.md R210) or after reset
(70_reset_and_hazards.md R231). An abandoned session's sink may be followed by the Open of a new one (43_session_control.md R182). -/
def SinkPhase.after : SinkPhase → SinkEvent → SinkPhase
  | .wrongOrder, _ => .wrongOrder
  | _, .opened true => .streaming
  | _, .opened false => .broken
  | .streaming, .wrote seq ok => if seq = [] then .wrongOrder else if ok then .streaming else .broken
  | .streaming, .closed => .quiet
  | _, .openCut => .broken
  | .streaming, .writeCut seq _ => if seq = [] then .wrongOrder else .broken
  | .quiet, .writeCut _ _ => .wrongOrder
  | .broken, .writeCut _ _ => .wrongOrder
  | .quiet, .wrote _ _ => .wrongOrder
  | .quiet, .closed => .wrongOrder
  | .broken, .wrote _ _ => .wrongOrder
  | .broken, .closed => .wrongOrder

/-- The phase of the sink after a sequence of events. -/
def sinkPhase (es : List SinkEvent) : SinkPhase := es.foldl SinkPhase.after .quiet

/-- What one event does to a record of the bytes a sink holds: an Open starts it, a Write answered ok adds its payload,
and one that reset cut short what of it the sink keeps (70_reset_and_hazards.md R231). -/
def recordAfter : List Byte → SinkEvent → List Byte
  | _, .opened _ => []
  | d, .wrote seq true => d ++ seq
  | d, .wrote _ false => d
  | d, .closed => d
  | _, .openCut => []
  | d, .writeCut _ kept => d ++ kept

/-- The bytes of the Writes answered ok since the last Open, which is the record of 10_state.md R40, with those kept of a
Write that reset cut short. -/
def recordOf (es : List SinkEvent) : List Byte := es.foldl recordAfter []

/-- What holds of the events at every command boundary (20_memory.md R72; 10_state.md R40; 42_buffer_flush.md R163). -/
structure SinkOrderInv (s : State) : Prop where
  ordered : sinkPhase s.events ≠ .wrongOrder
  /-- While a session is active its sink is open. -/
  active_streaming : s.phase = .active → sinkPhase s.events = .streaming ∧ s.sinkOpen = true
  /-- In DONE the Close was the last event. -/
  done_quiet : s.phase = .done → sinkPhase s.events = .quiet ∧ s.sinkOpen = false
  /-- The record is the bytes of the Writes answered ok (10_state.md R40). -/
  record : s.phase = .active ∨ s.phase = .done → s.sinkData = recordOf s.events

/-! ### When the sink's answers let a command complete -/

/-- The sink's answer to its question number `j` from now. -/
def State.answerAt (s : State) (j : Nat) : Bool :=
  match s.answers[j]? with
  | some a => a
  | none => Config.sinkAnswer (s.freeCount + j)

/-- Every question put to the sink on the way from `s` to `u` is answered ok. `u` is where the command ends when no
Write of it fails, and `freeCount` counts the questions; an answer to a question not asked does not matter. -/
abbrev State.answersOkTo (s u : State) : Prop :=
  ∀ j, j < u.freeCount - s.freeCount → s.answerAt j = true

/-- The payload of a Write, completed or cut short. -/
def SinkEvent.payload : SinkEvent → Option (List Byte)
  | .opened _ => none
  | .wrote seq _ => some seq
  | .closed => none
  | .openCut => none
  | .writeCut seq _ => some seq

/-- From `s` to `t` every Write has been answered ok. -/
abbrev noWriteFails (s t : State) : Prop :=
  ∃ new, t.events = s.events ++ new ∧ ∀ seq, .wrote seq false ∉ new

/-- From `s` to `t` a Write has been answered fail, and it is the last event. -/
abbrev aWriteFails (s t : State) : Prop :=
  ∃ new seq, t.events = s.events ++ new ++ [.wrote seq false]

/-- APPEND where no Write fails (42_buffer_flush.md R160, R161): a full buffer goes to the sink whole and the new
element stands alone; otherwise the element joins the buffer. -/
def stored (s : State) (x : Byte) : State :=
  if s.buf.length = s.params.capacity then
    { s with
      sinkData := s.sinkData ++ s.buf
      events := s.events ++ [.wrote s.buf true]
      answers := s.answers.tail
      freeCount := s.freeCount + 1
      overflowed := true
      buf := [x] }
  else { s with buf := s.buf ++ [x] }

/-- APPENDs in order, where no Write fails. -/
def storedAll (s : State) (xs : List Byte) : State := xs.foldl stored s

/-- DRAIN where its Write does not fail, then CLOSE and DONE (42_buffer_flush.md R162, R163). -/
def drained (s : State) : State :=
  if s.buf = [] then
    { s with events := s.events ++ [.closed], sinkOpen := false, phase := .done, rsp := some .ok }
  else
    { s with
      sinkData := s.sinkData ++ s.buf
      events := s.events ++ [.wrote s.buf true, .closed]
      answers := s.answers.tail
      freeCount := s.freeCount + 1
      sinkOpen := false
      phase := .done
      rsp := some .ok }

/-- Two states of two blocks that may differ in `C` and in what follows from it: the split of the logical output
between sink and buffer, `overflowed`, the events, and the sink's answers (20_memory.md R79). -/
structure SameButCapacity (s t : State) : Prop where
  cntW_eq : s.params.cntW = t.params.cntW
  acc_eq : s.acc = t.acc
  bits_eq : s.bitCount = t.bitCount
  bytes_eq : s.totalBytesRead = t.totalBytesRead
  units_eq : s.totalUnitsWritten = t.totalUnitsWritten
  mode_eq : s.mode = t.mode
  phase_eq : s.phase = t.phase
  fault_eq : s.fault = t.fault
  rsp_eq : s.rsp = t.rsp
  inputs_eq : s.inputs = t.inputs
  output_eq : s.phase = .active ∨ s.phase = .done → s.logicalOutput = t.logicalOutput

end Sys2Proof.Machine
end

