-- ==== Sys2Proof/Certificates/Slice0/Obligations.lean ====
section
/-! DEFINITION. The statements for the provers. Each says which rules of spec/ it formalises; OBLIGATIONS.json lists
them. `answerAt j` is the sink's answer to its question number `j` from now: a statement that names it holds whatever
the answers are, and one that assumes `answerAt 0 = true` assumes only that the sink says ok. `s.answersOkTo u` assumes
it of the questions asked from `s` to `u` and of no other. -/

open Sys2Proof Sys2Proof.Machine

/-! ### Words, tables and decoding -/

/-- R31: the order and the codes of the 64 symbols. -/
def Obligations.AlphabetIsTheSpecTable : Prop :=
  (∀ n, n ≤ 25 → alphabet (BitVec.ofNat 6 n) = BitVec.ofNat 8 (0x41 + n)) ∧
  (∀ n, n ≤ 25 → alphabet (BitVec.ofNat 6 (26 + n)) = BitVec.ofNat 8 (0x61 + n)) ∧
  (∀ n, n ≤ 9 → alphabet (BitVec.ofNat 6 (52 + n)) = BitVec.ofNat 8 (0x30 + n)) ∧
  alphabet 62#6 = 0x2B#8 ∧ alphabet 63#6 = 0x2F#8

/-- R33: `REV` is defined from `ALPHABET` and `PAD` and from nothing else; every other code is BAD. -/
def Obligations.SymbolTableInvertsAlphabet : Prop :=
  (∀ (c : Byte) (i : Sextet), rev c = .val i ↔ alphabet i = c) ∧
  (∀ c : Byte, rev c = .isPad ↔ c = 0x3D#8) ∧
  (∀ c : Byte, rev c = .bad ↔ (∀ i : Sextet, alphabet i ≠ c) ∧ c ≠ 0x3D#8)

/-- R95: a few words written out from the encodings of the rule decode to what they stand for. -/
def Obligations.DecodeOfSpecWords : Prop :=
  (∀ m, decode m 0b0000000000#10 = .instr .nop) ∧
  (∀ m, decode m 0b0100000000#10 = .instr .openE) ∧
  (∀ m, decode m 0b0100000001#10 = .instr .openD) ∧
  decode .enc 0b1001100110#10 = .instr (.encPut 0x66#8) ∧
  decode .enc 0b1000111101#10 = .instr (.encPut 0x3D#8) ∧
  decode .dec 0b1001011010#10 = .instr (.decSym 0x5A#8) ∧
  decode .dec 0b1000111101#10 = .instr .decPad ∧
  decode .dec 0b1000001010#10 = .instr (.decBad 0x0A#8) ∧
  decode .enc 0b1100000000#10 = .instr .encFin ∧
  decode .dec 0b1100000000#10 = .instr .decFin

/-- R90 to R95: no operand bit of an encoding is dropped. -/
def Obligations.DecodeOfEncodeIsTheInstruction : Prop :=
  ∀ (i : Instr) (m : Mode), i.wf = true → i.selectedIn m = true → decode m (encode i) = .instr i

/-- R95, R96: a word names one instruction, well formed and of the session's mode, and is its encoding. -/
def Obligations.EncodeOfDecodeIsTheWord : Prop :=
  ∀ (m : Mode) (w : CmdWord) (i : Instr), decode m w = .instr i →
    encode i = w ∧ i.wf = true ∧ i.selectedIn m = true

/-- R95, R97: the reserved words, in either mode, and their number. -/
def Obligations.ReservedWordsAreTheIllegalOnes : Prop :=
  (∀ (m : Mode) (w : CmdWord), (∃ r, decode m w = .illegal r) ↔ reservedWord w) ∧
  (List.range 1024).countP (fun n => decide (reservedWord (BitVec.ofNat 10 n))) = 764

/-! ### The step -/

/-- R180: a legal command word runs the instruction the classification selects, in the state from which the command
has been taken. -/
def Obligations.StepRunsDecodedInstruction : Prop :=
  ∀ (s : State) (w : CmdWord) (rest : List Input) (i : Instr),
    s.inputs = .cmd w :: rest → decode s.mode w = .instr i →
    step s = exec i { s with inputs := rest }

/-- R206, R97: a reserved word raises IllegalCommand in every phase and mode and changes nothing else. -/
def Obligations.ReservedWordRaisesIllegalCommand : Prop :=
  ∀ (s : State) (w : CmdWord) (rest : List Input),
    s.inputs = .cmd w :: rest → reservedWord w →
    step s = .next { s with
      inputs := rest
      rsp := some .illegalCommand
      phase := .fault
      fault := if s.phase = .fault then s.fault else .illegalCommand }

/-- R230: reset, from every state, at a command boundary and in the middle of a command. The sink's record follows R42.
R231: reset issues no event, and of a Write in progress the sink keeps a free sequence of at most its length
(93_implementation_defined.md U4). `new` are the events of the whole command and `p` says where reset comes: the events
that are over stay, and no later one is issued. The model's choice, log 11: the form of `p`; an event in progress stands
without an answer, an Open as `openCut` and a Close as it is; an unanswered question takes one number and none of the
answers to come; and the parameters, the events, the inputs and the answers to come are not reset's to change. -/
def Obligations.ResetClearsTheCore : Prop :=
  ∀ (s : State) (rest : List Input),
    (s.inputs = .rst :: rest →
      step s = .next
        { params := s.params, acc := 0#8, bitCount := 0#3, totalBytesRead := 0, totalUnitsWritten := 0, buf := [],
          overflowed := false, mode := .enc, phase := .idle, fault := .ok, rsp := none, sinkOpen := false,
          sinkData := [], events := s.events, inputs := rest, answers := s.answers, freeCount := s.freeCount }) ∧
    (∀ (w : CmdWord) (p : ResetPoint) (u : State) (new : List SinkEvent),
      s.inputs = .rstDuring w p :: rest → step { s with inputs := .cmd w :: rest } = .next u →
      u.events = s.events ++ new →
      ∃ cut, step s = .next
        { params := s.params, acc := 0#8, bitCount := 0#3, totalBytesRead := 0, totalUnitsWritten := 0, buf := [],
          overflowed := false, mode := .enc, phase := .idle, fault := .ok, rsp := none, sinkOpen := false,
          sinkData := [], events := s.events ++ new.take p.after ++ cut, inputs := rest
          answers := s.answers.drop (answersIn (new.take p.after)).length
          freeCount := s.freeCount + questionsIn (new.take p.after ++ cut) } ∧
        (p.during = false ∨ new.length ≤ p.after → cut = []) ∧
        (p.during = true → ∀ seq ok, new[p.after]? = some (.wrote seq ok) →
          ∃ kept, kept.length ≤ seq.length ∧ cut = [.writeCut seq kept]) ∧
        (p.during = true → ∀ ok, new[p.after]? = some (.opened ok) → cut = [.openCut]) ∧
        (p.during = true → new[p.after]? = some .closed → cut = [.closed]))

/-- R42, the column "after reset", and R230. -/
def Obligations.ResetStateHoldsTheSpecValues : Prop :=
  State.reset.phase = .idle ∧ State.reset.mode = .enc ∧ State.reset.fault = .ok ∧ State.reset.acc = 0#8 ∧
  State.reset.bitCount = 0#3 ∧ State.reset.totalBytesRead = 0 ∧ State.reset.totalUnitsWritten = 0 ∧
  State.reset.len = 0 ∧ State.reset.overflowed = false ∧ State.reset.trailing = false ∧
  State.reset.rsp = none ∧ State.reset.sinkOpen = false ∧ State.reset.sinkData = [] ∧
  State.reset.params.capacity = 5120 ∧ State.reset.params.cntW = none ∧ State.reset.status = 0#20

/-- The model's choice (log 2, from R218 "between commands the block is idle and keeps all state"): with no input
pending a step changes nothing. -/
def Obligations.WaitingBlockKeepsItsState : Prop :=
  ∀ s : State, s.inputs = [] → step s = .next s

/-- R180: "The step is total". -/
def Obligations.StepAlwaysAnswersNext : Prop :=
  ∀ s : State, ∃ t, step s = .next t

/-- R180, R95, with the model's choice of log 13: a meaning answers a next state wherever dispatch can select it, for
every operand and in every phase; the one place it refuses is an active session whose mode or symbol selects another
instruction, which no step reaches. -/
def Obligations.ExecRefusesOnlyWhereDispatchSelectsAnother : Prop :=
  ∀ (i : Instr) (s : State),
    (s.phase = .active ∧ isPutOrFin i = true ∧ ¬ (i.wf = true ∧ i.selectedIn s.mode = true) →
      exec i s = .refused .notSelected) ∧
    (¬ (s.phase = .active ∧ isPutOrFin i = true ∧ ¬ (i.wf = true ∧ i.selectedIn s.mode = true)) →
      ∃ t, exec i s = .next t)

/-! ### Session control -/

/-- R181. -/
def Obligations.NopAnswersOkAndChangesNothing : Prop :=
  ∀ s : State, exec .nop s = .next { s with rsp := some .ok }

/-- R182, R42: OPEN.E outside a session sets every element to its start value and asks the sink; in a session it
raises ProtocolError and writes nothing else. -/
def Obligations.OpenEStartsAnEncodeSession : Prop :=
  ∀ s : State,
    (s.phase ≠ .active → exec .openE s = .next { s with
      mode := .enc, acc := 0#8, bitCount := 0#3, totalBytesRead := 0, totalUnitsWritten := 0, buf := []
      overflowed := false, sinkData := [], sinkOpen := s.answerAt 0
      phase := if s.answerAt 0 = true then .active else .fault
      fault := if s.answerAt 0 = true then .ok else .sinkOpenFailure
      rsp := some (if s.answerAt 0 = true then .ok else .sinkOpenFailure)
      events := s.events ++ [.opened (s.answerAt 0)], answers := s.answers.tail, freeCount := s.freeCount + 1 }) ∧
    (s.phase = .active → exec .openE s = .next { s with
      rsp := some .protocolError, phase := .fault, fault := .protocolError })

/-- R183, R42: the same for OPEN.D. -/
def Obligations.OpenDStartsADecodeSession : Prop :=
  ∀ s : State,
    (s.phase ≠ .active → exec .openD s = .next { s with
      mode := .dec, acc := 0#8, bitCount := 0#3, totalBytesRead := 0, totalUnitsWritten := 0, buf := []
      overflowed := false, sinkData := [], sinkOpen := s.answerAt 0
      phase := if s.answerAt 0 = true then .active else .fault
      fault := if s.answerAt 0 = true then .ok else .sinkOpenFailure
      rsp := some (if s.answerAt 0 = true then .ok else .sinkOpenFailure)
      events := s.events ++ [.opened (s.answerAt 0)], answers := s.answers.tail, freeCount := s.freeCount + 1 }) ∧
    (s.phase = .active → exec .openD s = .next { s with
      rsp := some .protocolError, phase := .fault, fault := .protocolError })

/-- R185: PUT and FIN, whatever the mode and the symbol, when no session is active, and OPEN when one is. -/
def Obligations.OutOfPhaseCommandRaisesProtocolError : Prop :=
  (∀ (s : State) (i : Instr), isPutOrFin i = true → s.phase ≠ .active →
    exec i s = .next { s with
      rsp := some .protocolError, phase := .fault
      fault := if s.phase = .fault then s.fault else .protocolError }) ∧
  (∀ (s : State) (i : Instr), i = .openE ∨ i = .openD → s.phase = .active →
    exec i s = .next { s with rsp := some .protocolError, phase := .fault, fault := .protocolError })

/-- R186: in FAULT every command but OPEN changes only the response. -/
def Obligations.FaultPhaseKeepsAllButResponse : Prop :=
  ∀ (s : State) (w : CmdWord) (rest : List Input),
    s.phase = .fault → s.inputs = .cmd w :: rest → ¬ openCommand w →
    step s = .next { s with
      inputs := rest
      rsp := some (if w = 0x000#10 then .ok else if reservedWord w then .illegalCommand else .protocolError) }

/-- R187: in DONE every command but OPEN keeps the result readable: it changes the response and, unless it is NOP,
`phase` and `fault`. -/
def Obligations.DonePhaseKeepsTheResult : Prop :=
  ∀ (s : State) (w : CmdWord) (rest : List Input),
    s.phase = .done → s.inputs = .cmd w :: rest → ¬ openCommand w →
    step s = .next (
      if w = 0x000#10 then { s with inputs := rest, rsp := some .ok }
      else if reservedWord w then
        { s with inputs := rest, rsp := some .illegalCommand, phase := .fault, fault := .illegalCommand }
      else { s with inputs := rest, rsp := some .protocolError, phase := .fault, fault := .protocolError })

/-- R184: every arc of `phase`, with its condition, the response and the fault register, and the arc of
reset, at a command boundary and inside a command. -/
def Obligations.PhaseMovesAlongTheArcs : Prop :=
  (∀ (s t : State) (w : CmdWord) (rest : List Input),
    s.inputs = .cmd w :: rest → step s = .next t →
    (reservedWord w → t.phase = .fault ∧ t.rsp = some .illegalCommand ∧
      t.fault = if s.phase = .fault then s.fault else .illegalCommand) ∧
    (w = 0x000#10 → t.phase = s.phase ∧ t.fault = s.fault ∧ t.rsp = some .ok) ∧
    (openCommand w → s.phase = .active →
      t.phase = .fault ∧ t.fault = .protocolError ∧ t.rsp = some .protocolError) ∧
    (openCommand w → s.phase ≠ .active →
      (s.answerAt 0 = true ∧ t.phase = .active ∧ t.fault = .ok ∧ t.rsp = some .ok) ∨
      (s.answerAt 0 = false ∧ t.phase = .fault ∧ t.fault = .sinkOpenFailure ∧ t.rsp = some .sinkOpenFailure)) ∧
    (opField w = 0b10#2 ∨ w = 0x300#10 → s.phase ≠ .active →
      t.phase = .fault ∧ t.rsp = some .protocolError ∧
      t.fault = if s.phase = .fault then s.fault else .protocolError) ∧
    (opField w = 0b10#2 → s.phase = .active → s.mode = .dec → rev (dataField w) = .bad →
      t.phase = .fault ∧ t.fault = .invalidSymbol ∧ t.rsp = some .invalidSymbol) ∧
    (opField w = 0b10#2 → s.phase = .active → s.mode = .enc → s.params.maxN = some s.totalBytesRead →
      t.phase = .fault ∧ t.fault = .counterOverflow ∧ t.rsp = some .counterOverflow) ∧
    (opField w = 0b10#2 → s.phase = .active → ¬ (s.mode = .dec ∧ rev (dataField w) = .bad) →
      ¬ (s.mode = .enc ∧ s.params.maxN = some s.totalBytesRead) →
      (t.phase = .active ∧ t.fault = s.fault ∧ t.rsp = some .ok ∧ noWriteFails s t) ∨
      (t.phase = .fault ∧ t.fault = .sinkWriteFailure ∧ t.rsp = some .sinkWriteFailure ∧ aWriteFails s t)) ∧
    (w = 0x300#10 → s.phase = .active →
      (t.phase = .done ∧ t.fault = s.fault ∧ t.rsp = some .ok ∧ noWriteFails s t) ∨
      (t.phase = .fault ∧ t.fault = .sinkWriteFailure ∧ t.rsp = some .sinkWriteFailure ∧ aWriteFails s t))) ∧
  (∀ s t : State, s.resets = true → step s = .next t → t.phase = .idle ∧ t.fault = .ok ∧ t.rsp = none)

/-! ### The buffer-flush unit -/

/-- R160, R161: APPEND with room, APPEND on a full buffer, and APPEND whose flush fails. Nothing is said of what the sink
holds of a failed Write. -/
def Obligations.AppendStoresAfterMakingRoom : Prop :=
  ∀ (s : State) (x : Byte),
    (s.buf.length ≠ s.params.capacity → append x s = .ok { s with buf := s.buf ++ [x] }) ∧
    (s.buf.length = s.params.capacity → s.answerAt 0 = true →
      append x s = .ok { s with
        buf := [x], overflowed := true, sinkData := s.sinkData ++ s.buf
        events := s.events ++ [.wrote s.buf true], answers := s.answers.tail, freeCount := s.freeCount + 1 }) ∧
    (s.buf.length = s.params.capacity → s.answerAt 0 = false →
      ∃ d, append x s = .raised { s with
        phase := .fault, rsp := some .sinkWriteFailure
        fault := if s.phase = .fault then s.fault else .sinkWriteFailure
        sinkData := d
        events := s.events ++ [.wrote s.buf false], answers := s.answers.tail, freeCount := s.freeCount + 1 })

/-- R162: DRAIN writes what remains in one Write, none when nothing remains, and leaves `buf`, `len` and
`overflowed`. Nothing is said of what the sink holds of a failed Write. -/
def Obligations.DrainWritesWhatRemains : Prop :=
  ∀ s : State,
    (s.buf = [] → drain s = .ok s) ∧
    (s.buf ≠ [] → s.answerAt 0 = true →
      drain s = .ok { s with
        sinkData := s.sinkData ++ s.buf
        events := s.events ++ [.wrote s.buf true], answers := s.answers.tail, freeCount := s.freeCount + 1 }) ∧
    (s.buf ≠ [] → s.answerAt 0 = false →
      ∃ d, drain s = .raised { s with
        phase := .fault, rsp := some .sinkWriteFailure
        fault := if s.phase = .fault then s.fault else .sinkWriteFailure
        sinkData := d
        events := s.events ++ [.wrote s.buf false], answers := s.answers.tail, freeCount := s.freeCount + 1 })

/-! ### The encoder -/

/-- R121: ENC.PUT at `bitCount` = 0, 2 and 4 (the three cases R36 leaves), where every question it asks the sink is
answered ok. `stored` is APPEND where no Write fails; no other register than those named changes. -/
def Obligations.EncPutAbsorbsOneByte : Prop :=
  ∀ (s : State) (b : Byte),
    s.phase = .active → s.mode = .enc → s.params.maxN ≠ some s.totalBytesRead →
    (s.bitCount = 0#3 → s.answersOkTo (stored s (alphabet (b.extractLsb' 2 6))) →
      exec (.encPut b) s = .next { stored s (alphabet (b.extractLsb' 2 6)) with
        acc := (b.extractLsb' 0 2).setWidth 8, bitCount := 2#3, rsp := some .ok
        totalBytesRead := s.totalBytesRead + 1, totalUnitsWritten := s.totalUnitsWritten + 1 }) ∧
    (s.bitCount = 2#3 → s.answersOkTo (stored s (alphabet (s.acc.extractLsb' 0 2 ++ b.extractLsb' 4 4))) →
      exec (.encPut b) s = .next { stored s (alphabet (s.acc.extractLsb' 0 2 ++ b.extractLsb' 4 4)) with
        acc := (b.extractLsb' 0 4).setWidth 8, bitCount := 4#3, rsp := some .ok
        totalBytesRead := s.totalBytesRead + 1, totalUnitsWritten := s.totalUnitsWritten + 1 }) ∧
    (∀ u, u = stored (stored s (alphabet (s.acc.extractLsb' 0 4 ++ b.extractLsb' 6 2))) (alphabet (b.extractLsb' 0 6)) →
      s.bitCount = 4#3 → s.answersOkTo u →
      exec (.encPut b) s = .next { u with
        acc := 0#8, bitCount := 0#3, rsp := some .ok
        totalBytesRead := s.totalBytesRead + 1, totalUnitsWritten := s.totalUnitsWritten + 2 })

/-- R207: `MAXN` is the largest count of bytes whose final length fits a finite count, and there is none for an
infinite one. -/
def Obligations.CounterLimitIsTheLargestThatFits : Prop :=
  (∀ (p : Params) (w : Nat), p.cntW = some w →
    ∃ n, p.maxN = some n ∧ n ≤ 2 ^ w - 1 ∧ encodedLength n ≤ 2 ^ w - 1 ∧
      ∀ k, encodedLength k ≤ 2 ^ w - 1 → k ≤ n) ∧
  (∀ p : Params, p.cntW = none → p.maxN = none)

/-- R207: at the limit of a finite count ENC.PUT refuses the byte and writes nothing. -/
def Obligations.EncPutRefusesTheByteAtTheLimit : Prop :=
  ∀ (s : State) (b : Byte),
    s.phase = .active → s.mode = .enc → s.params.maxN = some s.totalBytesRead →
    exec (.encPut b) s = .next { s with
      rsp := some .counterOverflow, phase := .fault, fault := .counterOverflow }

/-- R211: what a failed flush inside ENC.PUT leaves. The byte is counted, `acc` holds the completed group, `bitCount`
is 5, and the lost character is not counted. The second clause is a failure at the second character. What the sink
holds of the failed Write is a free value (93_implementation_defined.md U4, log 6). -/
def Obligations.EncPutWriteFailureLeavesTheGroup : Prop :=
  ∀ (s : State) (b : Byte),
    s.phase = .active → s.mode = .enc → s.params.maxN ≠ some s.totalBytesRead →
    (s.bitCount = 0#3 ∨ s.bitCount = 2#3 ∨ s.bitCount = 4#3 → s.buf.length = s.params.capacity → s.answerAt 0 = false →
      exec (.encPut b) s = .next { s with
        totalBytesRead := s.totalBytesRead + 1
        acc := (s.acc <<< (6 - s.bitCount.toNat)) ||| (b >>> (2 + s.bitCount.toNat)), bitCount := 5#3
        phase := .fault, fault := .sinkWriteFailure, rsp := some .sinkWriteFailure
        sinkData := s.sinkData ++ (Config.landed s.freeCount s.buf).take s.buf.length
        events := s.events ++ [.wrote s.buf false], answers := s.answers.tail, freeCount := s.freeCount + 1 }) ∧
    (∀ u, u = stored s (alphabet (s.acc.extractLsb' 0 4 ++ b.extractLsb' 6 2)) →
      s.bitCount = 4#3 → s.answersOkTo u →
      u.buf.length = u.params.capacity → u.answerAt 0 = false →
      exec (.encPut b) s = .next { u with
        totalBytesRead := s.totalBytesRead + 1, totalUnitsWritten := s.totalUnitsWritten + 1
        acc := (b.extractLsb' 0 6).setWidth 8, bitCount := 5#3
        phase := .fault, fault := .sinkWriteFailure, rsp := some .sinkWriteFailure
        sinkData := u.sinkData ++ (Config.landed u.freeCount u.buf).take u.buf.length
        events := u.events ++ [.wrote u.buf false], answers := u.answers.tail, freeCount := u.freeCount + 1 })

/-- R122, R123: ENC.FIN where every question it asks the sink is answered ok: the last group, the pads, one Write of
what remains (none when nothing remains), Close. The hypotheses on the counts are those of R36. -/
def Obligations.EncFinPadsDrainsAndCloses : Prop :=
  ∀ s : State,
    s.phase = .active → s.mode = .enc → s.totalUnitsWritten = 4 * s.totalBytesRead / 3 →
    (s.totalBytesRead % 3 = 0 → s.bitCount = 0#3 → s.answersOkTo (drained s) →
      exec .encFin s = .next (drained s)) ∧
    (∀ t, t = drained
        { storedAll s [alphabet (s.acc.extractLsb' 0 2 ++ 0#4), pad, pad] with
          acc := 0#8, bitCount := 0#3, totalUnitsWritten := encodedLength s.totalBytesRead } →
      s.totalBytesRead % 3 = 1 → s.bitCount = 2#3 → s.answersOkTo t → exec .encFin s = .next t) ∧
    (∀ t, t = drained
        { storedAll s [alphabet (s.acc.extractLsb' 0 4 ++ 0#2), pad] with
          acc := 0#8, bitCount := 0#3, totalUnitsWritten := encodedLength s.totalBytesRead } →
      s.totalBytesRead % 3 = 2 → s.bitCount = 4#3 → s.answersOkTo t → exec .encFin s = .next t)

/-- R122, R211: what a failed Write inside ENC.FIN leaves. The first clause is the flush for the last group: nothing of
the FIN is done but the shift of `acc`. The second is the flush for a pad (`j` pads are out before it) or, after all of
FIN's APPENDs, the drain; the questions asked before it, none or some, are answered ok. The third is a drain with
nothing to append. What the sink holds of the failed Write is a free value (93_implementation_defined.md U4,
log 6). -/
def Obligations.EncFinWriteFailureKeepsTheAppendsMade : Prop :=
  ∀ s : State,
    s.phase = .active → s.mode = .enc → s.totalUnitsWritten = 4 * s.totalBytesRead / 3 →
    s.bitCount.toNat = 2 * (s.totalBytesRead % 3) →
    (s.bitCount ≠ 0#3 → s.buf.length = s.params.capacity → s.answerAt 0 = false →
      exec .encFin s = .next { s with
        acc := s.acc <<< (6 - s.bitCount.toNat)
        phase := .fault, fault := .sinkWriteFailure, rsp := some .sinkWriteFailure
        sinkData := s.sinkData ++ (Config.landed s.freeCount s.buf).take s.buf.length
        events := s.events ++ [.wrote s.buf false], answers := s.answers.tail, freeCount := s.freeCount + 1 }) ∧
    (∀ (j : Nat) (u : State), s.bitCount ≠ 0#3 →
      u = { storedAll s (alphabet ((s.acc <<< (6 - s.bitCount.toNat)).extractLsb' 0 6) :: List.replicate j pad) with
        acc := 0#8, bitCount := 0#3, totalUnitsWritten := s.totalUnitsWritten + 1 + j } →
      (j < 3 - s.totalBytesRead % 3 ∧ u.buf.length = u.params.capacity) ∨ j = 3 - s.totalBytesRead % 3 →
      s.answersOkTo u → u.answerAt 0 = false →
      exec .encFin s = .next { u with
        phase := .fault, fault := .sinkWriteFailure, rsp := some .sinkWriteFailure
        sinkData := u.sinkData ++ (Config.landed u.freeCount u.buf).take u.buf.length
        events := u.events ++ [.wrote u.buf false], answers := u.answers.tail, freeCount := u.freeCount + 1 }) ∧
    (s.bitCount = 0#3 → s.buf ≠ [] → s.answerAt 0 = false →
      exec .encFin s = .next { s with
        phase := .fault, fault := .sinkWriteFailure, rsp := some .sinkWriteFailure
        sinkData := s.sinkData ++ (Config.landed s.freeCount s.buf).take s.buf.length
        events := s.events ++ [.wrote s.buf false], answers := s.answers.tail, freeCount := s.freeCount + 1 })

/-- R123, R125: `encodedLength`, a multiple of 4, with the number of pads of R124. -/
def Obligations.EncodedLengthCountsWholeGroups : Prop :=
  ∀ n : Nat,
    encodedLength (3 * n) = 4 * n ∧ encodedLength (3 * n + 1) = 4 * n + 4 ∧ encodedLength (3 * n + 2) = 4 * n + 4 ∧
    encodedLength n = (8 * n + 5) / 6 + (3 - n % 3) % 3

/-! ### The decoder -/

/-- R141: DEC.SYM at `bitCount` = 0, 2, 4 and 6 (the four cases R37 leaves), where the question it asks the sink, if any, is
answered ok. -/
def Obligations.DecSymAbsorbsOneSymbol : Prop :=
  ∀ (s : State) (c : Byte) (v : Sextet),
    s.phase = .active → s.mode = .dec → rev c = .val v →
    (s.bitCount = 0#3 → s.acc = 0#8 →
      exec (.decSym c) s = .next { s with acc := v.setWidth 8, bitCount := 6#3, rsp := some .ok }) ∧
    (s.bitCount = 2#3 → s.answersOkTo (stored s (s.acc.extractLsb' 0 2 ++ v)) →
      exec (.decSym c) s = .next { stored s (s.acc.extractLsb' 0 2 ++ v) with
        acc := 0#8, bitCount := 0#3, rsp := some .ok }) ∧
    (s.bitCount = 4#3 → s.answersOkTo (stored s (s.acc.extractLsb' 0 4 ++ v.extractLsb' 2 4)) →
      exec (.decSym c) s = .next { stored s (s.acc.extractLsb' 0 4 ++ v.extractLsb' 2 4) with
        acc := (v.extractLsb' 0 2).setWidth 8, bitCount := 2#3, rsp := some .ok }) ∧
    (s.bitCount = 6#3 → s.answersOkTo (stored s (s.acc.extractLsb' 0 6 ++ v.extractLsb' 4 2)) →
      exec (.decSym c) s = .next { stored s (s.acc.extractLsb' 0 6 ++ v.extractLsb' 4 2) with
        acc := (v.extractLsb' 0 4).setWidth 8, bitCount := 4#3, rsp := some .ok })

/-- R211: what a failed flush inside DEC.SYM leaves: `acc` holds the completed byte, `bitCount` is 7. What the sink holds
of the failed Write is a free value (93_implementation_defined.md U4, log 6). -/
def Obligations.DecSymWriteFailureLeavesTheByte : Prop :=
  ∀ (s : State) (c : Byte) (v : Sextet),
    s.phase = .active → s.mode = .dec → rev c = .val v →
    s.bitCount = 2#3 ∨ s.bitCount = 4#3 ∨ s.bitCount = 6#3 →
    s.buf.length = s.params.capacity → s.answerAt 0 = false →
    exec (.decSym c) s = .next { s with
      acc := (s.acc <<< (8 - s.bitCount.toNat)) ||| (v.setWidth 8 >>> (s.bitCount.toNat - 2)), bitCount := 7#3
      phase := .fault, fault := .sinkWriteFailure, rsp := some .sinkWriteFailure
      sinkData := s.sinkData ++ (Config.landed s.freeCount s.buf).take s.buf.length
      events := s.events ++ [.wrote s.buf false], answers := s.answers.tail, freeCount := s.freeCount + 1 }

/-- R142: DEC.PAD in every state in which dispatch selects it. -/
def Obligations.DecPadTakesTwoBitsBack : Prop :=
  ∀ s : State, s.phase = .active → s.mode = .dec →
    exec .decPad s = .next { s with
      acc := s.acc >>> 2, bitCount := if s.bitCount.toNat < 2 then 0#3 else s.bitCount - 2#3, rsp := some .ok }

/-- R143, R203: DEC.BAD raises InvalidSymbol; the symbol is not absorbed, nothing is drained or closed. -/
def Obligations.DecBadRaisesInvalidSymbol : Prop :=
  ∀ (s : State) (c : Byte), s.phase = .active → s.mode = .dec → rev c = .bad →
    exec (.decBad c) s = .next { s with
      rsp := some .invalidSymbol, phase := .fault, fault := .invalidSymbol }

/-- R144, R145, R30: DEC.FIN drains and closes whatever `overflowed` and `bitCount` are, and with an empty buffer
whatever the sink would answer; `trailing` is then 1 exactly when bits are left. -/
def Obligations.DecFinDrainsAndCloses : Prop :=
  ∀ s : State, s.phase = .active → s.mode = .dec →
    (s.answersOkTo (drained s) → exec .decFin s = .next (drained s)) ∧
    (s.buf ≠ [] → s.answerAt 0 = false →
      ∃ d, exec .decFin s = .next { s with
        phase := .fault, fault := .sinkWriteFailure, rsp := some .sinkWriteFailure
        sinkData := d
        events := s.events ++ [.wrote s.buf false], answers := s.answers.tail, freeCount := s.freeCount + 1 }) ∧
    ((drained s).trailing = true ↔ s.bitCount ≠ 0#3)

/-! ### Frames -/

/-- What ENC.PUT leaves unchanged in an active encode session, on every path. The position stored to is `len`: the
elements below it are untouched while the command issues no Write. -/
def Obligations.EncPutFrame : Prop :=
  ∀ (s t : State) (b : Byte), s.phase = .active → s.mode = .enc → exec (.encPut b) s = .next t →
    t.params = s.params ∧ t.mode = s.mode ∧ t.sinkOpen = s.sinkOpen ∧ t.inputs = s.inputs ∧
    (s.overflowed = true → t.overflowed = true) ∧
    (t.phase = .fault ∨ t.phase = s.phase ∧ t.fault = s.fault) ∧
    (t.events = s.events →
      t.overflowed = s.overflowed ∧ t.sinkData = s.sinkData ∧ t.answers = s.answers ∧ t.freeCount = s.freeCount ∧
      ∀ i, i < s.buf.length → t.buf[i]? = s.buf[i]?)

/-- What DEC.SYM leaves unchanged in an active decode session, on every path; no count moves. -/
def Obligations.DecSymFrame : Prop :=
  ∀ (s t : State) (c : Byte), s.phase = .active → s.mode = .dec → exec (.decSym c) s = .next t →
    t.params = s.params ∧ t.mode = s.mode ∧ t.sinkOpen = s.sinkOpen ∧ t.inputs = s.inputs ∧
    t.totalBytesRead = s.totalBytesRead ∧ t.totalUnitsWritten = s.totalUnitsWritten ∧
    (s.overflowed = true → t.overflowed = true) ∧
    (t.phase = .fault ∨ t.phase = s.phase ∧ t.fault = s.fault) ∧
    (t.events = s.events →
      t.overflowed = s.overflowed ∧ t.sinkData = s.sinkData ∧ t.answers = s.answers ∧ t.freeCount = s.freeCount ∧
      ∀ i, i < s.buf.length → t.buf[i]? = s.buf[i]?)

/-- What both FIN instructions leave unchanged in an active session of their mode, on every path: a failed Write means
no Close; DEC.FIN moves no data-path register and no buffer element, and ENC.FIN does not move `totalBytesRead`. The
record the sink has stays; `part` is what FIN adds to it. A command that issues one Write at most empties no buffer (a
capacity flush answered ok is followed by another Write): then `part` is the buffer FIN leaves, at DONE, and no longer
than that where the Write fails, and the elements below `len`, where ENC.FIN begins to store, are untouched. -/
def Obligations.FinFrame : Prop :=
  (∀ s t : State, s.phase = .active → s.mode = .enc → exec .encFin s = .next t →
    t.params = s.params ∧ t.mode = s.mode ∧ t.inputs = s.inputs ∧ t.totalBytesRead = s.totalBytesRead ∧
    (s.overflowed = true → t.overflowed = true) ∧
    (t.phase = .done ∧ t.fault = s.fault ∧ t.sinkOpen = false ∨
      t.phase = .fault ∧ t.fault = .sinkWriteFailure ∧ t.sinkOpen = s.sinkOpen ∧
        ∃ new, t.events = s.events ++ new ∧ .closed ∉ new) ∧
    ∃ new part, t.events = s.events ++ new ∧ t.sinkData = s.sinkData ++ part ∧
      ((answersIn new).length ≤ 1 →
        t.overflowed = s.overflowed ∧ part.length ≤ t.buf.length ∧ (t.phase = .done → part = t.buf) ∧
        ∀ i, i < s.buf.length → t.buf[i]? = s.buf[i]?)) ∧
  (∀ s t : State, s.phase = .active → s.mode = .dec → exec .decFin s = .next t →
    t.params = s.params ∧ t.mode = s.mode ∧ t.inputs = s.inputs ∧ t.totalBytesRead = s.totalBytesRead ∧
    t.totalUnitsWritten = s.totalUnitsWritten ∧ t.acc = s.acc ∧ t.bitCount = s.bitCount ∧
    t.buf = s.buf ∧ t.overflowed = s.overflowed ∧
    (t.phase = .done ∧ t.fault = s.fault ∧ t.sinkOpen = false ∨
      t.phase = .fault ∧ t.fault = .sinkWriteFailure ∧ t.sinkOpen = s.sinkOpen ∧
        ∃ new, t.events = s.events ++ new ∧ .closed ∉ new) ∧
    ∃ part, t.sinkData = s.sinkData ++ part ∧ part.length ≤ s.buf.length ∧ (t.phase = .done → part = s.buf))

/-! ### Invariants of every step -/

/-- R29, R35, R36, R37, R123, R207: kept by every step from every state that has them. -/
def Obligations.StepKeepsDataPathInvariant : Prop :=
  ∀ s t : State, DataPathInv s → step s = .next t → DataPathInv t

/-- The reset state has the invariant of the data path. -/
def Obligations.ResetHasDataPathInvariant : Prop := DataPathInv State.reset

/-- R38, R39, R164 to R166: kept by every step from every state that has them, for every legal capacity. -/
def Obligations.StepKeepsBufferInvariant : Prop :=
  ∀ s t : State, s.params.wf → BufferInv s → step s = .next t → BufferInv t

/-- The reset state has the invariant of the buffer, and legal parameters. -/
def Obligations.ResetHasBufferInvariant : Prop := State.reset.params.wf ∧ BufferInv State.reset

/-- R72, R40, R163: the order of the sink's events, kept by every step. -/
def Obligations.StepKeepsSinkOrder : Prop :=
  ∀ s t : State, s.params.wf → SinkOrderInv s → step s = .next t → SinkOrderInv t

/-- The reset state has the invariant of the sink's events. -/
def Obligations.ResetHasSinkOrder : Prop := SinkOrderInv State.reset

/-! ### Whole-machine rules -/

/-- R23, R24, R216: which steps move the two counts. A step that resets, at a command boundary or inside a command,
starts anew (R230). -/
def Obligations.CountsMoveOnlyInEncodeSessions : Prop :=
  ∀ s t : State, step s = .next t →
    (s.startsAnew = true → t.totalBytesRead = 0 ∧ t.totalUnitsWritten = 0) ∧
    (s.startsAnew = false → s.putsIn .enc = false → t.totalBytesRead = s.totalBytesRead) ∧
    (s.startsAnew = false → s.putsIn .enc = true → t.totalBytesRead = s.totalBytesRead + 1 ∨
      t.totalBytesRead = s.totalBytesRead ∧ t.rsp = some .counterOverflow) ∧
    (s.startsAnew = false → s.putsIn .enc = false → s.finsIn .enc = false →
      t.totalUnitsWritten = s.totalUnitsWritten) ∧
    (s.startsAnew = false → s.totalUnitsWritten ≤ t.totalUnitsWritten)

/-- R27, R230: `mode` is written by OPEN and reset only. The parameters, which the model holds in State (its choice, log
4), are written by nothing: "Neither can change while the block runs" (R233 item 1, R10). -/
def Obligations.ModeMovesOnlyAtSessionStart : Prop :=
  ∀ s t : State, step s = .next t →
    t.params = s.params ∧ (s.startsAnew = false → t.mode = s.mode)

/-- R26, R164: `overflowed` is cleared by OPEN and reset only, and any other step leaves it 1 exactly when it was 1 or a
capacity flush has completed: a Write of exactly `C` elements answered ok that is not the drain of a FIN. In a FIN the
drain is the last Write, so a flush is one that another Write follows. -/
def Obligations.OverflowedMarksACapacityFlush : Prop :=
  ∀ s t : State, step s = .next t →
    (s.startsAnew = true → t.overflowed = false) ∧
    (s.startsAnew = false → (t.overflowed = true ↔ s.overflowed = true ∨
      ∃ before seq after, t.events = s.events ++ before ++ .wrote seq true :: after ∧
        seq.length = s.params.capacity ∧
        (s.finsIn .enc = false ∧ s.finsIn .dec = false ∨ ∃ seq' ok', .wrote seq' ok' ∈ after)))

/-- R29, R212: `phase` leaves FAULT, and `fault` changes once set, by OPEN or reset only. -/
def Obligations.FaultIsStickyUntilOpenOrReset : Prop :=
  ∀ s t : State, step s = .next t → s.phase = .fault → s.startsAnew = false →
    t.phase = .fault ∧ t.fault = s.fault

/-- R62, R70: the sink is append-only, and no event is taken back. R102: a step takes one answer of the sink for each
Open and Write it issues, in order, and no other; only reset leaves a question without its answer (R231). `answers` and
`freeCount` are the model's fields (log 5). -/
def Obligations.SinkIsAppendOnly : Prop :=
  ∀ s t : State, step s = .next t →
    (∃ new, t.events = s.events ++ new ∧
      t.answers = s.answers.drop (answersIn new).length ∧ t.freeCount = s.freeCount + questionsIn new ∧
      (∀ j ok, (answersIn new)[j]? = some ok → s.answerAt j = ok) ∧
      (answersIn new).length ≤ questionsIn new ∧ questionsIn new ≤ (answersIn new).length + 1 ∧
      (s.resets = false → questionsIn new = (answersIn new).length)) ∧
    (s.startsAnew = false → ∃ more, t.sinkData = s.sinkData ++ more)

/-- R68: a Write outside FIN is of exactly `C` elements; one of FIN is of 1 to `C`. So is one that reset cuts short, and
the sink keeps no more of it (93_implementation_defined.md U4). -/
def Obligations.WriteSizesAreCapacityOrRemainder : Prop :=
  ∀ (s t : State) (new : List SinkEvent) (e : SinkEvent) (seq : List Byte),
    s.params.wf → BufferInv s → step s = .next t → t.events = s.events ++ new → e ∈ new → e.payload = some seq →
    1 ≤ seq.length ∧ seq.length ≤ s.params.capacity ∧
    (s.finsIn .enc = false → s.finsIn .dec = false → seq.length = s.params.capacity) ∧
    (∀ kept, e = .writeCut seq kept → kept.length ≤ seq.length)

/-- R248: how many sink events one command can issue, from the number of its APPENDs; reset in the middle of it adds
none (R231). -/
def Obligations.WritesPerCommandAreBounded : Prop :=
  ∀ (s t : State) (new : List SinkEvent),
    s.params.wf → DataPathInv s → BufferInv s → step s = .next t → t.events = s.events ++ new →
    (s.putsIn .enc = true → new.length ≤ (2 + s.params.capacity - 1) / s.params.capacity) ∧
    (s.putsIn .dec = true → new.length ≤ 1) ∧
    (s.finsIn .enc = true → new.length ≤ (3 + s.params.capacity - 1) / s.params.capacity + 2) ∧
    (s.finsIn .dec = true → new.length ≤ 2)

/-- R79: from two states that differ in `C` and what follows from it, the same next command leads to two such states,
unless the sink fails one of them. -/
def Obligations.CapacityDoesNotChangeTheOutput : Prop :=
  ∀ s s' t t' : State, SameButCapacity s t → step s = .next s' → step t = .next t' →
    s'.rsp ≠ some .sinkWriteFailure → t'.rsp ≠ some .sinkWriteFailure →
    s'.rsp ≠ some .sinkOpenFailure → t'.rsp ≠ some .sinkOpenFailure →
    SameButCapacity s' t'

/-! ### Whole messages -/

/-- R126, R73: an encode session, from any state with no session active, for every message, capacity and sink. If it
reaches DONE the sink holds `enc` of the message; it reaches DONE when the count bears the message and the sink
answers ok. -/
def Obligations.EncodeSessionWritesTheEncoding : Prop :=
  ∀ (s : State) (msg : List Byte) (rest : List Input),
    s.params.wf → s.phase ≠ .active → s.inputs = (sessionWords .enc msg).map Input.cmd ++ rest →
    ∃ t, Sys2Proof.core.run (msg.length + 2) s = .next t ∧ t.inputs = rest ∧
      (t.phase = .done → t.sinkData = encMessage msg ∧ t.totalBytesRead = msg.length ∧
        t.totalUnitsWritten = encodedLength msg.length) ∧
      ((∀ n, s.params.maxN = some n → msg.length ≤ n) →
        (∀ j, j < encodedLength msg.length + 1 → s.answerAt j = true) → t.phase = .done)

/-- R148, R73: the same for a decode session of symbols none of which is BAD; the bits left over are those the fold
leaves. -/
def Obligations.DecodeSessionWritesTheDecoding : Prop :=
  ∀ (s : State) (syms : List Byte) (rest : List Input),
    s.params.wf → s.phase ≠ .active → s.inputs = (sessionWords .dec syms).map Input.cmd ++ rest →
    (∀ c, c ∈ syms → rev c ≠ .bad) →
    ∃ t, Sys2Proof.core.run (syms.length + 2) s = .next t ∧ t.inputs = rest ∧
      (t.phase = .done → t.sinkData = decMessage syms ∧
        t.bitCount.toNat = (decFold syms).1.length ∧ t.acc.toNat = ofBits (decFold syms).1) ∧
      ((∀ j, j < (decMessage syms).length + 1 → s.answerAt j = true) → t.phase = .done)

/-- R148: `dec(enc(b)) = b`, with no bit left over and no symbol outside the alphabet and the pad symbol. -/
def Obligations.DecodingInvertsEncoding : Prop :=
  ∀ msg : List Byte, decFold (encMessage msg) = ([], msg) ∧ ∀ c, c ∈ encMessage msg → rev c ≠ .bad

/-! ### What the host sees -/

/-- R100: `STATUS` field by field, bit 11 reading 0, with the numbers of `phase` (R28) and of `mode` (R27). -/
def Obligations.StatusWordHoldsItsFields : Prop :=
  (∀ s : State,
    s.status.extractLsb' 0 2 = s.phase.code ∧
    s.status.getLsbD 2 = s.mode.bit ∧
    s.status.getLsbD 3 = s.overflowed ∧
    s.status.getLsbD 4 = s.trailing ∧
    s.status.extractLsb' 5 3 = s.fault.code ∧
    s.status.extractLsb' 8 3 = s.bitCount ∧
    s.status.getLsbD 11 = false ∧
    s.status.extractLsb' 12 8 = s.acc) ∧
  Phase.idle.code = 0#2 ∧ Phase.active.code = 1#2 ∧ Phase.done.code = 2#2 ∧ Phase.fault.code = 3#2 ∧
  Mode.enc.bit = false ∧ Mode.dec.bit = true

/-- R100, R200: the response and fault codes are the register values, and 7 is never one. -/
def Obligations.FaultCodesAreTheSpecNumbers : Prop :=
  FaultCode.ok.code = 0#3 ∧ FaultCode.sinkOpenFailure.code = 1#3 ∧ FaultCode.sinkWriteFailure.code = 2#3 ∧
  FaultCode.invalidSymbol.code = 3#3 ∧ FaultCode.protocolError.code = 4#3 ∧ FaultCode.illegalCommand.code = 5#3 ∧
  FaultCode.counterOverflow.code = 6#3 ∧ ∀ x : FaultCode, x.code ≠ 7#3

/-- R76, R166: in DONE the result is the tail and `overflowed`; the tail is the whole output when `overflowed` is 0,
and otherwise a proper end of it. The tail port reads the elements in use, in every state and phase. -/
def Obligations.TailIsTheWholeOutputUnlessOverflowed : Prop :=
  (∀ s : State, BufferInv s → s.phase = .done →
    s.finalizedResult = some ⟨s.buf, s.overflowed⟩ ∧
    (s.overflowed = false → s.buf = s.sinkData) ∧
    (s.overflowed = true → s.buf <:+ s.sinkData ∧ s.buf.length < s.sinkData.length)) ∧
  (∀ (s : State) (i : Nat) (h : i < s.buf.length), s.tail i = s.buf[i])

/-- R101: a Write of `n` elements is `n` beats, `seq[0]` first, `last` on the final one only; Open and Close are one
beat each. -/
def Obligations.WriteBeatsCarryTheElementsInOrder : Prop :=
  (∀ (seq : List Byte) (ok : Bool), (SinkEvent.wrote seq ok).beats.length = seq.length ∧
    ∀ (j : Nat) (h : j < seq.length),
      (SinkEvent.wrote seq ok).beats[j]? = some (0b10#2 ++ BitVec.ofBool (decide (j + 1 = seq.length)) ++ seq[j])) ∧
  (∀ ok : Bool, (SinkEvent.opened ok).beats = [0b01100000000#11]) ∧
  SinkEvent.closed.beats = [0b11100000000#11]

/-- R100, R6: `LEN_W` is the least width that holds 0 to `C`, so the register LEN holds `len` whole; TBR and TUW are the
two counts, which stay below `2^CNT_W` (R207). -/
def Obligations.CountRegistersHoldTheirCountsWhole : Prop :=
  (∀ p : Params, p.wf → p.capacity < 2 ^ p.lenW ∧ 2 ^ (p.lenW - 1) ≤ p.capacity) ∧
  (∀ s : State, s.params.wf → BufferInv s → s.lenRegister.toNat = s.buf.length) ∧
  (∀ s : State, s.tbrRegister = s.totalBytesRead ∧ s.tuwRegister = s.totalUnitsWritten) ∧
  (∀ (s : State) (w : Nat), DataPathInv s → s.params.cntW = some w → s.tbrRegister < 2 ^ w ∧ s.tuwRegister < 2 ^ w)

/-- R99: every command is answered with one code: 0, or the number of the fault this command raised (it is then in
`fault`) or, in FAULT, met; only NOP answers 0 in FAULT. After reset no response is pending, that of a command which reset cut short
neither (R230, R231). -/
def Obligations.EveryCommandIsAnsweredWithOneCode : Prop :=
  (∀ (s t : State) (w : CmdWord) (rest : List Input), s.inputs = .cmd w :: rest → step s = .next t →
    ∃ c : BitVec 3, t.rspCode = some c ∧ c ≠ 7#3 ∧
      (c = 0#3 → w = 0x000#10 ∨ t.phase ≠ .fault) ∧
      (c ≠ 0#3 → t.phase = .fault ∧ (t.fault.code = c ∨ s.phase = .fault ∧ t.fault = s.fault))) ∧
  (∀ s t : State, s.resets = true → step s = .next t → t.rspCode = none)
end

