-- ==== Sys2Proof/Laws/State.lean ====
section
/-! SUPPORT. Every field after every update of the shared operations, so that no later proof unfolds one. -/

namespace Sys2Proof.Machine

/-! ### The question to the sink moves only the answers and their index. -/

@[simp] theorem State.takeAnswer_params (s : State) : s.takeAnswer.params = s.params := rfl
@[simp] theorem State.takeAnswer_acc (s : State) : s.takeAnswer.acc = s.acc := rfl
@[simp] theorem State.takeAnswer_bitCount (s : State) : s.takeAnswer.bitCount = s.bitCount := rfl
@[simp] theorem State.takeAnswer_totalBytesRead (s : State) : s.takeAnswer.totalBytesRead = s.totalBytesRead := rfl
@[simp] theorem State.takeAnswer_totalUnitsWritten (s : State) : s.takeAnswer.totalUnitsWritten = s.totalUnitsWritten := rfl
@[simp] theorem State.takeAnswer_buf (s : State) : s.takeAnswer.buf = s.buf := rfl
@[simp] theorem State.takeAnswer_overflowed (s : State) : s.takeAnswer.overflowed = s.overflowed := rfl
@[simp] theorem State.takeAnswer_mode (s : State) : s.takeAnswer.mode = s.mode := rfl
@[simp] theorem State.takeAnswer_phase (s : State) : s.takeAnswer.phase = s.phase := rfl
@[simp] theorem State.takeAnswer_fault (s : State) : s.takeAnswer.fault = s.fault := rfl
@[simp] theorem State.takeAnswer_rsp (s : State) : s.takeAnswer.rsp = s.rsp := rfl
@[simp] theorem State.takeAnswer_sinkOpen (s : State) : s.takeAnswer.sinkOpen = s.sinkOpen := rfl
@[simp] theorem State.takeAnswer_sinkData (s : State) : s.takeAnswer.sinkData = s.sinkData := rfl
@[simp] theorem State.takeAnswer_events (s : State) : s.takeAnswer.events = s.events := rfl
@[simp] theorem State.takeAnswer_inputs (s : State) : s.takeAnswer.inputs = s.inputs := rfl
@[simp] theorem State.takeAnswer_answers (s : State) : s.takeAnswer.answers = s.answers.tail := rfl
@[simp] theorem State.takeAnswer_freeCount (s : State) : s.takeAnswer.freeCount = s.freeCount + 1 := rfl

/-! ### Setting `overflowed` moves only that flag. -/

@[simp] theorem State.setOverflowed_params (s : State) : s.setOverflowed.params = s.params := rfl
@[simp] theorem State.setOverflowed_acc (s : State) : s.setOverflowed.acc = s.acc := rfl
@[simp] theorem State.setOverflowed_bitCount (s : State) : s.setOverflowed.bitCount = s.bitCount := rfl
@[simp] theorem State.setOverflowed_totalBytesRead (s : State) : s.setOverflowed.totalBytesRead = s.totalBytesRead := rfl
@[simp] theorem State.setOverflowed_totalUnitsWritten (s : State) : s.setOverflowed.totalUnitsWritten = s.totalUnitsWritten := rfl
@[simp] theorem State.setOverflowed_buf (s : State) : s.setOverflowed.buf = s.buf := rfl
@[simp] theorem State.setOverflowed_overflowed (s : State) : s.setOverflowed.overflowed = true := rfl
@[simp] theorem State.setOverflowed_mode (s : State) : s.setOverflowed.mode = s.mode := rfl
@[simp] theorem State.setOverflowed_phase (s : State) : s.setOverflowed.phase = s.phase := rfl
@[simp] theorem State.setOverflowed_fault (s : State) : s.setOverflowed.fault = s.fault := rfl
@[simp] theorem State.setOverflowed_rsp (s : State) : s.setOverflowed.rsp = s.rsp := rfl
@[simp] theorem State.setOverflowed_sinkOpen (s : State) : s.setOverflowed.sinkOpen = s.sinkOpen := rfl
@[simp] theorem State.setOverflowed_sinkData (s : State) : s.setOverflowed.sinkData = s.sinkData := rfl
@[simp] theorem State.setOverflowed_events (s : State) : s.setOverflowed.events = s.events := rfl
@[simp] theorem State.setOverflowed_inputs (s : State) : s.setOverflowed.inputs = s.inputs := rfl
@[simp] theorem State.setOverflowed_answers (s : State) : s.setOverflowed.answers = s.answers := rfl
@[simp] theorem State.setOverflowed_freeCount (s : State) : s.setOverflowed.freeCount = s.freeCount := rfl

/-! ### Clearing `overflowed` moves only that flag. -/

@[simp] theorem State.clearOverflowed_params (s : State) : s.clearOverflowed.params = s.params := rfl
@[simp] theorem State.clearOverflowed_acc (s : State) : s.clearOverflowed.acc = s.acc := rfl
@[simp] theorem State.clearOverflowed_bitCount (s : State) : s.clearOverflowed.bitCount = s.bitCount := rfl
@[simp] theorem State.clearOverflowed_totalBytesRead (s : State) : s.clearOverflowed.totalBytesRead = s.totalBytesRead := rfl
@[simp] theorem State.clearOverflowed_totalUnitsWritten (s : State) : s.clearOverflowed.totalUnitsWritten = s.totalUnitsWritten := rfl
@[simp] theorem State.clearOverflowed_buf (s : State) : s.clearOverflowed.buf = s.buf := rfl
@[simp] theorem State.clearOverflowed_overflowed (s : State) : s.clearOverflowed.overflowed = false := rfl
@[simp] theorem State.clearOverflowed_mode (s : State) : s.clearOverflowed.mode = s.mode := rfl
@[simp] theorem State.clearOverflowed_phase (s : State) : s.clearOverflowed.phase = s.phase := rfl
@[simp] theorem State.clearOverflowed_fault (s : State) : s.clearOverflowed.fault = s.fault := rfl
@[simp] theorem State.clearOverflowed_rsp (s : State) : s.clearOverflowed.rsp = s.rsp := rfl
@[simp] theorem State.clearOverflowed_sinkOpen (s : State) : s.clearOverflowed.sinkOpen = s.sinkOpen := rfl
@[simp] theorem State.clearOverflowed_sinkData (s : State) : s.clearOverflowed.sinkData = s.sinkData := rfl
@[simp] theorem State.clearOverflowed_events (s : State) : s.clearOverflowed.events = s.events := rfl
@[simp] theorem State.clearOverflowed_inputs (s : State) : s.clearOverflowed.inputs = s.inputs := rfl
@[simp] theorem State.clearOverflowed_answers (s : State) : s.clearOverflowed.answers = s.answers := rfl
@[simp] theorem State.clearOverflowed_freeCount (s : State) : s.clearOverflowed.freeCount = s.freeCount := rfl

/-! ### Fault entry (60_exceptions.md R210). -/

@[simp] theorem raise_params (x : FaultCode) (s : State) : (raise x s).params = s.params := rfl
@[simp] theorem raise_acc (x : FaultCode) (s : State) : (raise x s).acc = s.acc := rfl
@[simp] theorem raise_bitCount (x : FaultCode) (s : State) : (raise x s).bitCount = s.bitCount := rfl
@[simp] theorem raise_totalBytesRead (x : FaultCode) (s : State) : (raise x s).totalBytesRead = s.totalBytesRead := rfl
@[simp] theorem raise_totalUnitsWritten (x : FaultCode) (s : State) : (raise x s).totalUnitsWritten = s.totalUnitsWritten := rfl
@[simp] theorem raise_buf (x : FaultCode) (s : State) : (raise x s).buf = s.buf := rfl
@[simp] theorem raise_overflowed (x : FaultCode) (s : State) : (raise x s).overflowed = s.overflowed := rfl
@[simp] theorem raise_mode (x : FaultCode) (s : State) : (raise x s).mode = s.mode := rfl
@[simp] theorem raise_phase (x : FaultCode) (s : State) : (raise x s).phase = .fault := rfl
@[simp] theorem raise_fault (x : FaultCode) (s : State) : (raise x s).fault = if s.phase = .fault then s.fault else x := rfl
@[simp] theorem raise_rsp (x : FaultCode) (s : State) : (raise x s).rsp = some x := rfl
@[simp] theorem raise_sinkOpen (x : FaultCode) (s : State) : (raise x s).sinkOpen = s.sinkOpen := rfl
@[simp] theorem raise_sinkData (x : FaultCode) (s : State) : (raise x s).sinkData = s.sinkData := rfl
@[simp] theorem raise_events (x : FaultCode) (s : State) : (raise x s).events = s.events := rfl
@[simp] theorem raise_inputs (x : FaultCode) (s : State) : (raise x s).inputs = s.inputs := rfl
@[simp] theorem raise_answers (x : FaultCode) (s : State) : (raise x s).answers = s.answers := rfl
@[simp] theorem raise_freeCount (x : FaultCode) (s : State) : (raise x s).freeCount = s.freeCount := rfl

/-! ### A Write moves only the sink (20_memory.md R62). -/

@[simp] theorem sinkWrite_params (seq : List Byte) (s : State) : (sinkWrite seq s).params = s.params := rfl
@[simp] theorem sinkWrite_acc (seq : List Byte) (s : State) : (sinkWrite seq s).acc = s.acc := rfl
@[simp] theorem sinkWrite_bitCount (seq : List Byte) (s : State) : (sinkWrite seq s).bitCount = s.bitCount := rfl
@[simp] theorem sinkWrite_totalBytesRead (seq : List Byte) (s : State) : (sinkWrite seq s).totalBytesRead = s.totalBytesRead := rfl
@[simp] theorem sinkWrite_totalUnitsWritten (seq : List Byte) (s : State) : (sinkWrite seq s).totalUnitsWritten = s.totalUnitsWritten := rfl
@[simp] theorem sinkWrite_buf (seq : List Byte) (s : State) : (sinkWrite seq s).buf = s.buf := rfl
@[simp] theorem sinkWrite_overflowed (seq : List Byte) (s : State) : (sinkWrite seq s).overflowed = s.overflowed := rfl
@[simp] theorem sinkWrite_mode (seq : List Byte) (s : State) : (sinkWrite seq s).mode = s.mode := rfl
@[simp] theorem sinkWrite_phase (seq : List Byte) (s : State) : (sinkWrite seq s).phase = s.phase := rfl
@[simp] theorem sinkWrite_fault (seq : List Byte) (s : State) : (sinkWrite seq s).fault = s.fault := rfl
@[simp] theorem sinkWrite_rsp (seq : List Byte) (s : State) : (sinkWrite seq s).rsp = s.rsp := rfl
@[simp] theorem sinkWrite_sinkOpen (seq : List Byte) (s : State) : (sinkWrite seq s).sinkOpen = s.sinkOpen := rfl
@[simp] theorem sinkWrite_sinkData (seq : List Byte) (s : State) : (sinkWrite seq s).sinkData = s.sinkData ++ landed s.freeCount seq s.nextAnswer := rfl
@[simp] theorem sinkWrite_events (seq : List Byte) (s : State) : (sinkWrite seq s).events = s.events ++ [.wrote seq s.nextAnswer] := rfl
@[simp] theorem sinkWrite_inputs (seq : List Byte) (s : State) : (sinkWrite seq s).inputs = s.inputs := rfl
@[simp] theorem sinkWrite_answers (seq : List Byte) (s : State) : (sinkWrite seq s).answers = s.answers.tail := rfl
@[simp] theorem sinkWrite_freeCount (seq : List Byte) (s : State) : (sinkWrite seq s).freeCount = s.freeCount + 1 := rfl

/-! ### An Open moves only the sink (20_memory.md R62). -/

@[simp] theorem sinkOpenEvent_params (s : State) : (sinkOpenEvent s).params = s.params := rfl
@[simp] theorem sinkOpenEvent_acc (s : State) : (sinkOpenEvent s).acc = s.acc := rfl
@[simp] theorem sinkOpenEvent_bitCount (s : State) : (sinkOpenEvent s).bitCount = s.bitCount := rfl
@[simp] theorem sinkOpenEvent_totalBytesRead (s : State) : (sinkOpenEvent s).totalBytesRead = s.totalBytesRead := rfl
@[simp] theorem sinkOpenEvent_totalUnitsWritten (s : State) : (sinkOpenEvent s).totalUnitsWritten = s.totalUnitsWritten := rfl
@[simp] theorem sinkOpenEvent_buf (s : State) : (sinkOpenEvent s).buf = s.buf := rfl
@[simp] theorem sinkOpenEvent_overflowed (s : State) : (sinkOpenEvent s).overflowed = s.overflowed := rfl
@[simp] theorem sinkOpenEvent_mode (s : State) : (sinkOpenEvent s).mode = s.mode := rfl
@[simp] theorem sinkOpenEvent_phase (s : State) : (sinkOpenEvent s).phase = s.phase := rfl
@[simp] theorem sinkOpenEvent_fault (s : State) : (sinkOpenEvent s).fault = s.fault := rfl
@[simp] theorem sinkOpenEvent_rsp (s : State) : (sinkOpenEvent s).rsp = s.rsp := rfl
@[simp] theorem sinkOpenEvent_sinkOpen (s : State) : (sinkOpenEvent s).sinkOpen = s.nextAnswer := rfl
@[simp] theorem sinkOpenEvent_sinkData (s : State) : (sinkOpenEvent s).sinkData = [] := rfl
@[simp] theorem sinkOpenEvent_events (s : State) : (sinkOpenEvent s).events = s.events ++ [.opened s.nextAnswer] := rfl
@[simp] theorem sinkOpenEvent_inputs (s : State) : (sinkOpenEvent s).inputs = s.inputs := rfl
@[simp] theorem sinkOpenEvent_answers (s : State) : (sinkOpenEvent s).answers = s.answers.tail := rfl
@[simp] theorem sinkOpenEvent_freeCount (s : State) : (sinkOpenEvent s).freeCount = s.freeCount + 1 := rfl

/-! ### A Close moves only the sink (42_buffer_flush.md R163). -/

@[simp] theorem close_params (s : State) : (close s).params = s.params := rfl
@[simp] theorem close_acc (s : State) : (close s).acc = s.acc := rfl
@[simp] theorem close_bitCount (s : State) : (close s).bitCount = s.bitCount := rfl
@[simp] theorem close_totalBytesRead (s : State) : (close s).totalBytesRead = s.totalBytesRead := rfl
@[simp] theorem close_totalUnitsWritten (s : State) : (close s).totalUnitsWritten = s.totalUnitsWritten := rfl
@[simp] theorem close_buf (s : State) : (close s).buf = s.buf := rfl
@[simp] theorem close_overflowed (s : State) : (close s).overflowed = s.overflowed := rfl
@[simp] theorem close_mode (s : State) : (close s).mode = s.mode := rfl
@[simp] theorem close_phase (s : State) : (close s).phase = s.phase := rfl
@[simp] theorem close_fault (s : State) : (close s).fault = s.fault := rfl
@[simp] theorem close_rsp (s : State) : (close s).rsp = s.rsp := rfl
@[simp] theorem close_sinkOpen (s : State) : (close s).sinkOpen = false := rfl
@[simp] theorem close_sinkData (s : State) : (close s).sinkData = s.sinkData := rfl
@[simp] theorem close_events (s : State) : (close s).events = s.events ++ [.closed] := rfl
@[simp] theorem close_inputs (s : State) : (close s).inputs = s.inputs := rfl
@[simp] theorem close_answers (s : State) : (close s).answers = s.answers := rfl
@[simp] theorem close_freeCount (s : State) : (close s).freeCount = s.freeCount := rfl

/-! ### The start values of a session (10_state.md R42). -/

@[simp] theorem startValues_params (m : Mode) (s : State) : (startValues m s).params = s.params := rfl
@[simp] theorem startValues_acc (m : Mode) (s : State) : (startValues m s).acc = 0#8 := rfl
@[simp] theorem startValues_bitCount (m : Mode) (s : State) : (startValues m s).bitCount = 0#3 := rfl
@[simp] theorem startValues_totalBytesRead (m : Mode) (s : State) : (startValues m s).totalBytesRead = 0 := rfl
@[simp] theorem startValues_totalUnitsWritten (m : Mode) (s : State) : (startValues m s).totalUnitsWritten = 0 := rfl
@[simp] theorem startValues_buf (m : Mode) (s : State) : (startValues m s).buf = [] := rfl
@[simp] theorem startValues_overflowed (m : Mode) (s : State) : (startValues m s).overflowed = false := rfl
@[simp] theorem startValues_mode (m : Mode) (s : State) : (startValues m s).mode = m := rfl
@[simp] theorem startValues_phase (m : Mode) (s : State) : (startValues m s).phase = s.phase := rfl
@[simp] theorem startValues_fault (m : Mode) (s : State) : (startValues m s).fault = .ok := rfl
@[simp] theorem startValues_rsp (m : Mode) (s : State) : (startValues m s).rsp = s.rsp := rfl
@[simp] theorem startValues_sinkOpen (m : Mode) (s : State) : (startValues m s).sinkOpen = s.sinkOpen := rfl
@[simp] theorem startValues_sinkData (m : Mode) (s : State) : (startValues m s).sinkData = s.sinkData := rfl
@[simp] theorem startValues_events (m : Mode) (s : State) : (startValues m s).events = s.events := rfl
@[simp] theorem startValues_inputs (m : Mode) (s : State) : (startValues m s).inputs = s.inputs := rfl
@[simp] theorem startValues_answers (m : Mode) (s : State) : (startValues m s).answers = s.answers := rfl
@[simp] theorem startValues_freeCount (m : Mode) (s : State) : (startValues m s).freeCount = s.freeCount := rfl

/-! ### OPEN (43_session_control.md R182). -/

@[simp] theorem openSession_params (m : Mode) (s : State) : (openSession m s).params = s.params := rfl
@[simp] theorem openSession_acc (m : Mode) (s : State) : (openSession m s).acc = 0#8 := rfl
@[simp] theorem openSession_bitCount (m : Mode) (s : State) : (openSession m s).bitCount = 0#3 := rfl
@[simp] theorem openSession_totalBytesRead (m : Mode) (s : State) : (openSession m s).totalBytesRead = 0 := rfl
@[simp] theorem openSession_totalUnitsWritten (m : Mode) (s : State) : (openSession m s).totalUnitsWritten = 0 := rfl
@[simp] theorem openSession_buf (m : Mode) (s : State) : (openSession m s).buf = [] := rfl
@[simp] theorem openSession_overflowed (m : Mode) (s : State) : (openSession m s).overflowed = false := rfl
@[simp] theorem openSession_mode (m : Mode) (s : State) : (openSession m s).mode = m := rfl
@[simp] theorem openSession_phase (m : Mode) (s : State) : (openSession m s).phase = if s.nextAnswer then .active else .fault := rfl
@[simp] theorem openSession_fault (m : Mode) (s : State) : (openSession m s).fault = if s.nextAnswer then .ok else .sinkOpenFailure := rfl
@[simp] theorem openSession_rsp (m : Mode) (s : State) : (openSession m s).rsp = some (if s.nextAnswer then .ok else .sinkOpenFailure) := rfl
@[simp] theorem openSession_sinkOpen (m : Mode) (s : State) : (openSession m s).sinkOpen = s.nextAnswer := rfl
@[simp] theorem openSession_sinkData (m : Mode) (s : State) : (openSession m s).sinkData = [] := rfl
@[simp] theorem openSession_events (m : Mode) (s : State) : (openSession m s).events = s.events ++ [.opened s.nextAnswer] := rfl
@[simp] theorem openSession_inputs (m : Mode) (s : State) : (openSession m s).inputs = s.inputs := rfl
@[simp] theorem openSession_answers (m : Mode) (s : State) : (openSession m s).answers = s.answers.tail := rfl
@[simp] theorem openSession_freeCount (m : Mode) (s : State) : (openSession m s).freeCount = s.freeCount + 1 := rfl

/-! ### Reset (70_reset_and_hazards.md R230). -/

@[simp] theorem hardReset_params (s : State) : (hardReset s).params = s.params := rfl
@[simp] theorem hardReset_acc (s : State) : (hardReset s).acc = 0#8 := rfl
@[simp] theorem hardReset_bitCount (s : State) : (hardReset s).bitCount = 0#3 := rfl
@[simp] theorem hardReset_totalBytesRead (s : State) : (hardReset s).totalBytesRead = 0 := rfl
@[simp] theorem hardReset_totalUnitsWritten (s : State) : (hardReset s).totalUnitsWritten = 0 := rfl
@[simp] theorem hardReset_buf (s : State) : (hardReset s).buf = [] := rfl
@[simp] theorem hardReset_overflowed (s : State) : (hardReset s).overflowed = false := rfl
@[simp] theorem hardReset_mode (s : State) : (hardReset s).mode = .enc := rfl
@[simp] theorem hardReset_phase (s : State) : (hardReset s).phase = .idle := rfl
@[simp] theorem hardReset_fault (s : State) : (hardReset s).fault = .ok := rfl
@[simp] theorem hardReset_rsp (s : State) : (hardReset s).rsp = none := rfl
@[simp] theorem hardReset_sinkOpen (s : State) : (hardReset s).sinkOpen = false := rfl
@[simp] theorem hardReset_sinkData (s : State) : (hardReset s).sinkData = [] := rfl
@[simp] theorem hardReset_events (s : State) : (hardReset s).events = s.events := rfl
@[simp] theorem hardReset_inputs (s : State) : (hardReset s).inputs = s.inputs := rfl
@[simp] theorem hardReset_answers (s : State) : (hardReset s).answers = s.answers := rfl
@[simp] theorem hardReset_freeCount (s : State) : (hardReset s).freeCount = s.freeCount := rfl

/-! ### Reset in the middle of a command (70_reset_and_hazards.md R231). -/

@[simp] theorem resetInside_params (p : ResetPoint) (s t : State) : (resetInside p s t).params = s.params := rfl
@[simp] theorem resetInside_acc (p : ResetPoint) (s t : State) : (resetInside p s t).acc = 0#8 := rfl
@[simp] theorem resetInside_bitCount (p : ResetPoint) (s t : State) : (resetInside p s t).bitCount = 0#3 := rfl
@[simp] theorem resetInside_totalBytesRead (p : ResetPoint) (s t : State) : (resetInside p s t).totalBytesRead = 0 := rfl
@[simp] theorem resetInside_totalUnitsWritten (p : ResetPoint) (s t : State) : (resetInside p s t).totalUnitsWritten = 0 := rfl
@[simp] theorem resetInside_buf (p : ResetPoint) (s t : State) : (resetInside p s t).buf = [] := rfl
@[simp] theorem resetInside_overflowed (p : ResetPoint) (s t : State) : (resetInside p s t).overflowed = false := rfl
@[simp] theorem resetInside_mode (p : ResetPoint) (s t : State) : (resetInside p s t).mode = .enc := rfl
@[simp] theorem resetInside_phase (p : ResetPoint) (s t : State) : (resetInside p s t).phase = .idle := rfl
@[simp] theorem resetInside_fault (p : ResetPoint) (s t : State) : (resetInside p s t).fault = .ok := rfl
@[simp] theorem resetInside_rsp (p : ResetPoint) (s t : State) : (resetInside p s t).rsp = none := rfl
@[simp] theorem resetInside_sinkOpen (p : ResetPoint) (s t : State) : (resetInside p s t).sinkOpen = false := rfl
@[simp] theorem resetInside_sinkData (p : ResetPoint) (s t : State) : (resetInside p s t).sinkData = [] := rfl
@[simp] theorem resetInside_inputs (p : ResetPoint) (s t : State) : (resetInside p s t).inputs = t.inputs := rfl
@[simp] theorem resetInside_events (p : ResetPoint) (s t : State) : (resetInside p s t).events =
    s.events ++ eventsBeforeReset p s.freeCount (t.events.drop s.events.length) := rfl
@[simp] theorem resetInside_answers (p : ResetPoint) (s t : State) : (resetInside p s t).answers =
    s.answers.drop (answersIn (eventsBeforeReset p s.freeCount (t.events.drop s.events.length))).length := rfl
@[simp] theorem resetInside_freeCount (p : ResetPoint) (s t : State) : (resetInside p s t).freeCount =
    s.freeCount + questionsIn (eventsBeforeReset p s.freeCount (t.events.drop s.events.length)) := rfl

/-! ### Giving a command moves only the inputs. -/

@[simp] theorem State.pushCommand_params (w : CmdWord) (s : State) : (State.pushCommand w s).params = s.params := rfl
@[simp] theorem State.pushCommand_acc (w : CmdWord) (s : State) : (State.pushCommand w s).acc = s.acc := rfl
@[simp] theorem State.pushCommand_bitCount (w : CmdWord) (s : State) : (State.pushCommand w s).bitCount = s.bitCount := rfl
@[simp] theorem State.pushCommand_totalBytesRead (w : CmdWord) (s : State) : (State.pushCommand w s).totalBytesRead = s.totalBytesRead := rfl
@[simp] theorem State.pushCommand_totalUnitsWritten (w : CmdWord) (s : State) : (State.pushCommand w s).totalUnitsWritten = s.totalUnitsWritten := rfl
@[simp] theorem State.pushCommand_buf (w : CmdWord) (s : State) : (State.pushCommand w s).buf = s.buf := rfl
@[simp] theorem State.pushCommand_overflowed (w : CmdWord) (s : State) : (State.pushCommand w s).overflowed = s.overflowed := rfl
@[simp] theorem State.pushCommand_mode (w : CmdWord) (s : State) : (State.pushCommand w s).mode = s.mode := rfl
@[simp] theorem State.pushCommand_phase (w : CmdWord) (s : State) : (State.pushCommand w s).phase = s.phase := rfl
@[simp] theorem State.pushCommand_fault (w : CmdWord) (s : State) : (State.pushCommand w s).fault = s.fault := rfl
@[simp] theorem State.pushCommand_rsp (w : CmdWord) (s : State) : (State.pushCommand w s).rsp = s.rsp := rfl
@[simp] theorem State.pushCommand_sinkOpen (w : CmdWord) (s : State) : (State.pushCommand w s).sinkOpen = s.sinkOpen := rfl
@[simp] theorem State.pushCommand_sinkData (w : CmdWord) (s : State) : (State.pushCommand w s).sinkData = s.sinkData := rfl
@[simp] theorem State.pushCommand_events (w : CmdWord) (s : State) : (State.pushCommand w s).events = s.events := rfl
@[simp] theorem State.pushCommand_inputs (w : CmdWord) (s : State) : (State.pushCommand w s).inputs = .cmd w :: s.inputs := rfl
@[simp] theorem State.pushCommand_answers (w : CmdWord) (s : State) : (State.pushCommand w s).answers = s.answers := rfl
@[simp] theorem State.pushCommand_freeCount (w : CmdWord) (s : State) : (State.pushCommand w s).freeCount = s.freeCount := rfl

/-- The answer the sink gives next does not depend on the start values. -/
@[simp] theorem nextAnswer_startValues (m : Mode) (s : State) : (startValues m s).nextAnswer = s.nextAnswer := rfl

@[simp] theorem withFetchWord_eq (s : State) (n w : Nat) :
    s.withFetchWord n w = s.pushCommand (BitVec.ofNat 10 w) := rfl

end Sys2Proof.Machine
end

