-- ==== Sys2Proof/Laws/Ops.lean ====
section
/-! SUPPORT. What each shared operation can do, said once: the sink's answers, runs, APPEND, DRAIN and the checks of
dispatch. -/

namespace Sys2Proof.Machine

/-! ### The sink's answers -/

@[simp] theorem answerAt_zero (s : State) : s.answerAt 0 = s.nextAnswer := by
  cases h : s.answers <;> simp [State.answerAt, State.nextAnswer, h]

/-- The answers seen after `k` questions are those from the `k`-th on. -/
theorem answerAt_shift {s t : State} {k : Nat} (ha : t.answers = s.answers.drop k)
    (hf : t.freeCount = s.freeCount + k) (j : Nat) : t.answerAt j = s.answerAt (k + j) := by
  simp [State.answerAt, ha, hf, List.getElem?_drop, Nat.add_assoc]

theorem nextAnswer_congr {s t : State} (ha : t.answers = s.answers) (hf : t.freeCount = s.freeCount) :
    t.nextAnswer = s.nextAnswer := by
  simp [State.nextAnswer, ha, hf]

@[simp] theorem landed_true (n : Nat) (seq : List Byte) : landed n seq true = seq := rfl

@[simp] theorem landed_false (n : Nat) (seq : List Byte) :
    landed n seq false = (Config.landed n seq).take seq.length := rfl

theorem length_landed_le (n : Nat) (seq : List Byte) (ok : Bool) : (landed n seq ok).length ≤ seq.length := by
  cases ok <;> simp [List.length_take]

/-! ### Runs -/

@[simp] theorem andThen_ok (s : State) (f : State → Run) : (Run.ok s).andThen f = f s := rfl

@[simp] theorem andThen_raised (s : State) (f : State → Run) : (Run.raised s).andThen f = .raised s := rfl

theorem andThen_assoc (r : Run) (f g : State → Run) :
    (r.andThen f).andThen g = r.andThen fun s => (f s).andThen g := by
  cases r <;> rfl

@[simp] theorem forBits_nil (body : Bool → State → Run) (s : State) : forBits body [] s = .ok s := rfl

@[simp] theorem forBits_cons (body : Bool → State → Run) (b : Bool) (bs : List Bool) (s : State) :
    forBits body (b :: bs) s = (body b s).andThen (forBits body bs) := rfl

theorem forBits_append (body : Bool → State → Run) (xs ys : List Bool) (s : State) :
    forBits body (xs ++ ys) s = (forBits body xs s).andThen (forBits body ys) := by
  induction xs generalizing s with
  | nil => rfl
  | cons x xs ih =>
    show (body x s).andThen (forBits body (xs ++ ys)) = ((body x s).andThen (forBits body xs)).andThen (forBits body ys)
    rw [andThen_assoc]
    cases body x s with
    | ok t => exact ih t
    | raised t => rfl

/-- A run goes on from a state with `P`, or a raise has ended it in a state with `Q`. -/
def Run.Ends (P Q : State → Prop) : Run → Prop
  | .ok t => P t
  | .raised t => Q t

@[simp] theorem ends_ok (P Q : State → Prop) (t : State) : (Run.ok t).Ends P Q = P t := rfl

@[simp] theorem ends_raised (P Q : State → Prop) (t : State) : (Run.raised t).Ends P Q = Q t := rfl

theorem Run.Ends.andThen {P P' Q : State → Prop} {r : Run} {f : State → Run} (h : r.Ends P Q)
    (hf : ∀ t, P t → (f t).Ends P' Q) : (r.andThen f).Ends P' Q := by
  cases r with
  | ok t => exact hf t h
  | raised t => exact h

theorem Run.Ends.mono {P P' Q Q' : State → Prop} {r : Run} (h : r.Ends P Q) (hp : ∀ t, P t → P' t)
    (hq : ∀ t, Q t → Q' t) : r.Ends P' Q' := by
  cases r with
  | ok t => exact hp t h
  | raised t => exact hq t h

/-- What every turn of a loop keeps, the loop keeps. -/
theorem forBits_ends {P Q : State → Prop} {body : Bool → State → Run}
    (h : ∀ b t, P t → (body b t).Ends P Q) (bs : List Bool) {s : State} (hs : P s) :
    (forBits body bs s).Ends P Q := by
  induction bs generalizing s with
  | nil => exact hs
  | cons b bs ih => exact (h b s hs).andThen fun t ht => ih ht

/-- The end of a command, from what its run ends in. -/
theorem Run.Ends.finish {P Q R : State → Prop} {r : Run} (h : r.Ends P Q)
    (hp : ∀ t, P t → R { t with rsp := some .ok }) (hq : ∀ t, Q t → R t) : R r.finish := by
  cases r with
  | ok t => exact hp t h
  | raised t => exact hq t h

/-! ### APPEND and DRAIN -/

/-- What a failed Write of the buffer leaves (42_buffer_flush.md R161, R162; 60_exceptions.md R211). -/
def writeFailed (s : State) : State := raise .sinkWriteFailure (sinkWrite s.buf s)

/-- APPEND, whole (42_buffer_flush.md R160, R161): a full buffer whose Write is answered fail ends the command, and
every other case stores. -/
theorem append_eq (x : Byte) (s : State) :
    append x s = if s.buf.length = s.params.capacity ∧ s.nextAnswer = false
      then .raised (writeFailed s) else .ok (stored s x) := by
  by_cases hfull : s.buf.length = s.params.capacity
  · by_cases ha : s.nextAnswer = true
    · simp [append, flush, stored, hfull, ha, sinkWrite, State.takeAnswer, State.setOverflowed]
    · simp [append, flush, hfull, ha, writeFailed]
  · simp [append, stored, hfull]

theorem append_ends {P Q : State → Prop} {x : Byte} {s : State} (hp : P (stored s x))
    (hq : s.buf.length = s.params.capacity → s.nextAnswer = false → Q (writeFailed s)) :
    (append x s).Ends P Q := by
  rw [append_eq]
  split
  · next h => exact hq h.1 h.2
  · exact hp

/-- DRAIN, whole (42_buffer_flush.md R162). -/
theorem drain_eq (s : State) :
    drain s = if s.buf = [] then .ok s
      else if s.nextAnswer then .ok (sinkWrite s.buf s) else .raised (writeFailed s) := rfl

/-! ### APPEND where no Write fails -/

@[simp] theorem stored_params (s : State) (x : Byte) : (stored s x).params = s.params := by
  unfold stored; split <;> rfl

@[simp] theorem stored_acc (s : State) (x : Byte) : (stored s x).acc = s.acc := by
  unfold stored; split <;> rfl

@[simp] theorem stored_bitCount (s : State) (x : Byte) : (stored s x).bitCount = s.bitCount := by
  unfold stored; split <;> rfl

@[simp] theorem stored_totalBytesRead (s : State) (x : Byte) :
    (stored s x).totalBytesRead = s.totalBytesRead := by
  unfold stored; split <;> rfl

@[simp] theorem stored_totalUnitsWritten (s : State) (x : Byte) :
    (stored s x).totalUnitsWritten = s.totalUnitsWritten := by
  unfold stored; split <;> rfl

@[simp] theorem stored_mode (s : State) (x : Byte) : (stored s x).mode = s.mode := by
  unfold stored; split <;> rfl

@[simp] theorem stored_phase (s : State) (x : Byte) : (stored s x).phase = s.phase := by
  unfold stored; split <;> rfl

@[simp] theorem stored_fault (s : State) (x : Byte) : (stored s x).fault = s.fault := by
  unfold stored; split <;> rfl

@[simp] theorem stored_rsp (s : State) (x : Byte) : (stored s x).rsp = s.rsp := by
  unfold stored; split <;> rfl

@[simp] theorem stored_sinkOpen (s : State) (x : Byte) : (stored s x).sinkOpen = s.sinkOpen := by
  unfold stored; split <;> rfl

@[simp] theorem stored_inputs (s : State) (x : Byte) : (stored s x).inputs = s.inputs := by
  unfold stored; split <;> rfl

/-- The logical output grows by the element, wherever the boundary between sink and buffer falls (10_state.md R39). -/
theorem stored_output (s : State) (x : Byte) :
    (stored s x).sinkData ++ (stored s x).buf = s.sinkData ++ s.buf ++ [x] := by
  unfold stored; split <;> simp

/-- APPEND keeps the canonical form of the buffer (10_state.md R38), for every legal capacity. -/
theorem stored_wf {s : State} (x : Byte) (hc : 1 ≤ s.params.capacity) (h : Memory.wf s.params.capacity s.buf) :
    Memory.wf (stored s x).params.capacity (stored s x).buf := by
  unfold stored
  split
  · simpa using hc
  · next hne => simp at *; omega

/-- The buffer after APPEND is not empty (42_buffer_flush.md R160). -/
theorem stored_buf_ne_nil (s : State) (x : Byte) : (stored s x).buf ≠ [] := by
  unfold stored; split <;> simp

/-! ### The checks of dispatch -/

theorem inSession_inactive {selected : Bool} {body : State → Run} {s : State} (h : s.phase ≠ .active) :
    inSession selected body s = .next (raise .protocolError s) := by
  simp [inSession, h]

theorem inSession_active {body : State → Run} {s : State} (h : s.phase = .active) :
    inSession true body s = .next (body s).finish := by
  simp [inSession, h]

/-- A PUT or FIN instruction that answers a next state was out of phase, or its pseudocode ran. -/
theorem inSession_cases {selected : Bool} {body : State → Run} {s t : State}
    (h : inSession selected body s = .next t) :
    (s.phase ≠ .active ∧ t = raise .protocolError s) ∨
      (s.phase = .active ∧ selected = true ∧ t = (body s).finish) := by
  unfold inSession at h
  split at h
  · next hp => exact .inl ⟨hp, by simpa using h.symm⟩
  · next hp =>
    split at h
    · next hsel => exact .inr ⟨by simpa using hp, hsel, by simpa using h.symm⟩
    · simp at h

theorem outsideSession_active {body : State → State} {s : State} (h : s.phase = .active) :
    outsideSession body s = .next (raise .protocolError s) := by
  simp [outsideSession, h]

theorem outsideSession_inactive {body : State → State} {s : State} (h : s.phase ≠ .active) :
    outsideSession body s = .next (body s) := by
  simp [outsideSession, h]

end Sys2Proof.Machine
end

