-- ==== Sys2Proof/Laws/Bits.lean ====
section
/-! SUPPORT. Bits entering the accumulator: shifting in, one bit at a time and a list at a time, and the two loops of
ENC.PUT and DEC.SYM on a list of bits that does not fill a group and on one that fills it exactly. -/

namespace Sys2Proof.Machine

/-! ### Shifting in -/

theorem getLsbD_shiftIn (a : BitVec 8) (b : Bool) (i : Nat) :
    (shiftIn a b).getLsbD i = (decide (i < 8) && if i = 0 then b else a.getLsbD (i - 1)) := by
  rcases i with _ | i
  · simp [shiftIn]
  · simp [shiftIn, BitVec.getLsbD_shiftLeft]

theorem toNat_shiftIn {a : BitVec 8} (b : Bool) (h : a.toNat < 128) :
    (shiftIn a b).toNat = 2 * a.toNat + b.toNat := by
  have hb : b.toNat < 2 := Bool.toNat_lt b
  rw [shiftIn, BitVec.toNat_or, BitVec.toNat_shiftLeft, BitVec.toNat_setWidth, BitVec.toNat_ofBool,
    Nat.shiftLeft_eq, Nat.mod_eq_of_lt (by omega : a.toNat * 2 ^ 1 < 2 ^ 8), Nat.mod_eq_of_lt (by omega : b.toNat < 2 ^ 8)]
  have := Nat.two_pow_add_eq_or_of_lt (i := 1) (b := b.toNat) (by omega) a.toNat
  rw [Nat.mul_comm a.toNat]
  omega

theorem ofBits_append (xs ys : List Bool) : ofBits (xs ++ ys) = ofBits xs * 2 ^ ys.length + ofBits ys := by
  have key : ∀ (bs : List Bool) (n : Nat),
      bs.foldl (fun n b => 2 * n + b.toNat) n = n * 2 ^ bs.length + ofBits bs := by
    intro bs
    induction bs with
    | nil => intro n; simp [ofBits]
    | cons b bs ih =>
      intro n
      have h0 := ih b.toNat
      have h1 := ih (2 * n + b.toNat)
      have h2 : ofBits (b :: bs) = bs.foldl (fun n b => 2 * n + b.toNat) b.toNat := by simp [ofBits]
      rw [List.foldl_cons, h1, h2, h0, List.length_cons, Nat.pow_succ]
      ring
  rw [ofBits, List.foldl_append, key]
  rfl

theorem ofBits_lt (bs : List Bool) : ofBits bs < 2 ^ bs.length := by
  induction bs using List.reverseRecOn with
  | nil => simp [ofBits]
  | append_singleton bs b ih =>
    have hb : b.toNat < 2 := Bool.toNat_lt b
    have h1 : ofBits [b] = b.toNat := by simp [ofBits]
    rw [ofBits_append, h1, List.length_append, List.length_singleton, Nat.pow_add]
    omega

/-- Bits shifted into an accumulator with room for them (10_state.md R35: nothing is lost). -/
theorem toNat_foldl_shiftIn {bs : List Bool} {a : BitVec 8} {k : Nat} (ha : a.toNat < 2 ^ k)
    (hk : k + bs.length ≤ 8) : (bs.foldl shiftIn a).toNat = a.toNat * 2 ^ bs.length + ofBits bs := by
  induction bs generalizing a k with
  | nil => simp [ofBits]
  | cons b bs ih =>
    have hb : b.toNat < 2 := Bool.toNat_lt b
    simp only [List.length_cons] at hk
    have hpow : 2 ^ k ≤ 2 ^ 7 := Nat.pow_le_pow_right (by omega) (by omega)
    have hs := toNat_shiftIn b (a := a) (by omega)
    have hlt : (shiftIn a b).toNat < 2 ^ (k + 1) := by rw [hs, Nat.pow_succ]; omega
    have hcons : ofBits (b :: bs) = ofBits ([b] ++ bs) := rfl
    have h1 : ofBits [b] = b.toNat := by simp [ofBits]
    rw [List.foldl_cons, ih hlt (by omega), hs, hcons, ofBits_append, h1, List.length_cons, Nat.pow_succ]
    ring

/-! ### What a group of bits is, as slices (00_scope.md R12) -/

theorem foldl_byte_6 (b : Byte) (a : BitVec 8) :
    lowSextet ([b.getLsbD 7, b.getLsbD 6, b.getLsbD 5, b.getLsbD 4, b.getLsbD 3, b.getLsbD 2].foldl shiftIn a) =
      b.extractLsb' 2 6 := by
  simp only [List.foldl]
  apply BitVec.eq_of_getLsbD_eq; intro i hi
  interval_cases i <;> simp only [lowSextet, BitVec.getLsbD_extractLsb', getLsbD_shiftIn] <;> simp

theorem foldl_byte_4 (b : Byte) (a : BitVec 8) :
    lowSextet ([b.getLsbD 7, b.getLsbD 6, b.getLsbD 5, b.getLsbD 4].foldl shiftIn a) =
      a.extractLsb' 0 2 ++ b.extractLsb' 4 4 := by
  simp only [List.foldl]
  apply BitVec.eq_of_getLsbD_eq; intro i hi
  interval_cases i <;>
    simp only [lowSextet, BitVec.getLsbD_append, BitVec.getLsbD_extractLsb', getLsbD_shiftIn] <;> simp

theorem foldl_byte_2 (b : Byte) (a : BitVec 8) :
    lowSextet ([b.getLsbD 7, b.getLsbD 6].foldl shiftIn a) = a.extractLsb' 0 4 ++ b.extractLsb' 6 2 := by
  simp only [List.foldl]
  apply BitVec.eq_of_getLsbD_eq; intro i hi
  interval_cases i <;>
    simp only [lowSextet, BitVec.getLsbD_append, BitVec.getLsbD_extractLsb', getLsbD_shiftIn] <;> simp

theorem foldl_rest_2 (b : Byte) :
    [b.getLsbD 1, b.getLsbD 0].foldl shiftIn 0#8 = (b.extractLsb' 0 2).setWidth 8 := by
  simp only [List.foldl]
  apply BitVec.eq_of_getLsbD_eq; intro i hi
  interval_cases i <;> simp only [BitVec.getLsbD_setWidth, BitVec.getLsbD_extractLsb', getLsbD_shiftIn] <;> simp

theorem foldl_rest_4 (b : Byte) :
    [b.getLsbD 3, b.getLsbD 2, b.getLsbD 1, b.getLsbD 0].foldl shiftIn 0#8 = (b.extractLsb' 0 4).setWidth 8 := by
  simp only [List.foldl]
  apply BitVec.eq_of_getLsbD_eq; intro i hi
  interval_cases i <;> simp only [BitVec.getLsbD_setWidth, BitVec.getLsbD_extractLsb', getLsbD_shiftIn] <;> simp

theorem foldl_rest_6 (b : Byte) :
    [b.getLsbD 5, b.getLsbD 4, b.getLsbD 3, b.getLsbD 2, b.getLsbD 1, b.getLsbD 0].foldl shiftIn 0#8 =
      (b.extractLsb' 0 6).setWidth 8 := by
  simp only [List.foldl]
  apply BitVec.eq_of_getLsbD_eq; intro i hi
  interval_cases i <;> simp only [BitVec.getLsbD_setWidth, BitVec.getLsbD_extractLsb', getLsbD_shiftIn] <;> simp

@[simp] theorem lowSextet_setWidth (v : Sextet) : lowSextet (v.setWidth 8) = v := by
  apply BitVec.eq_of_getLsbD_eq; intro i hi
  interval_cases i <;> simp only [lowSextet, BitVec.getLsbD_setWidth, BitVec.getLsbD_extractLsb'] <;> simp

theorem foldl_sextet (v : Sextet) : v.bitsMsbFirst.foldl shiftIn 0#8 = v.setWidth 8 := by
  simp only [Sextet.bitsMsbFirst, List.foldl]
  apply BitVec.eq_of_getLsbD_eq; intro i hi
  interval_cases i <;> simp only [BitVec.getLsbD_setWidth, getLsbD_shiftIn] <;> simp

theorem foldl_sextet_6 (v : Sextet) (a : BitVec 8) :
    v.bitsMsbFirst.foldl shiftIn a = a.extractLsb' 0 2 ++ v := by
  simp only [Sextet.bitsMsbFirst, List.foldl]
  apply BitVec.eq_of_getLsbD_eq; intro i hi
  interval_cases i <;> simp only [BitVec.getLsbD_append, BitVec.getLsbD_extractLsb', getLsbD_shiftIn] <;> simp

theorem foldl_sextet_4 (v : Sextet) (a : BitVec 8) :
    [v.getLsbD 5, v.getLsbD 4, v.getLsbD 3, v.getLsbD 2].foldl shiftIn a =
      a.extractLsb' 0 4 ++ v.extractLsb' 2 4 := by
  simp only [List.foldl]
  apply BitVec.eq_of_getLsbD_eq; intro i hi
  interval_cases i <;> simp only [BitVec.getLsbD_append, BitVec.getLsbD_extractLsb', getLsbD_shiftIn] <;> simp

theorem foldl_sextet_2 (v : Sextet) (a : BitVec 8) :
    [v.getLsbD 5, v.getLsbD 4].foldl shiftIn a = a.extractLsb' 0 6 ++ v.extractLsb' 4 2 := by
  simp only [List.foldl]
  apply BitVec.eq_of_getLsbD_eq; intro i hi
  interval_cases i <;> simp only [BitVec.getLsbD_append, BitVec.getLsbD_extractLsb', getLsbD_shiftIn] <;> simp

theorem foldl_sextet_rest_2 (v : Sextet) :
    [v.getLsbD 1, v.getLsbD 0].foldl shiftIn 0#8 = (v.extractLsb' 0 2).setWidth 8 := by
  simp only [List.foldl]
  apply BitVec.eq_of_getLsbD_eq; intro i hi
  interval_cases i <;> simp only [BitVec.getLsbD_setWidth, BitVec.getLsbD_extractLsb', getLsbD_shiftIn] <;> simp

theorem foldl_sextet_rest_4 (v : Sextet) :
    [v.getLsbD 3, v.getLsbD 2, v.getLsbD 1, v.getLsbD 0].foldl shiftIn 0#8 = (v.extractLsb' 0 4).setWidth 8 := by
  simp only [List.foldl]
  apply BitVec.eq_of_getLsbD_eq; intro i hi
  interval_cases i <;> simp only [BitVec.getLsbD_setWidth, BitVec.getLsbD_extractLsb', getLsbD_shiftIn] <;> simp

/-! ### The loop of ENC.PUT -/

/-- Bits that do not fill the group (40_encoder.md R120). -/
theorem encode_partial {bs : List Bool} {s : State} (h : s.bitCount.toNat + bs.length < 6) :
    forBits encodeBit bs s = .ok { s with
      acc := bs.foldl shiftIn s.acc, bitCount := BitVec.ofNat 3 (s.bitCount.toNat + bs.length) } := by
  induction bs generalizing s with
  | nil => simp
  | cons b bs ih =>
    simp only [List.length_cons] at h
    have hne : ¬ s.bitCount.toNat + 1 = 6 := by omega
    have hn : (BitVec.ofNat 3 (s.bitCount.toNat + 1)).toNat = s.bitCount.toNat + 1 := by
      rw [BitVec.toNat_ofNat]; omega
    rw [forBits_cons, encodeBit, if_neg hne, andThen_ok, ih (by simp only [hn]; omega)]
    simp only [List.foldl_cons, hn, List.length_cons]
    rw [Nat.add_assoc, Nat.add_comm 1]

/-- Bits that fill the group exactly (40_encoder.md R120): the last one is shifted in, then the APPEND runs with the
count before it, 5 (60_exceptions.md R211). -/
theorem encode_group {bs : List Bool} {s : State} (hne : bs ≠ []) (h : s.bitCount.toNat + bs.length = 6) :
    forBits encodeBit bs s =
      (append (alphabet (lowSextet (bs.foldl shiftIn s.acc)))
        { s with acc := bs.foldl shiftIn s.acc, bitCount := 5#3 }).andThen fun u =>
          .ok { u with acc := 0#8, bitCount := 0#3, totalUnitsWritten := u.totalUnitsWritten + 1 } := by
  obtain ⟨init, b, rfl⟩ : ∃ init b, bs = init ++ [b] :=
    ⟨bs.dropLast, bs.getLast hne, (List.dropLast_append_getLast hne).symm⟩
  simp only [List.length_append, List.length_singleton] at h
  have h5 : s.bitCount.toNat + init.length = 5 := by omega
  rw [forBits_append, encode_partial (by omega), andThen_ok, forBits_cons, h5]
  simp only [encodeBit, List.foldl_append, List.foldl_cons, List.foldl_nil]
  rw [if_pos (by decide)]
  cases append _ _ <;> rfl

/-! ### The loop of DEC.SYM -/

/-- Bits that do not fill the byte (41_decoder.md R140). -/
theorem decode_partial {bs : List Bool} {s : State} (h : s.bitCount.toNat + bs.length < 8) :
    forBits decodeBit bs s = .ok { s with
      acc := bs.foldl shiftIn s.acc, bitCount := BitVec.ofNat 3 (s.bitCount.toNat + bs.length) } := by
  induction bs generalizing s with
  | nil => simp
  | cons b bs ih =>
    simp only [List.length_cons] at h
    have hne : ¬ s.bitCount.toNat + 1 = 8 := by omega
    have hn : (BitVec.ofNat 3 (s.bitCount.toNat + 1)).toNat = s.bitCount.toNat + 1 := by
      rw [BitVec.toNat_ofNat]; omega
    rw [forBits_cons, decodeBit, if_neg hne, andThen_ok, ih (by simp only [hn]; omega)]
    simp only [List.foldl_cons, hn, List.length_cons]
    rw [Nat.add_assoc, Nat.add_comm 1]

/-- Bits that fill the byte exactly (41_decoder.md R140): the APPEND runs with the count before the last bit, 7
(60_exceptions.md R211). -/
theorem decode_byte {bs : List Bool} {s : State} (hne : bs ≠ []) (h : s.bitCount.toNat + bs.length = 8) :
    forBits decodeBit bs s =
      (append (bs.foldl shiftIn s.acc) { s with acc := bs.foldl shiftIn s.acc, bitCount := 7#3 }).andThen fun u =>
        .ok { u with acc := 0#8, bitCount := 0#3 } := by
  obtain ⟨init, b, rfl⟩ : ∃ init b, bs = init ++ [b] :=
    ⟨bs.dropLast, bs.getLast hne, (List.dropLast_append_getLast hne).symm⟩
  simp only [List.length_append, List.length_singleton] at h
  have h7 : s.bitCount.toNat + init.length = 7 := by omega
  rw [forBits_append, decode_partial (by omega), andThen_ok, forBits_cons, h7]
  simp only [decodeBit, List.foldl_append, List.foldl_cons, List.foldl_nil]
  rw [if_pos (by decide)]
  cases append _ _ <;> rfl

end Sys2Proof.Machine
end

