-- ==== Sys2Proof/Laws/Decoder.lean ====
section
/-! SUPPORT. DEC.SYM at the four counts of bits that arise (41_decoder.md R141), as runs over APPEND, and what it keeps
whatever the count. -/

namespace Sys2Proof.Machine

variable {s : State} {v : Sextet}

/-- DEC.SYM with no bit held (41_decoder.md R141, first row). -/
theorem decSymBody_at0 (h : s.bitCount = 0#3) (ha : s.acc = 0#8) :
    decSymBody v s = .ok { s with acc := v.setWidth 8, bitCount := 6#3 } := by
  rw [decSymBody, decode_partial (by simp [h, Sextet.bitsMsbFirst]), ha, foldl_sextet, h]
  rfl

/-- DEC.SYM with two bits held (41_decoder.md R141, second row). -/
theorem decSymBody_at2 (h : s.bitCount = 2#3) :
    decSymBody v s =
      (append (s.acc.extractLsb' 0 2 ++ v)
        { s with acc := s.acc.extractLsb' 0 2 ++ v, bitCount := 7#3 }).andThen fun u =>
          .ok { u with acc := 0#8, bitCount := 0#3 } := by
  rw [decSymBody, decode_byte (by simp [Sextet.bitsMsbFirst]) (by simp [h, Sextet.bitsMsbFirst]), foldl_sextet_6]

/-- DEC.SYM with four bits held (41_decoder.md R141, third row). -/
theorem decSymBody_at4 (h : s.bitCount = 4#3) :
    decSymBody v s =
      (append (s.acc.extractLsb' 0 4 ++ v.extractLsb' 2 4)
        { s with acc := s.acc.extractLsb' 0 4 ++ v.extractLsb' 2 4, bitCount := 7#3 }).andThen fun u =>
          .ok { u with acc := (v.extractLsb' 0 2).setWidth 8, bitCount := 2#3 } := by
  rw [decSymBody, show v.bitsMsbFirst = [v.getLsbD 5, v.getLsbD 4, v.getLsbD 3, v.getLsbD 2] ++
    [v.getLsbD 1, v.getLsbD 0] from rfl, forBits_append, decode_byte (by simp) (by simp [h]), foldl_sextet_4,
    andThen_assoc]
  congr 1
  funext u
  rw [andThen_ok, decode_partial (by simp)]
  simp only [foldl_sextet_rest_2]
  rfl

/-- DEC.SYM with six bits held (41_decoder.md R141, fourth row). -/
theorem decSymBody_at6 (h : s.bitCount = 6#3) :
    decSymBody v s =
      (append (s.acc.extractLsb' 0 6 ++ v.extractLsb' 4 2)
        { s with acc := s.acc.extractLsb' 0 6 ++ v.extractLsb' 4 2, bitCount := 7#3 }).andThen fun u =>
          .ok { u with acc := (v.extractLsb' 0 4).setWidth 8, bitCount := 4#3 } := by
  rw [decSymBody, show v.bitsMsbFirst = [v.getLsbD 5, v.getLsbD 4] ++
    [v.getLsbD 3, v.getLsbD 2, v.getLsbD 1, v.getLsbD 0] from rfl, forBits_append, decode_byte (by simp) (by simp [h]),
    foldl_sextet_2, andThen_assoc]
  congr 1
  funext u
  rw [andThen_ok, decode_partial (by simp)]
  simp only [foldl_sextet_rest_4]
  rfl

/-- One turn of the loop, from what APPEND can do. -/
theorem decodeBit_ends {P Q : State → Prop} {bit : Bool}
    (hshift : ∀ (u : State) (a : BitVec 8) (n : BitVec 3), P u → P { u with acc := a, bitCount := n })
    (happend : ∀ (x : Byte) (u : State), P u → (append x u).Ends P Q) (hs : P s) :
    (decodeBit bit s).Ends P Q := by
  simp only [decodeBit]
  have ht : P { s with acc := shiftIn s.acc bit } := by simpa using hshift s (shiftIn s.acc bit) s.bitCount hs
  split
  · exact (happend _ _ ht).andThen fun u hu => hshift u _ _ hu
  · exact hshift { s with acc := shiftIn s.acc bit } (shiftIn s.acc bit) _ ht

/-- DEC.SYM, from what APPEND can do, whatever the count of bits. -/
theorem decSymBody_ends {P Q : State → Prop}
    (hshift : ∀ (u : State) (a : BitVec 8) (n : BitVec 3), P u → P { u with acc := a, bitCount := n })
    (happend : ∀ (x : Byte) (u : State), P u → (append x u).Ends P Q) (hs : P s) :
    (decSymBody v s).Ends P Q :=
  forBits_ends (fun _ _ hu => decodeBit_ends hshift happend hu) _ hs

end Sys2Proof.Machine
end

