-- ==== Sys2Proof/Laws/Encoder.lean ====
section
/-! SUPPORT. ENC.PUT at the three counts of bits that arise (40_encoder.md R121) and ENC.FIN (R122), as runs over
APPEND, and what ENC.PUT and ENC.FIN keep whatever the count. -/

namespace Sys2Proof.Machine

variable {s : State} {b : Byte}

/-- ENC.PUT with no bit held (40_encoder.md R121, first row). -/
theorem encPutBody_at0 (h : s.bitCount = 0#3) (hn : s.params.maxN ≠ some s.totalBytesRead) :
    encPutBody b s =
      (append (alphabet (b.extractLsb' 2 6))
        { s with
          totalBytesRead := s.totalBytesRead + 1, bitCount := 5#3
          acc := [b.getLsbD 7, b.getLsbD 6, b.getLsbD 5, b.getLsbD 4, b.getLsbD 3, b.getLsbD 2].foldl shiftIn s.acc
          }).andThen fun u => .ok { u with
            acc := (b.extractLsb' 0 2).setWidth 8, bitCount := 2#3, totalUnitsWritten := u.totalUnitsWritten + 1 } := by
  rw [encPutBody, if_neg hn, show b.bitsMsbFirst = [b.getLsbD 7, b.getLsbD 6, b.getLsbD 5, b.getLsbD 4, b.getLsbD 3,
    b.getLsbD 2] ++ [b.getLsbD 1, b.getLsbD 0] from rfl, forBits_append,
    encode_group (by simp) (by simp [h]), foldl_byte_6, andThen_assoc]
  congr 1
  funext u
  rw [andThen_ok, encode_partial (by simp)]
  simp only [foldl_rest_2]
  rfl

/-- ENC.PUT with two bits held (40_encoder.md R121, second row). -/
theorem encPutBody_at2 (h : s.bitCount = 2#3) (hn : s.params.maxN ≠ some s.totalBytesRead) :
    encPutBody b s =
      (append (alphabet (s.acc.extractLsb' 0 2 ++ b.extractLsb' 4 4))
        { s with
          totalBytesRead := s.totalBytesRead + 1, bitCount := 5#3
          acc := [b.getLsbD 7, b.getLsbD 6, b.getLsbD 5, b.getLsbD 4].foldl shiftIn s.acc
          }).andThen fun u => .ok { u with
            acc := (b.extractLsb' 0 4).setWidth 8, bitCount := 4#3, totalUnitsWritten := u.totalUnitsWritten + 1 } := by
  rw [encPutBody, if_neg hn, show b.bitsMsbFirst = [b.getLsbD 7, b.getLsbD 6, b.getLsbD 5, b.getLsbD 4] ++
    [b.getLsbD 3, b.getLsbD 2, b.getLsbD 1, b.getLsbD 0] from rfl, forBits_append,
    encode_group (by simp) (by simp [h]), foldl_byte_4, andThen_assoc]
  congr 1
  funext u
  rw [andThen_ok, encode_partial (by simp)]
  simp only [foldl_rest_4]
  rfl

/-- ENC.PUT with four bits held (40_encoder.md R121, third row). -/
theorem encPutBody_at4 (h : s.bitCount = 4#3) (hn : s.params.maxN ≠ some s.totalBytesRead) :
    encPutBody b s =
      (append (alphabet (s.acc.extractLsb' 0 4 ++ b.extractLsb' 6 2))
        { s with
          totalBytesRead := s.totalBytesRead + 1, bitCount := 5#3
          acc := [b.getLsbD 7, b.getLsbD 6].foldl shiftIn s.acc }).andThen fun u =>
      (append (alphabet (b.extractLsb' 0 6))
        { u with
          acc := (b.extractLsb' 0 6).setWidth 8, bitCount := 5#3
          totalUnitsWritten := u.totalUnitsWritten + 1 }).andThen fun v => .ok { v with
            acc := 0#8, bitCount := 0#3, totalUnitsWritten := v.totalUnitsWritten + 1 } := by
  rw [encPutBody, if_neg hn, show b.bitsMsbFirst = [b.getLsbD 7, b.getLsbD 6] ++ [b.getLsbD 5, b.getLsbD 4,
    b.getLsbD 3, b.getLsbD 2, b.getLsbD 1, b.getLsbD 0] from rfl, forBits_append,
    encode_group (by simp) (by simp [h]), foldl_byte_2, andThen_assoc]
  congr 1
  funext u
  rw [andThen_ok, encode_group (by simp) (by simp)]
  simp only [foldl_rest_6, lowSextet_setWidth]

/-- One turn of the loop, from what APPEND can do. -/
theorem encodeBit_ends {P Q : State → Prop} {bit : Bool}
    (hshift : ∀ (u : State) (a : BitVec 8) (n : BitVec 3), P u → P { u with acc := a, bitCount := n })
    (hunits : ∀ (u : State) (a : BitVec 8) (n : BitVec 3), P u →
      P { u with acc := a, bitCount := n, totalUnitsWritten := u.totalUnitsWritten + 1 })
    (happend : ∀ (x : Byte) (u : State), P u → (append x u).Ends P Q) (hs : P s) :
    (encodeBit bit s).Ends P Q := by
  simp only [encodeBit]
  have ht : P { s with acc := shiftIn s.acc bit } := by simpa using hshift s (shiftIn s.acc bit) s.bitCount hs
  split
  · exact (happend _ _ ht).andThen fun u hu => hunits u _ _ hu
  · exact hshift { s with acc := shiftIn s.acc bit } (shiftIn s.acc bit) _ ht

/-- ENC.PUT, from what APPEND can do, whatever the count of bits. -/
theorem encPutBody_ends {P Q : State → Prop}
    (hshift : ∀ (u : State) (a : BitVec 8) (n : BitVec 3), P u → P { u with acc := a, bitCount := n })
    (hunits : ∀ (u : State) (a : BitVec 8) (n : BitVec 3), P u →
      P { u with acc := a, bitCount := n, totalUnitsWritten := u.totalUnitsWritten + 1 })
    (happend : ∀ (x : Byte) (u : State), P u → (append x u).Ends P Q)
    (hlimit : s.params.maxN = some s.totalBytesRead → Q (raise .counterOverflow s))
    (hs : s.params.maxN ≠ some s.totalBytesRead → P { s with totalBytesRead := s.totalBytesRead + 1 }) :
    (encPutBody b s).Ends P Q := by
  unfold encPutBody
  split
  · next h => exact hlimit h
  · next h => exact forBits_ends (fun _ _ hu => encodeBit_ends hshift hunits happend hu) _ (hs h)

/-- The pads, from what APPEND can do. -/
theorem emitPads_ends {P Q : State → Prop}
    (hunits : ∀ u : State, P u → P { u with totalUnitsWritten := u.totalUnitsWritten + 1 })
    (happend : ∀ (x : Byte) (u : State), P u → (append x u).Ends P Q) (k : Nat) (hs : P s) :
    (emitPads k s).Ends P Q := by
  induction k generalizing s with
  | zero => exact hs
  | succ k ih => exact (happend _ _ hs).andThen fun u hu => ih (hunits u hu)

/-- Steps 1 and 2 of ENC.FIN, from what APPEND can do. -/
theorem encFinAppends_ends {P Q : State → Prop}
    (hshift : ∀ (u : State) (a : BitVec 8) (n : BitVec 3), P u → P { u with acc := a, bitCount := n })
    (hunits : ∀ u : State, P u → P { u with totalUnitsWritten := u.totalUnitsWritten + 1 })
    (happend : ∀ (x : Byte) (u : State), P u → (append x u).Ends P Q) (hs : P s) :
    ((emitPartial s).andThen emitPadding).Ends P Q := by
  refine Run.Ends.andThen (P := P) ?_ fun t ht => emitPads_ends hunits happend _ ht
  simp only [emitPartial]
  split
  · exact hs
  · refine Run.Ends.andThen (happend _ _ ?_) fun u hu => ?_
    · simpa using hshift s _ s.bitCount hs
    · exact hshift { u with totalUnitsWritten := u.totalUnitsWritten + 1 } 0#8 0#3 (hunits u hu)

end Sys2Proof.Machine
end

