-- ==== Sys2Proof/Laws/Complete.lean ====
section
/-! SUPPORT. Commands none of whose Writes fails: APPEND is `stored`, and a FIN ends in `drained`. -/

namespace Sys2Proof.Machine

/-- `stored` reads no data-path register, so writing them before or after it is the same. -/
theorem stored_with (s : State) (x : Byte) (a : BitVec 8) (n : BitVec 3) (r w : Nat) :
    stored { s with acc := a, bitCount := n, totalBytesRead := r, totalUnitsWritten := w } x =
      { stored s x with acc := a, bitCount := n, totalBytesRead := r, totalUnitsWritten := w } := by
  unfold stored
  dsimp only
  split <;> rfl

/-! ### Several APPENDs in order -/

@[simp] theorem storedAll_nil (s : State) : storedAll s [] = s := rfl

@[simp] theorem storedAll_cons (s : State) (x : Byte) (xs : List Byte) :
    storedAll s (x :: xs) = storedAll (stored s x) xs := rfl

theorem storedAll_params (s : State) (xs : List Byte) : (storedAll s xs).params = s.params := by
  induction xs generalizing s with
  | nil => rfl
  | cons x xs ih => rw [storedAll_cons, ih, stored_params]

theorem storedAll_acc (s : State) (xs : List Byte) : (storedAll s xs).acc = s.acc := by
  induction xs generalizing s with
  | nil => rfl
  | cons x xs ih => rw [storedAll_cons, ih, stored_acc]

theorem storedAll_bitCount (s : State) (xs : List Byte) : (storedAll s xs).bitCount = s.bitCount := by
  induction xs generalizing s with
  | nil => rfl
  | cons x xs ih => rw [storedAll_cons, ih, stored_bitCount]

theorem storedAll_totalBytesRead (s : State) (xs : List Byte) : (storedAll s xs).totalBytesRead = s.totalBytesRead := by
  induction xs generalizing s with
  | nil => rfl
  | cons x xs ih => rw [storedAll_cons, ih, stored_totalBytesRead]

theorem storedAll_totalUnitsWritten (s : State) (xs : List Byte) : (storedAll s xs).totalUnitsWritten = s.totalUnitsWritten := by
  induction xs generalizing s with
  | nil => rfl
  | cons x xs ih => rw [storedAll_cons, ih, stored_totalUnitsWritten]

theorem storedAll_mode (s : State) (xs : List Byte) : (storedAll s xs).mode = s.mode := by
  induction xs generalizing s with
  | nil => rfl
  | cons x xs ih => rw [storedAll_cons, ih, stored_mode]

theorem storedAll_phase (s : State) (xs : List Byte) : (storedAll s xs).phase = s.phase := by
  induction xs generalizing s with
  | nil => rfl
  | cons x xs ih => rw [storedAll_cons, ih, stored_phase]

theorem storedAll_fault (s : State) (xs : List Byte) : (storedAll s xs).fault = s.fault := by
  induction xs generalizing s with
  | nil => rfl
  | cons x xs ih => rw [storedAll_cons, ih, stored_fault]

theorem storedAll_rsp (s : State) (xs : List Byte) : (storedAll s xs).rsp = s.rsp := by
  induction xs generalizing s with
  | nil => rfl
  | cons x xs ih => rw [storedAll_cons, ih, stored_rsp]

theorem storedAll_sinkOpen (s : State) (xs : List Byte) : (storedAll s xs).sinkOpen = s.sinkOpen := by
  induction xs generalizing s with
  | nil => rfl
  | cons x xs ih => rw [storedAll_cons, ih, stored_sinkOpen]

theorem storedAll_inputs (s : State) (xs : List Byte) : (storedAll s xs).inputs = s.inputs := by
  induction xs generalizing s with
  | nil => rfl
  | cons x xs ih => rw [storedAll_cons, ih, stored_inputs]

/-- `storedAll` reads no data-path register either. -/
theorem storedAll_with (s : State) (xs : List Byte) (a : BitVec 8) (n : BitVec 3) (r w : Nat) :
    storedAll { s with acc := a, bitCount := n, totalBytesRead := r, totalUnitsWritten := w } xs =
      { storedAll s xs with acc := a, bitCount := n, totalBytesRead := r, totalUnitsWritten := w } := by
  induction xs generalizing s with
  | nil => rfl
  | cons x xs ih => rw [storedAll_cons, stored_with, ih, storedAll_cons]

/-- The logical output grows by the elements in order (10_state.md R39). -/
theorem storedAll_output (s : State) (xs : List Byte) :
    (storedAll s xs).sinkData ++ (storedAll s xs).buf = s.sinkData ++ s.buf ++ xs := by
  induction xs generalizing s with
  | nil => simp
  | cons x xs ih => rw [storedAll_cons, ih, stored_output, List.append_assoc, List.singleton_append]

/-- The buffer after one APPEND or more is not empty. -/
theorem storedAll_cons_buf_ne_nil (s : State) (x : Byte) (xs : List Byte) : (storedAll s (x :: xs)).buf ≠ [] := by
  induction xs generalizing s x with
  | nil => exact stored_buf_ne_nil s x
  | cons y xs ih => exact ih (stored s x) y

/-! ### The questions asked -/

/-- APPEND asks one question on a full buffer, and none on another. -/
theorem stored_asks (s : State) (x : Byte) :
    (s.buf.length = s.params.capacity ∧ (stored s x).answers = s.answers.drop 1 ∧
      (stored s x).freeCount = s.freeCount + 1) ∨
    (s.buf.length ≠ s.params.capacity ∧ (stored s x).answers = s.answers ∧ (stored s x).freeCount = s.freeCount) := by
  unfold stored
  split
  · next h => exact .inl ⟨h, by simp, rfl⟩
  · next h => exact .inr ⟨h, rfl, rfl⟩

theorem stored_freeCount_le (s : State) (x : Byte) : s.freeCount ≤ (stored s x).freeCount := by
  rcases stored_asks s x with ⟨-, -, h⟩ | ⟨-, -, h⟩ <;> omega

theorem storedAll_freeCount_le (s : State) (xs : List Byte) : s.freeCount ≤ (storedAll s xs).freeCount := by
  induction xs generalizing s with
  | nil => exact Nat.le_refl _
  | cons x xs ih => exact Nat.le_trans (stored_freeCount_le s x) (ih _)

theorem drained_freeCount (s : State) : (drained s).freeCount = s.freeCount + if s.buf = [] then 0 else 1 := by
  unfold drained; split <;> rfl

theorem drained_freeCount_le (s : State) : s.freeCount ≤ (drained s).freeCount := by
  rw [drained_freeCount]; omega

/-- Fewer questions are answered ok too. -/
theorem answersOkTo_le {s u v : State} (h : s.answersOkTo u) (hv : v.freeCount ≤ u.freeCount) : s.answersOkTo v :=
  fun j hj => h j (by omega)

/-- After an APPEND the questions that are left are answered ok. -/
theorem stored_answersOkTo {s u : State} (x : Byte) (h : s.answersOkTo u) : (stored s x).answersOkTo u := by
  intro j hj
  rcases stored_asks s x with ⟨-, ha, hf⟩ | ⟨-, ha, hf⟩
  · rw [answerAt_shift ha hf]; exact h _ (by omega)
  · rw [answerAt_shift (s := s) (k := 0) (by simpa using ha) hf]; exact h _ (by omega)

theorem storedAll_answersOkTo {s u : State} (xs : List Byte) (h : s.answersOkTo u) : (storedAll s xs).answersOkTo u := by
  induction xs generalizing s with
  | nil => exact h
  | cons x xs ih => exact ih (stored_answersOkTo x h)

/-! ### Commands -/

/-- APPEND whose question, if it asks one, is answered ok. -/
theorem append_answersOk {s : State} (x : Byte) (h : s.answersOkTo (stored s x)) : append x s = .ok (stored s x) := by
  rw [append_eq, if_neg]
  rintro ⟨hfull, hno⟩
  rcases stored_asks s x with ⟨-, -, hf⟩ | ⟨hne, -⟩
  · simpa [hno] using h 0 (by omega)
  · exact hne hfull

/-- The same with the data-path registers written before it: APPEND neither reads nor writes them. -/
theorem append_with_answersOk {s : State} (x : Byte) (a : BitVec 8) (n : BitVec 3) (r w : Nat)
    (h : s.answersOkTo (stored s x)) :
    append x { s with acc := a, bitCount := n, totalBytesRead := r, totalUnitsWritten := w } =
      .ok { stored s x with acc := a, bitCount := n, totalBytesRead := r, totalUnitsWritten := w } := by
  rw [append_answersOk, stored_with]
  rw [stored_with]
  exact h

/-- The first `j` pads of ENC.FIN, where every question they ask is answered ok. -/
theorem emitPads_answersOk {s : State} (j k : Nat) (h : s.answersOkTo (storedAll s (List.replicate j pad))) :
    emitPads (j + k) s =
      emitPads k { storedAll s (List.replicate j pad) with totalUnitsWritten := s.totalUnitsWritten + j } := by
  induction j generalizing s with
  | zero => simp
  | succ j ih =>
    rw [List.replicate_succ, storedAll_cons] at h ⊢
    rw [Nat.add_right_comm, emitPads, append_answersOk pad (answersOkTo_le h (storedAll_freeCount_le _ _)), andThen_ok]
    have e : ∀ w, storedAll { stored s pad with totalUnitsWritten := w } (List.replicate j pad) =
        { storedAll (stored s pad) (List.replicate j pad) with totalUnitsWritten := w } := fun w => by
      simpa [storedAll_acc, storedAll_bitCount, storedAll_totalBytesRead] using storedAll_with (stored s pad)
        (List.replicate j pad) (stored s pad).acc (stored s pad).bitCount (stored s pad).totalBytesRead w
    rw [ih, e]
    · simp [Nat.add_assoc, Nat.add_comm 1 j]
    · rw [e]; exact stored_answersOkTo pad h

/-- A FIN whose drain does not fail ends in DONE with the sink closed (42_buffer_flush.md R162, R163). -/
theorem finalize_answersOk {s : State} (h : s.answersOkTo (drained s)) : (finalize s).finish = drained s := by
  rw [finalize, drain_eq]
  split
  · next he => simp [drained, he, Run.finish, close]
  · next hne =>
    have h0 : s.nextAnswer = true := by simpa using h 0 (by rw [drained_freeCount, if_neg hne]; omega)
    simp [drained, hne, h0, sinkWrite, close, State.takeAnswer, Run.finish]

/-- The end of a FIN on every path. -/
theorem finalize_ends {P Q : State → Prop} {s : State}
    (hempty : s.buf = [] → P { close s with phase := .done })
    (hok : s.buf ≠ [] → s.nextAnswer = true → P { close (sinkWrite s.buf s) with phase := .done })
    (hfail : s.buf ≠ [] → s.nextAnswer = false → Q (writeFailed s)) : (finalize s).Ends P Q := by
  unfold finalize
  rw [drain_eq]
  split
  · next h => exact hempty h
  · next h =>
    split
    · next ha => exact hok h ha
    · next ha => exact hfail h (by simpa using ha)

end Sys2Proof.Machine
end

