-- ==== Sys2Proof/Laws/Decode.lean ====
section
/-! SUPPORT. The command word's fields and the two tables (30_encoding.md R90; 10_state.md R31 to R33). -/

namespace Sys2Proof

/-! ### Fields of the word -/

@[simp] theorem opField_cmdWord (op : BitVec 2) (d : Byte) : opField (cmdWord op d) = op := by
  apply BitVec.eq_of_getElem_eq
  intro i hi
  simp only [opField, cmdWord, BitVec.getElem_extractLsb', BitVec.getLsbD_append]
  rw [if_neg (by omega), Nat.add_sub_cancel_left, BitVec.getLsbD_eq_getElem hi]

@[simp] theorem dataField_cmdWord (op : BitVec 2) (d : Byte) : dataField (cmdWord op d) = d := by
  apply BitVec.eq_of_getElem_eq
  intro i hi
  simp only [dataField, cmdWord, BitVec.getElem_extractLsb', BitVec.getLsbD_append]
  rw [if_pos (by omega), Nat.zero_add, BitVec.getLsbD_eq_getElem hi]

/-- A word is its two fields (30_encoding.md R90). -/
theorem cmdWord_fields (w : CmdWord) : cmdWord (opField w) (dataField w) = w := by
  apply BitVec.eq_of_getLsbD_eq
  intro i hi
  simp only [opField, dataField, cmdWord, BitVec.getLsbD_append, BitVec.getLsbD_extractLsb']
  split
  · next h => simp [h]
  · next h => rw [show 8 + (i - 8) = i by omega, decide_eq_true (show i - 8 < 2 by omega), Bool.true_and]

theorem op_cases (op : BitVec 2) : op = 0b00#2 ∨ op = 0b01#2 ∨ op = 0b10#2 ∨ op = 0b11#2 := by
  revert op; decide

/-! ### The tables -/

@[simp] theorem rev_alphabet : ∀ i : Sextet, rev (alphabet i) = .val i := by decide

@[simp] theorem rev_pad : rev pad = .isPad := by decide

/-- An entry `VAL i` of `REV` stands at the code of `ALPHABET[i]`, over all 256 codes. -/
theorem alphabet_of_rev : ∀ (c : Byte) (i : Sextet), rev c = .val i → alphabet i = c := by decide +kernel

theorem rev_isPad : ∀ c : Byte, rev c = .isPad → c = pad := by decide +kernel

/-! ### The kinds of a word exclude one another (30_encoding.md R95) -/

namespace Machine

/-- A PUT word is of no other kind. -/
theorem put_excludes {w : CmdWord} (h : opField w = 0b10#2) :
    ¬ reservedWord w ∧ w ≠ 0x000#10 ∧ ¬ openCommand w ∧ w ≠ 0x300#10 := by
  refine ⟨?_, ?_, ?_, ?_⟩
  · rintro (⟨h1 | h1, -⟩ | ⟨h1, -⟩) <;> rw [h] at h1 <;> revert h1 <;> decide
  · rintro rfl; revert h; decide
  · rintro (rfl | rfl) <;> revert h <;> decide
  · rintro rfl; revert h; decide

/-- A reserved word is of no other kind. -/
theorem reserved_excludes {w : CmdWord} (h : reservedWord w) :
    opField w ≠ 0b10#2 ∧ w ≠ 0x000#10 ∧ ¬ openCommand w ∧ w ≠ 0x300#10 := by
  refine ⟨fun e => (put_excludes e).1 h, ?_, ?_, ?_⟩
  · rintro rfl; revert h; decide
  · rintro (rfl | rfl) <;> revert h <;> decide
  · rintro rfl; revert h; decide

/-- An OPEN word is of no other kind. -/
theorem open_excludes {w : CmdWord} (h : openCommand w) :
    opField w ≠ 0b10#2 ∧ w ≠ 0x000#10 ∧ ¬ reservedWord w ∧ w ≠ 0x300#10 := by
  rcases h with rfl | rfl <;> decide

end Machine

end Sys2Proof
end

