-- ==== Sys2Proof/Laws/Memory.lean ====
section
/-! SUPPORT. The canonical form of the buffer, `len <= C` (10_state.md R38): it holds at reset, and every operation that
touches the buffer keeps it. -/

namespace Sys2Proof.Machine

/-- The buffer of a state is in its canonical form for the state's own capacity. -/
abbrev State.bufWf (s : State) : Prop := Memory.wf s.params.capacity s.buf

theorem reset_bufWf : State.reset.bufWf := by decide

theorem hardReset_bufWf (s : State) : (hardReset s).bufWf := Nat.zero_le _

theorem openSession_bufWf (m : Mode) (s : State) : (openSession m s).bufWf := Nat.zero_le _

theorem raise_bufWf (x : FaultCode) {s : State} (h : s.bufWf) : (raise x s).bufWf := h

theorem writeFailed_bufWf {s : State} (h : s.bufWf) : (writeFailed s).bufWf := h

theorem append_bufWf (x : Byte) {s : State} (hc : 1 ≤ s.params.capacity) (h : s.bufWf) :
    (append x s).Ends State.bufWf State.bufWf :=
  append_ends (stored_wf x hc h) fun _ _ => writeFailed_bufWf h

theorem flush_bufWf {s : State} (h : s.bufWf) : (flush s).Ends State.bufWf State.bufWf := by
  unfold flush
  split
  · exact Nat.zero_le _
  · exact writeFailed_bufWf h

theorem drain_bufWf {s : State} (h : s.bufWf) : (drain s).Ends State.bufWf State.bufWf := by
  rw [drain_eq]
  split
  · exact h
  · split
    · exact h
    · exact writeFailed_bufWf h

theorem finalize_bufWf {s : State} (h : s.bufWf) : (finalize s).Ends State.bufWf State.bufWf :=
  finalize_ends (fun _ => h) (fun _ _ => h) fun _ _ => writeFailed_bufWf h

end Sys2Proof.Machine
end

