-- ==== Sys2Proof/Laws/Step.lean ====
section
/-! SUPPORT. Everything a step can do, said once (43_session_control.md R180): which input was next, what it was
classified as, and the state it leads to. -/

namespace Sys2Proof.Machine

/-- The state from which the next input has been taken. -/
abbrev State.took (s : State) (rest : List Input) : State := { s with inputs := rest }

/-- The cases of a step. The condition in a case is the one dispatch has checked. -/
inductive StepTo (s : State) : State → Prop
  | waits (h : s.inputs = []) : StepTo s s
  | resets (rest : List Input) (h : s.inputs = .rst :: rest) : StepTo s (hardReset (s.took rest))
  | cut (w : CmdWord) (p : ResetPoint) (rest : List Input) (u : State) (h : s.inputs = .rstDuring w p :: rest)
      (hu : step { s with inputs := .cmd w :: rest } = .next u) : StepTo s (resetInside p (s.took rest) u)
  | illegal (w : CmdWord) (rest : List Input) (h : s.inputs = .cmd w :: rest) (hw : reservedWord w) :
      StepTo s (raise .illegalCommand (s.took rest))
  | nop (rest : List Input) (h : s.inputs = .cmd 0x000#10 :: rest) :
      StepTo s { s.took rest with rsp := some .ok }
  | openActive (w : CmdWord) (rest : List Input) (h : s.inputs = .cmd w :: rest) (hw : openCommand w)
      (hp : s.phase = .active) : StepTo s (raise .protocolError (s.took rest))
  | openE (rest : List Input) (h : s.inputs = .cmd 0x100#10 :: rest) (hp : s.phase ≠ .active) :
      StepTo s (openSession .enc (s.took rest))
  | openD (rest : List Input) (h : s.inputs = .cmd 0x101#10 :: rest) (hp : s.phase ≠ .active) :
      StepTo s (openSession .dec (s.took rest))
  | outOfPhase (w : CmdWord) (rest : List Input) (h : s.inputs = .cmd w :: rest)
      (hw : opField w = 0b10#2 ∨ w = 0x300#10) (hp : s.phase ≠ .active) :
      StepTo s (raise .protocolError (s.took rest))
  | encPut (w : CmdWord) (rest : List Input) (h : s.inputs = .cmd w :: rest) (hw : opField w = 0b10#2)
      (hp : s.phase = .active) (hm : s.mode = .enc) :
      StepTo s (encPutBody (dataField w) (s.took rest)).finish
  | decSym (w : CmdWord) (rest : List Input) (v : Sextet) (h : s.inputs = .cmd w :: rest) (hw : opField w = 0b10#2)
      (hp : s.phase = .active) (hm : s.mode = .dec) (hr : rev (dataField w) = .val v) :
      StepTo s (decSymBody v (s.took rest)).finish
  | decPad (w : CmdWord) (rest : List Input) (h : s.inputs = .cmd w :: rest) (hw : opField w = 0b10#2)
      (hp : s.phase = .active) (hm : s.mode = .dec) (hr : rev (dataField w) = .isPad) :
      StepTo s (decPadBody (s.took rest)).finish
  | decBad (w : CmdWord) (rest : List Input) (h : s.inputs = .cmd w :: rest) (hw : opField w = 0b10#2)
      (hp : s.phase = .active) (hm : s.mode = .dec) (hr : rev (dataField w) = .bad) :
      StepTo s (raise .invalidSymbol (s.took rest))
  | encFin (rest : List Input) (h : s.inputs = .cmd 0x300#10 :: rest) (hp : s.phase = .active)
      (hm : s.mode = .enc) : StepTo s (encFinBody (s.took rest)).finish
  | decFin (rest : List Input) (h : s.inputs = .cmd 0x300#10 :: rest) (hp : s.phase = .active)
      (hm : s.mode = .dec) : StepTo s (finalize (s.took rest)).finish

/-- The kinds of a command word with what the decoder says of each (30_encoding.md R95). -/
theorem decode_kinds (m : Mode) (w : CmdWord) :
    (reservedWord w ∧ ∃ r, decode m w = .illegal r) ∨
    (w = 0x000#10 ∧ decode m w = .instr .nop) ∨
    (w = 0x100#10 ∧ decode m w = .instr .openE) ∨
    (w = 0x101#10 ∧ decode m w = .instr .openD) ∨
    (opField w = 0b10#2 ∧ decode m w = .instr (match m with
      | .enc => .encPut (dataField w)
      | .dec => decodeSymbol (dataField w))) ∨
    (w = 0x300#10 ∧ decode m w = .instr (match m with
      | .enc => .encFin
      | .dec => .decFin)) := by
  have hw := cmdWord_fields w
  rcases op_cases (opField w) with ho | ho | ho | ho <;> rw [ho] at hw
  · by_cases hd : dataField w = 0#8
    · rw [hd] at hw; exact .inr (.inl ⟨hw.symm, by simp [decode, ho, hd]⟩)
    · exact .inl ⟨.inl ⟨.inl ho, hd⟩, _, by simp [decode, ho, hd]; rfl⟩
  · by_cases hd : dataField w = 0#8
    · rw [hd] at hw; exact .inr (.inr (.inl ⟨hw.symm, by simp [decode, ho, hd]⟩))
    · by_cases hd1 : dataField w = 1#8
      · rw [hd1] at hw; exact .inr (.inr (.inr (.inl ⟨hw.symm, by simp [decode, ho, hd1]⟩)))
      · refine .inl ⟨.inr ⟨ho, ?_⟩, _, by simp [decode, ho, hd, hd1]; rfl⟩
        have h0 : (dataField w).toNat ≠ 0 := fun e => hd (BitVec.eq_of_toNat_eq e)
        have h1 : (dataField w).toNat ≠ 1 := fun e => hd1 (BitVec.eq_of_toNat_eq e)
        omega
  · refine .inr (.inr (.inr (.inr (.inl ⟨ho, ?_⟩))))
    cases m <;> simp [decode, ho]
  · by_cases hd : dataField w = 0#8
    · rw [hd] at hw
      refine .inr (.inr (.inr (.inr (.inr ⟨hw.symm, ?_⟩))))
      cases m <;> simp [decode, ho, hd]
    · exact .inl ⟨.inl ⟨.inr ho, hd⟩, _, by simp [decode, ho, hd]; rfl⟩

/-! ### A step, by its next input -/

theorem step_waits {s : State} (h : s.inputs = []) : step s = .next s := by
  simp [step, resetPoint, fetch, h, cutByReset, perform]

theorem step_rst {s : State} {rest : List Input} (h : s.inputs = .rst :: rest) :
    step s = .next (hardReset (s.took rest)) := by
  simp [step, resetPoint, fetch, h, cutByReset, perform]

/-- A legal command word runs its instruction. -/
theorem step_instr {s : State} {w : CmdWord} {rest : List Input} {i : Instr} (h : s.inputs = .cmd w :: rest)
    (hd : decode s.mode w = .instr i) : step s = exec i (s.took rest) := by
  simp [step, resetPoint, fetch, h, cutByReset, perform, classify, hd]

theorem step_illegal {s : State} {w : CmdWord} {rest : List Input} {r : Reserved} (h : s.inputs = .cmd w :: rest)
    (hd : decode s.mode w = .illegal r) : step s = .next (raise .illegalCommand (s.took rest)) := by
  simp [step, resetPoint, fetch, h, cutByReset, perform, classify, hd]

/-- Reset in the middle of a command, from where the command alone leads. -/
theorem step_rstDuring {s u : State} {w : CmdWord} {p : ResetPoint} {rest : List Input}
    (h : s.inputs = .rstDuring w p :: rest) (hu : step { s with inputs := .cmd w :: rest } = .next u) :
    step s = .next (resetInside p (s.took rest) u) := by
  have e : step { s with inputs := .cmd w :: rest } = perform (fetch s) := by
    simp [step, resetPoint, fetch, h, cutByReset]
  rw [e] at hu
  simp only [step, resetPoint, h, hu, cutByReset]
  rfl

/-- Every step whose next input is no reset in the middle of a command. -/
theorem step_spec_whole (s : State) (hw : ∀ w p rest, s.inputs ≠ .rstDuring w p :: rest) :
    ∃ t, step s = .next t ∧ StepTo s t := by
  rcases hi : s.inputs with _ | ⟨w | _ | ⟨w, p⟩, rest⟩
  · exact ⟨s, step_waits hi, .waits hi⟩
  · have run : ∀ i, decode s.mode w = .instr i → step s = exec i (s.took rest) := fun i hd => step_instr hi hd
    rcases decode_kinds s.mode w with ⟨hr, r, hd⟩ | ⟨rfl, hd⟩ | ⟨rfl, hd⟩ | ⟨rfl, hd⟩ | ⟨ho, hd⟩ | ⟨rfl, hd⟩
    · exact ⟨_, step_illegal hi hd, .illegal w rest hi hr⟩
    · exact ⟨_, run _ hd, .nop rest hi⟩
    · by_cases hp : s.phase = .active
      · exact ⟨_, (run _ hd).trans (outsideSession_active hp), .openActive _ rest hi (.inl rfl) hp⟩
      · exact ⟨_, (run _ hd).trans (outsideSession_inactive hp), .openE rest hi hp⟩
    · by_cases hp : s.phase = .active
      · exact ⟨_, (run _ hd).trans (outsideSession_active hp), .openActive _ rest hi (.inr rfl) hp⟩
      · exact ⟨_, (run _ hd).trans (outsideSession_inactive hp), .openD rest hi hp⟩
    · by_cases hp : s.phase = .active
      · cases hm : s.mode with
        | enc =>
          refine ⟨_, (run (.encPut (dataField w)) (by rw [hd, hm])).trans ?_, .encPut w rest hi ho hp hm⟩
          simpa [exec, execEncPut, hm] using inSession_active (s := s.took rest) hp
        | dec =>
          cases hr : rev (dataField w) with
          | val v =>
            refine ⟨_, (run (.decSym (dataField w)) (by rw [hd, hm]; simp [decodeSymbol, hr])).trans ?_,
              .decSym w rest v hi ho hp hm hr⟩
            simpa [exec, execDecSym, hr, hm] using inSession_active (s := s.took rest) hp
          | isPad =>
            refine ⟨_, (run .decPad (by rw [hd, hm]; simp [decodeSymbol, hr])).trans ?_,
              .decPad w rest hi ho hp hm hr⟩
            simpa [exec, execDecPad, hm] using inSession_active (s := s.took rest) hp
          | bad =>
            refine ⟨_, (run (.decBad (dataField w)) (by rw [hd, hm]; simp [decodeSymbol, hr])).trans ?_,
              .decBad w rest hi ho hp hm hr⟩
            have e := inSession_active (s := s.took rest) (body := decBadBody) hp
            simpa [exec, execDecBad, hr, hm, decBadBody, Run.finish] using e
      · refine ⟨_, ?_, .outOfPhase w rest hi (.inl ho) hp⟩
        cases hm : s.mode with
        | enc =>
          rw [run (.encPut (dataField w)) (by rw [hd, hm])]
          exact inSession_inactive hp
        | dec =>
          rw [run (decodeSymbol (dataField w)) (by rw [hd, hm])]
          unfold decodeSymbol
          cases hr : rev (dataField w) with
          | val v => simp only [exec, execDecSym, hr]; exact inSession_inactive hp
          | isPad => exact inSession_inactive hp
          | bad => exact inSession_inactive hp
    · by_cases hp : s.phase = .active
      · cases hm : s.mode with
        | enc =>
          refine ⟨_, (run .encFin (by rw [hd, hm])).trans ?_, .encFin rest hi hp hm⟩
          simpa [exec, execEncFin, hm] using inSession_active (s := s.took rest) hp
        | dec =>
          refine ⟨_, (run .decFin (by rw [hd, hm])).trans ?_, .decFin rest hi hp hm⟩
          simpa [exec, execDecFin, hm] using inSession_active (s := s.took rest) hp
      · refine ⟨_, ?_, .outOfPhase _ rest hi (.inr rfl) hp⟩
        cases hm : s.mode with
        | enc => rw [run .encFin (by rw [hd, hm])]; exact inSession_inactive hp
        | dec => rw [run .decFin (by rw [hd, hm])]; exact inSession_inactive hp
  · exact ⟨_, step_rst hi, .resets rest hi⟩
  · exact absurd hi (hw w p rest)

/-- Every step has a next state, and it is one of the cases. -/
theorem step_spec (s : State) : ∃ t, step s = .next t ∧ StepTo s t := by
  by_cases hc : ∃ w p rest, s.inputs = .rstDuring w p :: rest
  · obtain ⟨w, p, rest, hi⟩ := hc
    obtain ⟨u, hu, -⟩ := step_spec_whole { s with inputs := .cmd w :: rest } (by simp)
    exact ⟨_, step_rstDuring hi hu, .cut w p rest u hi hu⟩
  · exact step_spec_whole s fun w p rest hi => hc ⟨w, p, rest, hi⟩

/-- The cases of a step that answers `t`. -/
theorem step_cases {s t : State} (h : step s = .next t) : StepTo s t := by
  obtain ⟨u, hu, hs⟩ := step_spec s
  rw [hu] at h
  cases h
  exact hs

/-! ### The inputs -/

/-- APPEND, and so every pseudocode over it, leaves the inputs. -/
theorem append_inputs {is : List Input} (x : Byte) {s : State} (h : s.inputs = is) :
    (append x s).Ends (fun t => t.inputs = is) fun t => t.inputs = is :=
  append_ends ((stored_inputs s x).trans h) fun _ _ => h

theorem finalize_inputs {is : List Input} {s : State} (h : s.inputs = is) :
    (finalize s).Ends (fun t => t.inputs = is) fun t => t.inputs = is :=
  finalize_ends (fun _ => h) (fun _ _ => h) fun _ _ => h

/-- A step takes one input, and leaves the others. -/
theorem step_inputs {s t : State} (h : step s = .next t) : t.inputs = s.inputs.tail := by
  have whole : ∀ {s t : State}, (∀ w p rest, s.inputs ≠ .rstDuring w p :: rest) → StepTo s t → t.inputs = s.inputs.tail := by
    intro s t hn ht
    cases ht with
    | waits h => simp [h]
    | resets rest h => simp [h]
    | cut w p rest u h hu => exact absurd h (hn w p rest)
    | illegal w rest h hw => simp [h]
    | nop rest h => simp [h]
    | openActive w rest h hw hp => simp [h]
    | openE rest h hp => simp [h]
    | openD rest h hp => simp [h]
    | outOfPhase w rest h hw hp => simp [h]
    | encPut w rest h hw hp hm =>
      rw [h]
      exact (encPutBody_ends (P := fun t => t.inputs = rest) (Q := fun t => t.inputs = rest) (fun _ _ _ hu => hu)
        (fun _ _ _ hu => hu) (fun x _ hu => append_inputs x hu) (fun _ => rfl) fun _ => rfl).finish
        (R := fun t => t.inputs = rest) (fun _ hu => hu) fun _ hu => hu
    | decSym w rest v h hw hp hm hr =>
      rw [h]
      exact (decSymBody_ends (P := fun t => t.inputs = rest) (Q := fun t => t.inputs = rest) (fun _ _ _ hu => hu)
        (fun x _ hu => append_inputs x hu) rfl).finish (R := fun t => t.inputs = rest) (fun _ hu => hu) fun _ hu => hu
    | decPad w rest h hw hp hm hr => simp [h, decPadBody, Run.finish]
    | decBad w rest h hw hp hm hr => simp [h]
    | encFin rest h hp hm =>
      rw [h]
      exact ((encFinAppends_ends (P := fun t => t.inputs = rest) (Q := fun t => t.inputs = rest) (fun _ _ _ hu => hu)
        (fun _ hu => hu) (fun x _ hu => append_inputs x hu) rfl).andThen fun _ hu => finalize_inputs hu).finish
        (R := fun t => t.inputs = rest) (fun _ hu => hu) fun _ hu => hu
    | decFin rest h hp hm =>
      rw [h]
      exact (finalize_inputs rfl).finish (R := fun t => t.inputs = rest) (fun _ hu => hu) fun _ hu => hu
  by_cases hc : ∃ w p rest, s.inputs = .rstDuring w p :: rest
  · obtain ⟨w, p, rest, hi⟩ := hc
    obtain ⟨u, hu, hs⟩ := step_spec { s with inputs := .cmd w :: rest }
    rw [step_rstDuring hi hu] at h
    cases h
    rw [hi]
    exact whole (by simp) hs
  · exact whole (fun w p rest hi => hc ⟨w, p, rest, hi⟩) (step_cases h)

end Sys2Proof.Machine
end

