-- ==== Sys2Proof/Laws/Message.lean ====
section
/-! SUPPORT. Bit strings and groups (40_encoder.md R126, 41_decoder.md R148), and runs of several steps. -/

namespace Sys2Proof

theorem ofBits_snoc (xs : List Bool) (b : Bool) : ofBits (xs ++ [b]) = 2 * ofBits xs + b.toNat := by
  simp [ofBits, List.foldl_append]

theorem sextets_append : ∀ xs ys : List Bool, 6 ∣ xs.length → sextets (xs ++ ys) = sextets xs ++ sextets ys
  | [], ys, _ => by simp [sextets]
  | [_], ys, h => by simp at h
  | [_, _], ys, h => by simp at h
  | [_, _, _], ys, h => by simp at h
  | [_, _, _, _], ys, h => by simp at h
  | [_, _, _, _, _], ys, h => by simp at h
  | a :: b :: c :: d :: e :: f :: xs, ys, h => by
    simp only [List.cons_append, sextets]
    rw [sextets_append xs ys (by simp only [List.length_cons] at h; omega)]

theorem sextets_six {xs : List Bool} (h : xs.length = 6) : sextets xs = [BitVec.ofNat 6 (ofBits xs)] := by
  match xs, h with
  | [a, b, c, d, e, f], _ => rfl

theorem sextets_length : ∀ xs : List Bool, (sextets xs).length = xs.length / 6
  | [] => rfl
  | [_] => by simp [sextets]
  | [_, _] => by simp [sextets]
  | [_, _, _] => by simp [sextets]
  | [_, _, _, _] => by simp [sextets]
  | [_, _, _, _, _] => by simp [sextets]
  | a :: b :: c :: d :: e :: f :: xs => by
    simp only [sextets, List.length_cons, sextets_length xs]; omega

theorem lowSextet_eq (a : BitVec 8) : lowSextet a = BitVec.ofNat 6 a.toNat := by
  apply BitVec.eq_of_toNat_eq; simp [lowSextet]

/-- The bits of a group are the group (00_scope.md R12). -/
theorem bitsMsbFirst_sextet : ∀ a b c d e f : Bool,
    Sextet.bitsMsbFirst (BitVec.ofNat 6 (ofBits [a, b, c, d, e, f])) = [a, b, c, d, e, f] := by decide

theorem ofBits_bitsMsbFirst : ∀ b : Byte, BitVec.ofNat 8 (ofBits b.bitsMsbFirst) = b := by decide +kernel

namespace Machine

/-- A run of one step more. -/
theorem run_succ {s t : State} {k : Nat} (h : step s = .next t) : core.run (k + 1) s = core.run k t := by
  have : core.step s = .next t := h
  simp only [Host.Core.run, this]

/-- Runs join. -/
theorem run_add {s t : State} {k m : Nat} (h : core.run k s = .next t) : core.run (k + m) s = core.run m t := by
  induction k generalizing s with
  | zero =>
    have : s = t := by simp only [Host.Core.run] at h; injection h
    rw [this, Nat.zero_add]
  | succ k ih =>
    obtain ⟨u, hu, -⟩ := step_spec s
    rw [run_succ hu] at h
    rw [Nat.add_right_comm, run_succ hu]
    exact ih h

end Machine

end Sys2Proof
end

