-- ==== Sys2Proof/Laws/PerInstr.lean ====
section
/-! SUPPORT. The family of statements made per instruction, about the instruction as syntax: its encoding has the
fields the classification reads (30_encoding.md R91, R95). -/

namespace Sys2Proof.Laws.LegalEncoding

/-- The word of a well-formed instruction is legal, in either mode (30_encoding.md R95, R97). -/
def Statement (i : Instr) : Prop :=
  i.wf = true → ∀ m, ∃ j, decode m (encode i) = .instr j

theorem nop : Statement .nop := fun _ m => ⟨.nop, by simp [decode, encode]⟩

theorem openE : Statement .openE := fun _ m => ⟨.openE, by simp [decode, encode]⟩

theorem openD : Statement .openD := fun _ m => ⟨.openD, by simp [decode, encode]⟩

/-- A PUT word is legal whatever its symbol (30_encoding.md R93). -/
theorem putWord_legal (m : Mode) (c : Byte) : ∃ j, decode m (cmdWord 0b10#2 c) = .instr j := by
  cases m <;> simp [decode]

/-- The FIN word is legal in either mode (30_encoding.md R95). -/
theorem finWord_legal (m : Mode) : ∃ j, decode m (cmdWord 0b11#2 0x00#8) = .instr j := by
  cases m <;> simp [decode]

theorem encPut (b : Byte) : Statement (.encPut b) := fun _ m => putWord_legal m b

theorem decSym (c : Byte) : Statement (.decSym c) := fun _ m => putWord_legal m c

theorem decPad : Statement .decPad := fun _ m => putWord_legal m pad

theorem decBad (c : Byte) : Statement (.decBad c) := fun _ m => putWord_legal m c

theorem encFin : Statement .encFin := fun _ m => finWord_legal m

theorem decFin : Statement .decFin := fun _ m => finWord_legal m

end Sys2Proof.Laws.LegalEncoding
end

