-- ==== Sys2Proof/Laws/Reset.lean ====
section
/-! SUPPORT. What reset in the middle of a command leaves of its events (70_reset_and_hazards.md R231). -/

namespace Sys2Proof.Machine

/-! ### One event cut short -/

@[simp] theorem cut_payload (n : Nat) (e : SinkEvent) : (e.cut n).payload = e.payload := by cases e <;> rfl

@[simp] theorem cut_isQuestion (n : Nat) (e : SinkEvent) : (e.cut n).isQuestion = e.isQuestion := by cases e <;> rfl

@[simp] theorem cut_answer (n : Nat) (e : SinkEvent) : (e.cut n).answer = none := by cases e <;> rfl

/-- What the sink keeps of a Write is no longer than the Write (93_implementation_defined.md U4). -/
theorem cut_wrote (n : Nat) (seq : List Byte) (ok : Bool) :
    ∃ kept, kept.length ≤ seq.length ∧ (SinkEvent.wrote seq ok).cut n = .writeCut seq kept :=
  ⟨_, length_landed_le n seq false, rfl⟩

/-! ### Answers and questions of joined events -/

@[simp] theorem answersIn_nil : answersIn [] = [] := rfl

@[simp] theorem questionsIn_nil : questionsIn [] = 0 := rfl

theorem answersIn_append (es fs : List SinkEvent) : answersIn (es ++ fs) = answersIn es ++ answersIn fs := by
  simp [answersIn]

theorem questionsIn_append (es fs : List SinkEvent) : questionsIn (es ++ fs) = questionsIn es + questionsIn fs := by
  simp [questionsIn]

@[simp] theorem answersIn_cut (n : Nat) (e : SinkEvent) : answersIn [e.cut n] = [] := by simp [answersIn]

/-! ### The events of a command -/

/-- Either the events that are over are left, or they and the next one, cut short. -/
theorem eventsBeforeReset_cases (p : ResetPoint) (n : Nat) (new : List SinkEvent) :
    (eventsBeforeReset p n new = new.take p.after ∧ (p.during = false ∨ new.length ≤ p.after)) ∨
    ∃ e, p.during = true ∧ new[p.after]? = some e ∧
      eventsBeforeReset p n new = new.take p.after ++ [e.cut (n + questionsIn (new.take p.after))] := by
  unfold eventsBeforeReset
  cases hd : p.during
  · exact .inl ⟨rfl, .inl rfl⟩
  · rcases Nat.lt_or_ge p.after new.length with h | h
    · refine .inr ⟨new[p.after], rfl, List.getElem?_eq_getElem h, ?_⟩
      simp [List.take_one, List.head?_drop, List.getElem?_eq_getElem h]
    · exact .inl ⟨by simp [List.drop_eq_nil_of_le h], .inr h⟩

/-- No event is added. -/
theorem length_eventsBeforeReset_le (p : ResetPoint) (n : Nat) (new : List SinkEvent) :
    (eventsBeforeReset p n new).length ≤ new.length := by
  rcases eventsBeforeReset_cases p n new with ⟨h, -⟩ | ⟨e, -, he, h⟩ <;> rw [h]
  · simp
  · have := (List.getElem?_eq_some_iff.1 he).1
    simp only [List.length_append, List.length_take, List.length_singleton]
    omega

/-- The answers that are left are those of the events that are over. -/
theorem answersIn_eventsBeforeReset (p : ResetPoint) (n : Nat) (new : List SinkEvent) :
    answersIn (eventsBeforeReset p n new) = answersIn (new.take p.after) := by
  rcases eventsBeforeReset_cases p n new with ⟨h, -⟩ | ⟨e, -, -, h⟩ <;> rw [h]
  rw [answersIn_append, answersIn_cut, List.append_nil]

/-- Each event that is left is one of the command's, whole or cut short. -/
theorem mem_eventsBeforeReset {p : ResetPoint} {n : Nat} {new : List SinkEvent} {e : SinkEvent}
    (h : e ∈ eventsBeforeReset p n new) : e ∈ new ∨ ∃ f k, f ∈ new ∧ e = f.cut k := by
  rcases eventsBeforeReset_cases p n new with ⟨hc, -⟩ | ⟨f, -, hf, hc⟩ <;> rw [hc] at h
  · exact .inl (List.mem_of_mem_take h)
  · rcases List.mem_append.1 h with h | h
    · exact .inl (List.mem_of_mem_take h)
    · exact .inr ⟨f, _, List.mem_of_getElem? hf, List.mem_singleton.1 h⟩

/-! ### The state -/

/-- Reset empties the buffer, so it keeps the canonical form. -/
theorem resetInside_bufWf (p : ResetPoint) (s t : State) : (resetInside p s t).bufWf := Nat.zero_le _

/-- Whether at a command boundary or inside a command, a step that resets leaves the core as reset does, and only adds
to the events. -/
theorem step_resets {s t : State} (hr : s.resets = true) (h : step s = .next t) :
    ∃ (es : List SinkEvent) (inputs : List Input) (answers : List Bool) (n : Nat),
      t = { hardReset s with events := s.events ++ es, inputs := inputs, answers := answers, freeCount := n } := by
  rcases hi : s.inputs with _ | ⟨w | _ | ⟨w, p⟩, rest⟩
  · simp [State.resets, hi] at hr
  · simp [State.resets, hi] at hr
  · rw [step_rst hi] at h
    cases h
    exact ⟨[], rest, s.answers, s.freeCount, by simp [hardReset]⟩
  · obtain ⟨u, hu, -⟩ := step_spec { s with inputs := .cmd w :: rest }
    rw [step_rstDuring hi hu] at h
    cases h
    exact ⟨_, _, _, _, rfl⟩

end Sys2Proof.Machine
end

