-- ==== Sys2Proof/Tests/Slice0.lean ====
section
/-! SUPPORT. Tests. An expected value comes from spec/95_test_vectors.md, by the name of its vector, or from the rule
named. A theorem witness_X shows states and operands that meet the hypotheses of Obligations.X. -/

namespace Sys2Proof.Tests

open Sys2Proof Sys2Proof.Machine

/-! ### Small states -/

/-- An active encode session whose sink says ok. -/
def enc0 : State :=
  { State.reset with
    phase := .active, sinkOpen := true, events := [.opened true], answers := [true, true, true, true] }

/-- An active encode session with something in the accumulator and the buffer. -/
def encAt (acc : BitVec 8) (n : BitVec 3) (read units : Nat) (buf : List Byte) : State :=
  { enc0 with acc := acc, bitCount := n, totalBytesRead := read, totalUnitsWritten := units, buf := buf }

/-- An active decode session with something in the accumulator and the buffer. -/
def decAt (acc : BitVec 8) (n : BitVec 3) (buf : List Byte) : State :=
  { enc0 with mode := .dec, acc := acc, bitCount := n, buf := buf }

/-- The same with another capacity and other answers of the sink. -/
def withSink (c : Nat) (answers : List Bool) (s : State) : State :=
  { s with params := { capacity := c, cntW := none }, answers := answers }

/-- The same with finite counts. -/
def withCounts (w : Nat) (s : State) : State := { s with params := { capacity := 5120, cntW := some w } }

/-- A session in FAULT, and one in DONE. -/
def faulted : State := { enc0 with phase := .fault, fault := .protocolError, rsp := some .protocolError }
def doneEnc : State :=
  { encAt 0#8 0#3 1 4 [0x5A#8, 0x67#8, pad, pad] with
    phase := .done, sinkOpen := false, sinkData := [0x5A#8, 0x67#8, pad, pad]
    events := [.opened true, .wrote [0x5A#8, 0x67#8, pad, pad] true, .closed] }

/-- The host's next command. -/
def given (w : CmdWord) (s : State) : State := s.pushCommand w

/-- The next state of an outcome. -/
def nextOf : Host.Outcome State Fault Refusal → Option State
  | .next s => some s
  | .fault _ => none
  | .refused _ => none

/-! ### Well-formed terms: an ill-formed term for each check -/

/-- R96: 0x0A is no alphabet code, and the pad symbol is not one either. -/
theorem test_decSym_takes_alphabet_codes_only :
    (Instr.decSym 0x5A#8).wf = true ∧ (Instr.decSym 0x0A#8).wf = false ∧ (Instr.decSym 0x3D#8).wf = false := by decide

/-- R96: neither an alphabet code nor the pad symbol is a bad symbol. -/
theorem test_decBad_takes_other_codes_only :
    (Instr.decBad 0x0A#8).wf = true ∧ (Instr.decBad 0x41#8).wf = false ∧ (Instr.decBad 0x3D#8).wf = false := by decide

/-- R95, the mode column. -/
theorem test_selectedIn_is_the_mode_column :
    (Instr.encPut 0x41#8).selectedIn .dec = false ∧ Instr.encFin.selectedIn .dec = false ∧
    (Instr.decSym 0x41#8).selectedIn .enc = false ∧ Instr.decPad.selectedIn .enc = false ∧
    (Instr.decBad 0x0A#8).selectedIn .enc = false ∧ Instr.decFin.selectedIn .enc = false := by decide

/-! ### Decoding, the words written out bit by bit from R91 to R95 -/

theorem test_decode_nop : decode .enc 0b0000000000#10 = .instr .nop := by decide
theorem test_decode_openE : decode .enc 0b0100000000#10 = .instr .openE := by decide
theorem test_decode_openD : decode .enc 0b0100000001#10 = .instr .openD := by decide
theorem test_decode_encPut : decode .enc 0b1001100110#10 = .instr (.encPut 0x66#8) := by decide
theorem test_decode_decSym : decode .dec 0b1001011010#10 = .instr (.decSym 0x5A#8) := by decide
theorem test_decode_decPad : decode .dec 0b1000111101#10 = .instr .decPad := by decide
theorem test_decode_decBad : decode .dec 0b1011111111#10 = .instr (.decBad 0xFF#8) := by decide
theorem test_decode_encFin : decode .enc 0b1100000000#10 = .instr .encFin := by decide
theorem test_decode_decFin : decode .dec 0b1100000000#10 = .instr .decFin := by decide

/-- I1 to I6. -/
theorem test_decode_reserved :
    decode .enc 0x001#10 = .illegal .nopWithData ∧ decode .enc 0x0FF#10 = .illegal .nopWithData ∧
    decode .enc 0x102#10 = .illegal .openWithData ∧ decode .dec 0x1FF#10 = .illegal .openWithData ∧
    decode .dec 0x301#10 = .illegal .finWithData ∧ decode .dec 0x3FF#10 = .illegal .finWithData := by decide

/-- Section 2.8: of the 256 PUT words, in decode mode 64, 1 and 191. -/
theorem test_decode_symbol_counts :
    (List.range 256).countP (fun n => (Instr.decSym (BitVec.ofNat 8 n)).wf) = 64 ∧
    (List.range 256).countP (fun n => (Instr.decBad (BitVec.ofNat 8 n)).wf) = 191 := by decide +kernel

/-- D33: the neighbours of the alphabet's ranges. -/
theorem test_rev_edges :
    rev 0x40#8 = .bad ∧ rev 0x5B#8 = .bad ∧ rev 0x60#8 = .bad ∧ rev 0x7B#8 = .bad ∧ rev 0x3A#8 = .bad ∧
    rev 0x2E#8 = .bad ∧ rev 0x2C#8 = .bad ∧ rev 0x41#8 = .val 0#6 ∧ rev 0x7A#8 = .val 51#6 := by decide

/-- A table word is read in the mode of the reset state (log 3), and a number above the word is none. -/
theorem test_decodeTableWord :
    decodeTableWord 16 0x266 = some (.encPut 0x66#8) ∧ decodeTableWord 16 0x101 = some .openD ∧
    decodeTableWord 16 0x102 = none ∧ decodeTableWord 16 0x400 = none := by decide

/-- The word given is what the next step runs: X2. -/
theorem test_withFetchWord :
    (nextOf (step (State.reset.withFetchWord 16 0x266))).map State.status = some 0x00083#20 := by decide

/-! ### Reset in the middle of a command -/

/-- The host's next command, and reset in the middle of it. -/
def givenCut (w : CmdWord) (after : Nat) (during : Bool) (s : State) : State :=
  { s with inputs := [.rstDuring w ⟨after, during⟩] }

/-- An encode session at FIN that will issue two Writes and a Close (F4's session, with a sink that says ok). -/
def finOfFo : State :=
  { enc0 with
    params := { capacity := 3, cntW := none }, acc := 0b1111#8, bitCount := 4#3, totalBytesRead := 2
    totalUnitsWritten := 2, buf := [0x5A#8, 0x6D#8] }

/-- R231: reset in the middle of the second Write; the first is answered, the second is not, and there is no Close. -/
theorem test_reset_in_a_write :
    (nextOf (step (givenCut 0x300#10 1 true finOfFo))).map (fun t => (t.status, t.rsp, t.len)) =
      some (0x00000#20, none, 0) ∧
    (nextOf (step (givenCut 0x300#10 1 true finOfFo))).map
      (fun t => (t.events.map SinkEvent.payload, answersIn t.events)) =
      some ([none, some [0x5A#8, 0x6D#8, 0x38#8], some [0x3D#8]], [true, true]) := by decide

/-- R231: reset after the first Write and before the second. -/
theorem test_reset_between_writes :
    (nextOf (step (givenCut 0x300#10 1 false finOfFo))).map (fun t => (t.phase, t.events, t.answers, t.inputs)) =
      some (.idle, [.opened true, .wrote [0x5A#8, 0x6D#8, 0x38#8] true], [true, true, true], []) := by decide

/-! ### One step of each instruction -/

/-- X1. -/
theorem test_nop_idle : (nextOf (exec .nop State.reset)).map (fun t => (t.phase, t.rsp)) = some (.idle, some .ok) := by
  decide

/-- X4, the NOP in FAULT. -/
theorem test_nop_fault :
    (nextOf (exec .nop faulted)).map (fun t => (t.phase, t.fault, t.rsp)) =
      some (.fault, .protocolError, some .ok) := by decide

/-- Section 2.11, after OPEN.E. -/
theorem test_openE :
    (nextOf (exec .openE { doneEnc with overflowed := true })).map (fun t => (t.status, t.buf, t.totalUnitsWritten)) =
      some (0x00001#20, [], 0) := by decide

/-- F7. -/
theorem test_openE_fails :
    (nextOf (exec .openE { State.reset with answers := [false] })).map (fun t => (t.status, t.rsp)) =
      some (0x00023#20, some .sinkOpenFailure) := by decide

/-- Section 2.11, after OPEN.D. -/
theorem test_openD : (nextOf (exec .openD doneEnc)).map State.status = some 0x00005#20 := by decide

/-- X5, the OPEN in a session. -/
theorem test_openD_in_session :
    (nextOf (exec .openD enc0)).map (fun t => (t.phase, t.mode, t.rsp)) =
      some (.fault, .enc, some .protocolError) := by decide

/-- E3. -/
theorem test_encPut :
    (nextOf (exec (.encPut 0x6F#8) (encAt 0b00001111#8 4#3 2 2 [0x5A#8, 0x6D#8]))).map
      (fun t => (t.acc, t.bitCount, t.totalBytesRead, t.totalUnitsWritten, t.buf)) =
      some (0#8, 0#3, 3, 4, [0x5A#8, 0x6D#8, 0x39#8, 0x76#8]) := by decide

/-- F1. -/
theorem test_encPut_fails :
    (nextOf (exec (.encPut 0x62#8)
        (withSink 4 [false] (encAt 0#8 0#3 3 4 [0x5A#8, 0x6D#8, 0x39#8, 0x76#8])))).map
      (fun t => (t.status, t.totalBytesRead, t.totalUnitsWritten, t.len)) = some (0x18543#20, 4, 4, 4) := by decide

/-- E22. -/
theorem test_encFin :
    (nextOf (exec .encFin (encAt 0b00001111#8 4#3 2 2 [0x5A#8, 0x6D#8]))).map
      (fun t => (t.status, t.totalUnitsWritten, t.sinkData)) =
      some (0x00002#20, 4, [0x5A#8, 0x6D#8, 0x38#8, 0x3D#8]) := by decide

/-- F5. -/
theorem test_encFin_fails :
    (nextOf (exec .encFin (withSink 2 [false] (encAt 0b00001111#8 4#3 2 2 [0x5A#8, 0x6D#8])))).map
      (fun t => (t.status, t.totalUnitsWritten, t.buf)) = some (0x3C443#20, 2, [0x5A#8, 0x6D#8]) := by decide

/-- D2. -/
theorem test_decSym :
    (nextOf (exec (.decSym 0x67#8) (decAt 0b00011001#8 6#3 []))).map (fun t => (t.acc, t.bitCount, t.buf)) =
      some (0#8, 4#3, [0x66#8]) := by decide

/-- F6. -/
theorem test_decSym_fails :
    (nextOf (exec (.decSym 0x6D#8)
        (withSink 3 [false] (decAt 0b00011000#8 6#3 [0x66#8, 0x6F#8, 0x6F#8])))).map
      (fun t => (t.status, t.len, t.sinkOpen)) = some (0x62747#20, 3, true) := by decide

/-- Section 2.4, from (00011001, 6). -/
theorem test_decPad :
    (nextOf (exec .decPad (decAt 0b00011001#8 6#3 []))).map (fun t => (t.acc, t.bitCount)) =
      some (0b00000110#8, 4#3) := by decide

/-- Section 2.4, from (00000000, 0). -/
theorem test_decPad_empty :
    (nextOf (exec .decPad (decAt 0#8 0#3 []))).map (fun t => (t.acc, t.bitCount, t.rsp)) =
      some (0#8, 0#3, some .ok) := by decide

/-- D31. -/
theorem test_decBad :
    (nextOf (exec (.decBad 0x20#8) (decAt 0b00000110#8 4#3 [0x66#8]))).map (fun t => (t.status, t.len)) =
      some (0x06467#20, 1) := by decide

/-- D16. -/
theorem test_decFin :
    (nextOf (exec .decFin (decAt 0b00011001#8 6#3 []))).map (fun t => (t.status, t.events)) =
      some (0x19616#20, [.opened true, .closed]) := by decide

/-- D10, its FIN. -/
theorem test_decFin_drains :
    (nextOf (exec .decFin (decAt 0#8 0#3 [0x66#8]))).map (fun t => (t.status, t.events)) =
      some (0x00006#20, [.opened true, .wrote [0x66#8] true, .closed]) := by decide

/-! ### Whole messages, section 2.2 and section 2.4 -/

theorem test_encMessage :
    encMessage [0x14#8, 0xFB#8, 0x9C#8, 0x03#8, 0xD9#8, 0x7E#8] =
      [0x46#8, 0x50#8, 0x75#8, 0x63#8, 0x41#8, 0x39#8, 0x6C#8, 0x2B#8] ∧
    encMessage [0xFF#8] = [0x2F#8, 0x77#8, 0x3D#8, 0x3D#8] ∧ encMessage [] = [] := by decide

/-- D22 and D16. -/
theorem test_decMessage :
    decMessage [0x5A#8, 0x67#8, 0x3D#8, 0x41#8] = [0x66#8, 0x00#8] ∧
    decFold [0x5A#8] = ([false, true, true, false, false, true], []) := by decide

/-- R125 and section 2.10. -/
theorem test_lengths :
    [0, 1, 2, 3, 4, 7, 27, 3840, 3841].map encodedLength = [0, 4, 4, 4, 8, 12, 36, 5120, 5124] ∧
    [2, 3, 4, 8, 16, 32].map (fun w => (Params.mk 1 (some w)).maxN) =
      [some 0, some 3, some 9, some 189, some 49149, some 3221225469] ∧ (Params.mk 1 none).maxN = none := by decide

/-- R6: `LEN_W` is 13 at the default capacity. -/
theorem test_lenW :
    Params.default.lenW = 13 ∧ (Params.mk 1 none).lenW = 1 ∧ (Params.mk 3 none).lenW = 2 ∧
    (Params.mk 4 none).lenW = 3 := by decide +kernel

/-! ### Witnesses: states and operands that meet the hypotheses of each obligation -/

/-- A session of the mode is active. -/
abbrev inA (m : Mode) (s : State) : Prop := s.phase = .active ∧ s.mode = m

/-- After `foo` with the `v` still in the buffer, after `f`, and after `fo`. -/
def after3 : State := encAt 0#8 0#3 3 4 [0x76#8]
def after1 : State := encAt 0b10#8 2#3 1 1 [0x5A#8]
def after2 : State := encAt 0b1111#8 4#3 2 2 [0x6D#8]

/-- After `fo` with both characters in the buffer. -/
def fo : State := encAt 0b1111#8 4#3 2 2 [0x5A#8, 0x6D#8]

/-- ENC.FIN after the last group and `j` pads, and a Write of it that fails there for the first time. -/
def finSoFar (s : State) (j : Nat) : State :=
  { storedAll s (alphabet ((s.acc <<< (6 - s.bitCount.toNat)).extractLsb' 0 6) :: List.replicate j pad) with
    acc := 0#8, bitCount := 0#3, totalUnitsWritten := s.totalUnitsWritten + 1 + j }
abbrev failsAfter (s : State) (j : Nat) : Prop :=
  inA .enc s ∧ s.totalUnitsWritten = 4 * s.totalBytesRead / 3 ∧ s.bitCount.toNat = 2 * (s.totalBytesRead % 3) ∧
    s.bitCount ≠ 0#3 ∧ s.answersOkTo (finSoFar s j) ∧ (finSoFar s j).answerAt 0 = false

/-- At both ends of each range. -/
theorem witness_AlphabetIsTheSpecTable :
    alphabet 0#6 = 0x41#8 ∧ alphabet 25#6 = 0x5A#8 ∧ alphabet 26#6 = 0x61#8 ∧ alphabet 51#6 = 0x7A#8 ∧
    alphabet 52#6 = 0x30#8 ∧ alphabet 61#6 = 0x39#8 := by decide

theorem witness_DecodeOfEncodeIsTheInstruction :
    ([(Instr.nop, Mode.dec), (.openE, .enc), (.openD, .enc), (.encPut 0xFF#8, .enc), (.decSym 0x2F#8, .dec),
      (.decPad, .dec), (.decBad 0x00#8, .dec), (.encFin, .enc), (.decFin, .dec)]).all
      (fun p => p.1.wf && p.1.selectedIn p.2) = true := by decide

theorem witness_EncodeOfDecodeIsTheWord : decode .dec 0x23D#10 = .instr .decPad := by decide

theorem witness_ReservedWordsAreTheIllegalOnes :
    reservedWord 0x001#10 ∧ reservedWord 0x3FF#10 ∧ reservedWord 0x102#10 ∧ ¬ reservedWord 0x101#10 ∧
    ¬ reservedWord 0x200#10 ∧ ¬ reservedWord 0x300#10 := by decide

theorem witness_StepRunsDecodedInstruction :
    (given 0x23D#10 (decAt 0#8 4#3 [])).inputs = [.cmd 0x23D#10] ∧
    decode (given 0x23D#10 (decAt 0#8 4#3 [])).mode 0x23D#10 = .instr .decPad := by decide

/-- Both fields of the outcome differ with the phase: in a session, and in FAULT. -/
theorem witness_ReservedWordRaisesIllegalCommand :
    reservedWord 0x3FF#10 ∧
    (nextOf (step (given 0x3FF#10 enc0))).map State.fault = some .illegalCommand ∧
    (nextOf (step (given 0x3FF#10 faulted))).map State.fault = some .protocolError := by decide

/-- At a command boundary; and inside a FIN with two Writes and a Close: in the middle of a Write, between the two, in the
middle of the Close, and past the end; and inside an OPEN. -/
theorem witness_ResetClearsTheCore :
    ({ faulted with inputs := [.rst] } : State).inputs = [.rst] ∧
    (nextOf (step (given 0x300#10 finOfFo))).map (fun t => t.events.drop 1) =
      some [.wrote [0x5A#8, 0x6D#8, 0x38#8] true, .wrote [0x3D#8] true, .closed] ∧
    (nextOf (step (givenCut 0x300#10 2 true finOfFo))).map (fun t => t.events.drop 3) = some [.closed] ∧
    (nextOf (step (givenCut 0x300#10 3 true finOfFo))).map (fun t => t.events.length) = some 4 ∧
    (nextOf (step (givenCut 0x101#10 0 true doneEnc))).map (fun t => t.events.drop 3) = some [.openCut] := by decide

theorem witness_WaitingBlockKeepsItsState : enc0.inputs = [] := by decide

theorem witness_ExecRefusesOnlyWhereDispatchSelectsAnother :
    (enc0.phase = .active ∧ isPutOrFin .decFin = true ∧
      ¬ ((Instr.decFin).wf = true ∧ Instr.decFin.selectedIn enc0.mode = true)) ∧
    ¬ (enc0.phase = .active ∧ isPutOrFin .encFin = true ∧
      ¬ ((Instr.encFin).wf = true ∧ Instr.encFin.selectedIn enc0.mode = true)) := by decide

theorem witness_OpenEStartsAnEncodeSession : doneEnc.phase ≠ .active ∧ enc0.phase = .active := by decide

theorem witness_OpenDStartsADecodeSession : faulted.phase ≠ .active ∧ (decAt 0#8 0#3 []).phase = .active := by decide

theorem witness_OutOfPhaseCommandRaisesProtocolError :
    (isPutOrFin (.decBad 0x0A#8) = true ∧ doneEnc.phase ≠ .active) ∧ enc0.phase = .active := by decide

/-- NOP, a reserved word, and a word of neither kind. -/
theorem witness_FaultPhaseKeepsAllButResponse :
    (given 0x000#10 faulted).phase = .fault ∧ (given 0x000#10 faulted).inputs = [.cmd 0x000#10] ∧
    ¬ openCommand 0x000#10 ∧ (¬ openCommand 0x102#10 ∧ reservedWord 0x102#10) ∧
    (¬ openCommand 0x300#10 ∧ ¬ reservedWord 0x300#10) := by decide

theorem witness_DonePhaseKeepsTheResult :
    doneEnc.phase = .done ∧ (given 0x266#10 doneEnc).inputs = [.cmd 0x266#10] ∧ ¬ openCommand 0x266#10 ∧
    ¬ openCommand 0x301#10 ∧ reservedWord 0x301#10 := by decide

/-- One state for each clause of the rule. -/
theorem witness_PhaseMovesAlongTheArcs :
    ((nextOf (step (given 0x001#10 enc0))).isSome ∧ reservedWord 0x001#10) ∧
    (nextOf (step (given 0x000#10 doneEnc))).isSome ∧
    (nextOf (step (given 0x101#10 enc0))).map State.phase = some .fault ∧
    (nextOf (step (given 0x101#10 doneEnc))).map State.phase = some .active ∧
    (nextOf (step (given 0x101#10 (withSink 2 [false] doneEnc)))).map State.phase = some .fault ∧
    (nextOf (step (given 0x266#10 doneEnc))).map State.phase = some .fault ∧
    (nextOf (step (given 0x266#10 enc0))).map State.phase = some .active ∧
    (nextOf (step (given 0x220#10 (decAt 0#8 0#3 [])))).map State.rsp = some (some .invalidSymbol) ∧
    (nextOf (step (given 0x261#10 (withCounts 2 enc0)))).map State.rsp = some (some .counterOverflow) ∧
    (nextOf (step (given 0x300#10 enc0))).map State.phase = some .done ∧
    (nextOf (step (given 0x300#10 (withSink 2 [false] (encAt 0#8 0#3 3 4 [0x5A#8]))))).map State.rsp =
      some (some .sinkWriteFailure) ∧
    State.resets { faulted with inputs := [.rst] } = true ∧ (givenCut 0x300#10 1 true finOfFo).resets = true := by decide

theorem witness_AppendStoresAfterMakingRoom :
    (withSink 2 [true] after1).buf.length ≠ (withSink 2 [true] after1).params.capacity ∧
    ((withSink 1 [true] after1).buf.length = (withSink 1 [true] after1).params.capacity ∧
      (withSink 1 [true] after1).answerAt 0 = true) ∧
    ((withSink 1 [false] after1).buf.length = (withSink 1 [false] after1).params.capacity ∧
      (withSink 1 [false] after1).answerAt 0 = false) := by decide

theorem witness_DrainWritesWhatRemains :
    enc0.buf = [] ∧ (after1.buf ≠ [] ∧ after1.answerAt 0 = true) ∧
    ((withSink 4 [false] after1).buf ≠ [] ∧ (withSink 4 [false] after1).answerAt 0 = false) := by decide

/-- The three counts of bits; the third with one flush (`C` is 2, and the sink is asked once) and with two (`C` is 1). -/
theorem witness_EncPutAbsorbsOneByte :
    (inA .enc after3 ∧ after3.params.maxN ≠ some after3.totalBytesRead ∧ after3.bitCount = 0#3 ∧
      after3.answersOkTo (stored after3 (alphabet ((0x66#8).extractLsb' 2 6)))) ∧
    (inA .enc after1 ∧ after1.params.maxN ≠ some after1.totalBytesRead ∧ after1.bitCount = 2#3 ∧
      after1.answersOkTo (stored after1 (alphabet (after1.acc.extractLsb' 0 2 ++ (0x6F#8).extractLsb' 4 4)))) ∧
    [withSink 2 [true, false] after2, withSink 1 [true, true] after2].all (fun s =>
      decide (inA .enc s ∧ s.params.maxN ≠ some 2 ∧ s.bitCount = 4#3 ∧
        s.answersOkTo (stored (stored s (alphabet (s.acc.extractLsb' 0 4 ++ (0x6F#8).extractLsb' 6 2)))
          (alphabet ((0x6F#8).extractLsb' 0 6))))) = true := by decide

theorem witness_CounterLimitIsTheLargestThatFits :
    (Params.mk 1 (some 3)).cntW = some 3 ∧ encodedLength 3 ≤ 2 ^ 3 - 1 ∧ ¬ encodedLength 4 ≤ 2 ^ 3 - 1 ∧
    Params.default.cntW = none := by decide

theorem witness_EncPutRefusesTheByteAtTheLimit :
    inA .enc (withCounts 2 enc0) ∧
    (withCounts 2 enc0).params.maxN = some (withCounts 2 enc0).totalBytesRead := by decide

/-- A failure at the first character, and one at the second: `C` is 1 and the second answer is fail. -/
theorem witness_EncPutWriteFailureLeavesTheGroup :
    (inA .enc (withSink 1 [false] after1) ∧ (withSink 1 [false] after1).params.maxN ≠ some 1 ∧
      (withSink 1 [false] after1).bitCount = 2#3 ∧
      (withSink 1 [false] after1).buf.length = (withSink 1 [false] after1).params.capacity ∧
      (withSink 1 [false] after1).answerAt 0 = false) ∧
    (inA .enc (withSink 1 [true, false] after2) ∧ (withSink 1 [true, false] after2).params.maxN ≠ some 2 ∧
      (withSink 1 [true, false] after2).bitCount = 4#3 ∧
      (withSink 1 [true, false] after2).answersOkTo (stored (withSink 1 [true, false] after2) 0x39#8) ∧
      alphabet ((withSink 1 [true, false] after2).acc.extractLsb' 0 4 ++ (0x6F#8).extractLsb' 6 2) = 0x39#8 ∧
      (stored (withSink 1 [true, false] after2) 0x39#8).buf.length =
        (stored (withSink 1 [true, false] after2) 0x39#8).params.capacity ∧
      (stored (withSink 1 [true, false] after2) 0x39#8).answerAt 0 = false) := by decide

/-- Nothing to pad and nothing to drain, where the sink would say fail; room for every APPEND, where it is asked once; and
a flush before the drain. -/
theorem witness_EncFinPadsDrainsAndCloses :
    (inA .enc (withSink 9 [false] enc0) ∧ (withSink 9 [false] enc0).totalUnitsWritten = 4 * 0 / 3 ∧
      (withSink 9 [false] enc0).totalBytesRead % 3 = 0 ∧ (withSink 9 [false] enc0).bitCount = 0#3 ∧
      (withSink 9 [false] enc0).answersOkTo (drained (withSink 9 [false] enc0))) ∧
    (inA .enc (withSink 9 [true, false] after1) ∧ (withSink 9 [true, false] after1).totalUnitsWritten = 4 * 1 / 3 ∧
      (withSink 9 [true, false] after1).totalBytesRead % 3 = 1 ∧ (withSink 9 [true, false] after1).bitCount = 2#3 ∧
      (withSink 9 [true, false] after1).answersOkTo (drained
        { storedAll (withSink 9 [true, false] after1) [alphabet (after1.acc.extractLsb' 0 2 ++ 0#4), pad, pad] with
          acc := 0#8, bitCount := 0#3, totalUnitsWritten := encodedLength 1 })) ∧
    (inA .enc (withSink 2 [true, true] after2) ∧ (withSink 2 [true, true] after2).totalUnitsWritten = 4 * 2 / 3 ∧
      (withSink 2 [true, true] after2).totalBytesRead % 3 = 2 ∧ (withSink 2 [true, true] after2).bitCount = 4#3 ∧
      (withSink 2 [true, true] after2).answersOkTo (drained
        { storedAll (withSink 2 [true, true] after2) [alphabet (after2.acc.extractLsb' 0 4 ++ 0#2), pad] with
          acc := 0#8, bitCount := 0#3, totalUnitsWritten := encodedLength 2 })) := by decide

/-- The hypotheses on the counts, then the clauses: the flush for the last group, the flush for a pad (F3), the drain
after no flush (F2) and after one answered ok (F4), and a drain with nothing to append. -/
theorem witness_EncFinWriteFailureKeepsTheAppendsMade :
    (inA .enc (withSink 1 [false] after2) ∧ (withSink 1 [false] after2).totalUnitsWritten = 4 * 2 / 3 ∧
      (withSink 1 [false] after2).bitCount.toNat = 2 * (2 % 3) ∧ (withSink 1 [false] after2).bitCount ≠ 0#3 ∧
      (withSink 1 [false] after2).buf.length = (withSink 1 [false] after2).params.capacity ∧
      (withSink 1 [false] after2).answerAt 0 = false) ∧
    (failsAfter (withSink 3 [false] fo) 0 ∧ 0 < 3 - fo.totalBytesRead % 3 ∧
      (finSoFar (withSink 3 [false] fo) 0).buf.length = 3) ∧
    (failsAfter (withSink 9 [false] after1) 2 ∧ 2 = 3 - after1.totalBytesRead % 3) ∧
    (failsAfter (withSink 3 [true, false] fo) 1 ∧ 1 = 3 - fo.totalBytesRead % 3 ∧
      (finSoFar (withSink 3 [true, false] fo) 1).buf = [pad] ∧
      (finSoFar (withSink 3 [true, false] fo) 1).overflowed = true) ∧
    (inA .enc (withSink 9 [false] after3) ∧ (withSink 9 [false] after3).totalUnitsWritten = 4 * 3 / 3 ∧
      (withSink 9 [false] after3).bitCount.toNat = 2 * (3 % 3) ∧ (withSink 9 [false] after3).bitCount = 0#3 ∧
      (withSink 9 [false] after3).buf ≠ [] ∧ (withSink 9 [false] after3).answerAt 0 = false) := by decide

theorem witness_DecSymAbsorbsOneSymbol :
    rev 0x6D#8 = .val 38#6 ∧
    (inA .dec (decAt 0#8 0#3 []) ∧ (decAt 0#8 0#3 []).bitCount = 0#3 ∧ (decAt 0#8 0#3 []).acc = 0#8) ∧
    (inA .dec (decAt 0b1#8 2#3 []) ∧ (decAt 0b1#8 2#3 []).bitCount = 2#3 ∧
      (decAt 0b1#8 2#3 []).answersOkTo (stored (decAt 0b1#8 2#3 []) ((0b1#8).extractLsb' 0 2 ++ 38#6))) ∧
    (inA .dec (decAt 0b110#8 4#3 []) ∧ (decAt 0b110#8 4#3 []).bitCount = 4#3 ∧
      (decAt 0b110#8 4#3 []).answersOkTo
        (stored (decAt 0b110#8 4#3 []) ((0b110#8).extractLsb' 0 4 ++ (38#6).extractLsb' 2 4))) ∧
    (inA .dec (withSink 1 [true] (decAt 0b11000#8 6#3 [0x6F#8])) ∧
      (withSink 1 [true] (decAt 0b11000#8 6#3 [0x6F#8])).bitCount = 6#3 ∧
      (withSink 1 [true] (decAt 0b11000#8 6#3 [0x6F#8])).answersOkTo
        (stored (withSink 1 [true] (decAt 0b11000#8 6#3 [0x6F#8]))
          ((0b11000#8).extractLsb' 0 6 ++ (38#6).extractLsb' 4 2))) := by decide

/-- At the least and the greatest count. -/
theorem witness_DecSymWriteFailureLeavesTheByte :
    rev 0x6D#8 = .val 38#6 ∧
    (inA .dec (withSink 1 [false] (decAt 0b11000#8 6#3 [0x6F#8])) ∧
      (withSink 1 [false] (decAt 0b11000#8 6#3 [0x6F#8])).bitCount = 6#3 ∧
      (withSink 1 [false] (decAt 0b11000#8 6#3 [0x6F#8])).buf.length = 1 ∧
      (withSink 1 [false] (decAt 0b11000#8 6#3 [0x6F#8])).params.capacity = 1 ∧
      (withSink 1 [false] (decAt 0b11000#8 6#3 [0x6F#8])).answerAt 0 = false) ∧
    (inA .dec (withSink 1 [false] (decAt 0b1#8 2#3 [0x6F#8])) ∧
      (withSink 1 [false] (decAt 0b1#8 2#3 [0x6F#8])).bitCount = 2#3 ∧
      (withSink 1 [false] (decAt 0b1#8 2#3 [0x6F#8])).buf.length = 1 ∧
      (withSink 1 [false] (decAt 0b1#8 2#3 [0x6F#8])).answerAt 0 = false) := by decide

/-- Below two bits and from two on. -/
theorem witness_DecPadTakesTwoBitsBack :
    (inA .dec (decAt 0b1#8 1#3 []) ∧ (nextOf (exec .decPad (decAt 0b1#8 1#3 []))).map State.bitCount = some 0#3) ∧
    (inA .dec (decAt 0b1#8 2#3 []) ∧ (nextOf (exec .decPad (decAt 0b1#8 2#3 []))).map State.bitCount = some 0#3) := by
  decide

theorem witness_DecBadRaisesInvalidSymbol :
    (decAt 0#8 0#3 []).phase = .active ∧ (decAt 0#8 0#3 []).mode = .dec ∧ rev 0x0A#8 = .bad := by decide

/-- Bits left and an empty buffer, whatever the sink would say; none left and one question; the drain answered fail. -/
theorem witness_DecFinDrainsAndCloses :
    (inA .dec (withSink 2 [false] (decAt 0b1#8 2#3 [])) ∧
      (withSink 2 [false] (decAt 0b1#8 2#3 [])).answersOkTo (drained (withSink 2 [false] (decAt 0b1#8 2#3 []))) ∧
      (drained (decAt 0b1#8 2#3 [])).trailing) ∧
    (inA .dec (withSink 2 [true] (decAt 0#8 0#3 [0x66#8])) ∧
      (withSink 2 [true] (decAt 0#8 0#3 [0x66#8])).answersOkTo (drained (withSink 2 [true] (decAt 0#8 0#3 [0x66#8]))) ∧
      (drained (decAt 0#8 0#3 [])).trailing = false) ∧
    (inA .dec (withSink 2 [false] (decAt 0#8 0#3 [0x66#8])) ∧ (withSink 2 [false] (decAt 0#8 0#3 [0x66#8])).buf ≠ [] ∧
      (withSink 2 [false] (decAt 0#8 0#3 [0x66#8])).answerAt 0 = false) := by decide

/-- A command that issues no Write, and one that does. -/
theorem witness_EncPutFrame :
    (inA .enc after1 ∧ (nextOf (exec (.encPut 0x66#8) after1)).map State.events = some after1.events) ∧
    (inA .enc (withSink 1 [true] after3) ∧
      (nextOf (exec (.encPut 0x66#8) (withSink 1 [true] after3))).map State.overflowed = some true) := by decide

theorem witness_DecSymFrame :
    inA .dec (decAt 0b1#8 2#3 [0x66#8]) ∧
    (nextOf (exec (.decSym 0x66#8) (decAt 0b1#8 2#3 [0x66#8]))).map State.events =
      some (decAt 0b1#8 2#3 [0x66#8]).events := by decide

/-- Each end of each FIN; ENC.FIN with one Write, and with two. -/
theorem witness_FinFrame :
    ((nextOf (exec .encFin after1)).map (fun t => answersIn (t.events.drop 1)) = some [true] ∧
      (nextOf (exec .encFin (withSink 3 [true, false] fo))).map (fun t => answersIn (t.events.drop 1)) =
        some [true, false]) ∧
    (inA .enc after1 ∧ (nextOf (exec .encFin after1)).map State.phase = some .done) ∧
    (inA .enc (withSink 2 [false] after3) ∧
      (nextOf (exec .encFin (withSink 2 [false] after3))).map State.phase = some .fault) ∧
    (inA .dec (decAt 0#8 0#3 [0x66#8]) ∧
      (nextOf (exec .decFin (decAt 0#8 0#3 [0x66#8]))).map State.phase = some .done) ∧
    (inA .dec (withSink 2 [false] (decAt 0#8 0#3 [0x66#8])) ∧
      (nextOf (exec .decFin (withSink 2 [false] (decAt 0#8 0#3 [0x66#8])))).map State.phase = some .fault) := by decide

/-- An active session, which a PUT then moves. -/
theorem witness_StepKeepsDataPathInvariant :
    DataPathInv (given 0x266#10 enc0) ∧
    (nextOf (step (given 0x266#10 enc0))).map State.totalBytesRead = some 1 := by
  refine ⟨?_, by decide⟩
  constructor <;> simp [given, enc0, State.reset, Params.default, Params.maxN, Params.maxCount, encodedLength]

/-- A full buffer, which a PUT then flushes. -/
theorem witness_StepKeepsBufferInvariant :
    (withSink 1 [true] (encAt 0#8 0#3 3 4 [0x76#8])).params.wf ∧
    BufferInv (given 0x266#10 (withSink 1 [true] (encAt 0#8 0#3 3 4 [0x76#8]))) ∧
    (nextOf (step (given 0x266#10 (withSink 1 [true] (encAt 0#8 0#3 3 4 [0x76#8]))))).map State.buf =
      some [0x5A#8] := by
  refine ⟨by decide, ?_, by decide⟩
  constructor <;> simp [given, withSink, encAt, enc0, State.reset]

theorem witness_StepKeepsSinkOrder :
    SinkOrderInv (given 0x300#10 enc0) ∧
    (nextOf (step (given 0x300#10 enc0))).map (fun t => sinkPhase t.events) = some .quiet := by
  refine ⟨?_, by decide⟩
  constructor <;> simp [given, enc0, State.reset, sinkPhase, SinkPhase.after, recordOf, recordAfter]

/-- Each premise of the rule: a start, a PUT, a FIN, and a PUT at the limit. -/
theorem witness_CountsMoveOnlyInEncodeSessions :
    (given 0x100#10 doneEnc).startsAnew = true ∧ (given 0x266#10 enc0).putsIn .enc = true ∧
    (given 0x266#10 enc0).startsAnew = false ∧ (given 0x300#10 enc0).finsIn .enc = true ∧
    (given 0x000#10 enc0).putsIn .enc = false ∧ (given 0x000#10 enc0).finsIn .enc = false ∧
    (nextOf (step (given 0x261#10 (withCounts 2 enc0)))).map State.totalBytesRead = some 0 := by decide

theorem witness_ModeMovesOnlyAtSessionStart :
    (given 0x266#10 enc0).startsAnew = false ∧
    (nextOf (step (given 0x101#10 doneEnc))).map State.mode = some .dec := by decide

/-- A PUT that flushes; a FIN that drains a full buffer, which is no flush; and a FIN that flushes for a pad. -/
theorem witness_OverflowedMarksACapacityFlush :
    (given 0x266#10 (withSink 1 [true] after3)).startsAnew = false ∧
    (nextOf (step (given 0x266#10 (withSink 1 [true] after3)))).map State.overflowed = some true ∧
    (nextOf (step (given 0x300#10 (withSink 1 [true] after3)))).map (fun t => (t.overflowed, t.events.drop 1)) =
      some (false, [.wrote [0x76#8] true, .closed]) ∧
    (given 0x300#10 (withSink 1 [true] after3)).finsIn .enc = true ∧
    (nextOf (step (given 0x300#10 finOfFo))).map State.overflowed = some true ∧
    (given 0x100#10 doneEnc).startsAnew = true ∧ (givenCut 0x300#10 1 true finOfFo).startsAnew = true := by decide

theorem witness_FaultIsStickyUntilOpenOrReset :
    (given 0x266#10 faulted).phase = .fault ∧ (given 0x266#10 faulted).startsAnew = false ∧
    (given 0x100#10 faulted).startsAnew = true := by decide

theorem witness_SinkIsAppendOnly :
    (given 0x300#10 (encAt 0#8 0#3 3 4 [0x76#8])).startsAnew = false ∧
    (nextOf (step (given 0x300#10 (encAt 0#8 0#3 3 4 [0x76#8])))).map State.sinkData = some [0x76#8] ∧
    (answersIn [SinkEvent.wrote [0x76#8] true, .closed])[0]? = some true ∧ enc0.answerAt 0 = true ∧
    (givenCut 0x300#10 1 true finOfFo).resets = true ∧
    (nextOf (step (givenCut 0x300#10 1 true finOfFo))).map (fun t => (t.freeCount, t.answers.length)) = some (2, 3) := by
  decide

/-- A flush of a PUT, the drain of a FIN, and a Write that reset cuts short. -/
theorem witness_WriteSizesAreCapacityOrRemainder :
    ((withSink 1 [true] after3).params.wf ∧ BufferInv (given 0x266#10 (withSink 1 [true] after3)) ∧
      (nextOf (step (given 0x266#10 (withSink 1 [true] after3)))).map State.events =
        some ((withSink 1 [true] after3).events ++ [.wrote [0x76#8] true])) ∧
    (after3.params.wf ∧ BufferInv (given 0x300#10 after3) ∧
      (nextOf (step (given 0x300#10 after3))).map State.events =
        some (after3.events ++ [.wrote [0x76#8] true, .closed])) ∧
    (finOfFo.params.wf ∧ BufferInv (givenCut 0x300#10 1 true finOfFo) ∧
      (nextOf (step (givenCut 0x300#10 1 true finOfFo))).map (fun t => (t.events.drop 2).map SinkEvent.payload) =
        some [some [0x3D#8]]) := by
  refine ⟨⟨by decide, ?_, by decide⟩, ⟨by decide, ?_, by decide⟩, by decide, ?_, by decide⟩
  · constructor <;> simp [given, withSink, after3, encAt, enc0, State.reset]
  · constructor <;> simp [given, after3, encAt, enc0, State.reset, Params.default]
  · constructor <;> simp [givenCut, finOfFo, enc0, State.reset]

/-- The bound is met: at `C` = 1 an ENC.PUT of two characters issues two Writes. -/
theorem witness_WritesPerCommandAreBounded :
    (withSink 1 [true, true] after2).params.wf ∧
    (DataPathInv (given 0x26F#10 (withSink 1 [true, true] after2)) ∧
      BufferInv (given 0x26F#10 (withSink 1 [true, true] after2)) ∧
      (given 0x26F#10 (withSink 1 [true, true] after2)).putsIn .enc = true ∧
      (nextOf (step (given 0x26F#10 (withSink 1 [true, true] after2)))).map (fun t => t.events.length) = some 3) ∧
    (given 0x300#10 (withSink 1 [true, true] after2)).finsIn .enc = true ∧
    (given 0x300#10 (decAt 0#8 0#3 [0x66#8])).finsIn .dec = true ∧
    (given 0x266#10 (decAt 0#8 0#3 [])).putsIn .dec = true := by
  refine ⟨by decide, ⟨?_, ?_, by decide, by decide⟩, by decide, by decide, by decide⟩
  · constructor <;>
      simp [given, withSink, after2, encAt, enc0, State.reset, Params.maxN, Params.maxCount, encodedLength]
  · constructor <;> simp [given, withSink, after2, encAt, enc0, State.reset]

/-- One block flushes where the other has room. -/
theorem witness_CapacityDoesNotChangeTheOutput :
    SameButCapacity (given 0x266#10 (withSink 1 [true] (encAt 0#8 0#3 3 4 [0x76#8])))
      (given 0x266#10 (withSink 2 [] (encAt 0#8 0#3 3 4 [0x76#8]))) ∧
    (nextOf (step (given 0x266#10 (withSink 1 [true] (encAt 0#8 0#3 3 4 [0x76#8]))))).map State.rsp =
      some (some .ok) ∧
    (nextOf (step (given 0x266#10 (withSink 2 [] (encAt 0#8 0#3 3 4 [0x76#8]))))).map State.rsp = some (some .ok) := by
  refine ⟨?_, by decide, by decide⟩
  constructor <;> simp [given, withSink, encAt, enc0, State.reset, State.logicalOutput]

theorem witness_EncodeSessionWritesTheEncoding :
    doneEnc.params.wf ∧ doneEnc.phase ≠ .active ∧ doneEnc.params.maxN = none ∧ encodedLength 0 + 1 ≤ 4 ∧
    ({ doneEnc with inputs := (sessionWords .enc []).map Input.cmd } : State).inputs =
      [.cmd 0x100#10, .cmd 0x300#10] ∧ ∀ j, j < encodedLength 0 + 1 → doneEnc.answerAt j = true := by decide

theorem witness_DecodeSessionWritesTheDecoding :
    faulted.params.wf ∧ faulted.phase ≠ .active ∧ rev 0x5A#8 ≠ .bad ∧
    ({ faulted with inputs := (sessionWords .dec [0x5A#8]).map Input.cmd } : State).inputs =
      [.cmd 0x101#10, .cmd 0x25A#10, .cmd 0x300#10] ∧
    ∀ j, j < (decMessage [0x5A#8]).length + 1 → faulted.answerAt j = true := by decide

/-- A result whose tail is the whole output, and one whose tail is the end of it. -/
theorem witness_TailIsTheWholeOutputUnlessOverflowed :
    BufferInv doneEnc ∧ doneEnc.phase = .done ∧ doneEnc.overflowed = false ∧
    BufferInv { withSink 1 [] (encAt 0#8 0#3 1 4 [pad]) with
      phase := .done, overflowed := true, sinkData := [0x5A#8, 0x67#8, pad, pad] } ∧
    0 < after1.buf.length := by
  refine ⟨?_, by decide, by decide, ?_, by decide⟩
  · constructor <;> simp [doneEnc, encAt, enc0, State.reset, Params.default]
  · constructor <;> simp [withSink, encAt, enc0, State.reset]
    exact ⟨[0x5A#8, 0x67#8, pad], rfl, by simp⟩

theorem witness_WriteBeatsCarryTheElementsInOrder :
    (SinkEvent.wrote [0x66#8, 0x6F#8] true).beats = [0b10001100110#11, 0b10101101111#11] := by decide

/-- The least capacity and one past a power of two; a full buffer; and an encode session with finite counts. -/
theorem witness_CountRegistersHoldTheirCountsWhole :
    ((Params.mk 1 none).wf ∧ (Params.mk 4 none).wf) ∧
    ((withSink 1 [] after3).params.wf ∧ BufferInv (withSink 1 [] after3) ∧ (withSink 1 [] after3).buf.length = 1) ∧
    (DataPathInv (withCounts 3 enc0) ∧ (withCounts 3 enc0).params.cntW = some 3) := by
  refine ⟨by decide, ⟨by decide, ?_, by decide⟩, ?_, by decide⟩
  · constructor <;> simp [withSink, after3, encAt, enc0, State.reset]
  · constructor <;> simp [withCounts, enc0, State.reset, Params.maxN, Params.maxCount, encodedLength]

/-- A code of its own, one met in FAULT, and 0 in FAULT; and reset. -/
theorem witness_EveryCommandIsAnsweredWithOneCode :
    (nextOf (step (given 0x001#10 enc0))).map State.rspCode = some (some 5#3) ∧
    (nextOf (step (given 0x266#10 faulted))).map (fun t => (t.rspCode, t.fault)) = some (some 4#3, .protocolError) ∧
    (nextOf (step (given 0x000#10 faulted))).map (fun t => (t.rspCode, t.phase)) = some (some 0#3, .fault) ∧
    (nextOf (step { faulted with inputs := [.rst] })).map State.rspCode = some none ∧
    (givenCut 0x300#10 1 true finOfFo).resets = true := by decide

end Sys2Proof.Tests
end

namespace Sys2Proof

/-! ### The tables -/

/-- `ALPHABET` at an index given as a number, in the closed form of 10_state.md R31. -/
theorem alphabet_ofNat {n : Nat} (h : n < 64) :
    alphabet (BitVec.ofNat 6 n) =
      if n ≤ 25 then BitVec.ofNat 8 (0x41 + n)
      else if n ≤ 51 then BitVec.ofNat 8 (0x61 + (n - 26))
      else if n ≤ 61 then BitVec.ofNat 8 (0x30 + (n - 52))
      else if n = 62 then 0x2B#8
      else 0x2F#8 := by
  simp only [alphabet, BitVec.toNat_ofNat, Nat.mod_eq_of_lt h]

/-- A code is no alphabet code and not the pad exactly where `REV` says BAD. -/
theorem rev_bad_iff (c : Byte) : rev c = .bad ↔ (∀ i : Sextet, alphabet i ≠ c) ∧ c ≠ pad := by
  constructor
  · intro h
    refine ⟨fun i hi => ?_, fun hc => ?_⟩
    · simp [← hi] at h
    · simp [hc] at h
  · rintro ⟨hval, hpad⟩
    cases hr : rev c with
    | val i => exact absurd (alphabet_of_rev c i hr) (hval i)
    | isPad => exact absurd (rev_isPad c hr) hpad
    | bad => rfl

end Sys2Proof

namespace Sys2Proof.Machine

/-- Settles O1, from the closed form at a number. -/
theorem alphabetIsTheSpecTable : Obligations.AlphabetIsTheSpecTable := by
  refine ⟨fun n hn => ?_, fun n hn => ?_, fun n hn => ?_, rfl, rfl⟩
  · rw [alphabet_ofNat (by omega), if_pos hn]
  · rw [alphabet_ofNat (by omega), if_neg (by omega), if_pos (by omega), Nat.add_sub_cancel_left]
  · rw [alphabet_ofNat (by omega), if_neg (by omega), if_neg (by omega), if_pos (by omega), Nat.add_sub_cancel_left]

/-- Settles O2: the two tables are inverse to one another, and BAD is what is left. -/
theorem symbolTableInvertsAlphabet : Obligations.SymbolTableInvertsAlphabet := by
  refine ⟨fun c i => ⟨alphabet_of_rev c i, ?_⟩, fun c => ⟨rev_isPad c, ?_⟩, rev_bad_iff⟩
  · rintro rfl
    exact rev_alphabet i
  · rintro rfl
    exact rev_pad

/-- Settles O10: each field of the reset state as it is written, and the status word they make. -/
theorem resetStateHoldsTheSpecValues : Obligations.ResetStateHoldsTheSpecValues := by
  have hstatus : State.reset.status = 0#20 := by decide
  exact ⟨rfl, rfl, rfl, rfl, rfl, rfl, rfl, rfl, rfl, rfl, rfl, rfl, rfl, rfl, rfl, hstatus⟩

end Sys2Proof.Machine

namespace Sys2Proof.Machine

/-! ### What the premises `startsAnew`, `putsIn` and `finsIn` say of a command -/

section Premises
variable {s : State} {w : CmdWord} {rest : List Input}

theorem startsAnew_of_cmd (h : s.inputs = .cmd w :: rest) :
    s.startsAnew = decide (openCommand w ∧ s.phase ≠ .active) := by
  simp [State.startsAnew, State.resets, State.nextWord, h]

theorem putsIn_of_cmd (h : s.inputs = .cmd w :: rest) (m : Mode) :
    s.putsIn m = decide (opField w = 0b10#2 ∧ s.phase = .active ∧ s.mode = m) := by
  simp [State.putsIn, State.nextWord, h]

theorem finsIn_of_cmd (h : s.inputs = .cmd w :: rest) (m : Mode) :
    s.finsIn m = decide (w = 0x300#10 ∧ s.phase = .active ∧ s.mode = m) := by
  simp [State.finsIn, State.nextWord, h]

theorem startsAnew_of_resets (h : s.resets = true) : s.startsAnew = true := by
  simp [State.startsAnew, h]

/-- A command that is no OPEN starts nothing. -/
theorem startsAnew_of_not_open (h : s.inputs = .cmd w :: rest) (hw : ¬ openCommand w) :
    s.startsAnew = false := by
  rw [startsAnew_of_cmd h, decide_eq_false fun ⟨ho, _⟩ => hw ho]

/-- A command that is no PUT moves no byte in. -/
theorem putsIn_of_not_put (h : s.inputs = .cmd w :: rest) (hw : opField w ≠ 0b10#2) (m : Mode) :
    s.putsIn m = false := by
  rw [putsIn_of_cmd h, decide_eq_false fun ⟨ho, _⟩ => hw ho]

theorem startsAnew_of_put (h : s.inputs = .cmd w :: rest) (hw : opField w = 0b10#2) : s.startsAnew = false := by
  obtain ⟨-, -, hopen, -⟩ := put_excludes hw
  exact startsAnew_of_not_open h hopen

theorem finsIn_of_put (h : s.inputs = .cmd w :: rest) (hw : opField w = 0b10#2) (m : Mode) : s.finsIn m = false := by
  obtain ⟨-, -, -, hfin⟩ := put_excludes hw
  rw [finsIn_of_cmd h, decide_eq_false fun ⟨hf, _⟩ => hfin hf]

end Premises

/-- The steps that start anew. -/
inductive Fresh (s : State) : State → Prop
  | resets (es : List SinkEvent) (inputs : List Input) (answers : List Bool) (n : Nat) :
      Fresh s { hardReset s with events := s.events ++ es, inputs := inputs, answers := answers, freeCount := n }
  | opens (m : Mode) (rest : List Input) : Fresh s (openSession m (s.took rest))

/-- The other steps, those joined that differ in the word alone, each with what `putsIn` and `finsIn` say of it. -/
inductive Continues (s : State) : State → Prop
  | keeps (inputs : List Input) (rsp : Option FaultCode) (hput : s.putsIn .enc = false) :
      Continues s { s with inputs := inputs, rsp := rsp }
  | raises (x : FaultCode) (rest : List Input) (hx : x ≠ .ok) (hput : s.putsIn .enc = false) :
      Continues s (raise x (s.took rest))
  | encPut (b : Byte) (rest : List Input) (hput : s.putsIn .enc = true) (hfin : ∀ m, s.finsIn m = false)
      (hp : s.phase = .active) (hm : s.mode = .enc) : Continues s (encPutBody b (s.took rest)).finish
  | decSym (v : Sextet) (rest : List Input) (hput : s.putsIn .enc = false) (hfin : ∀ m, s.finsIn m = false)
      (hp : s.phase = .active) (hm : s.mode = .dec) : Continues s (decSymBody v (s.took rest)).finish
  | decPad (rest : List Input) (hput : s.putsIn .enc = false) (hfin : ∀ m, s.finsIn m = false)
      (hp : s.phase = .active) (hm : s.mode = .dec) : Continues s (decPadBody (s.took rest)).finish
  | encFin (rest : List Input) (hput : s.putsIn .enc = false) (hfin : s.finsIn .enc = true)
      (hp : s.phase = .active) (hm : s.mode = .enc) : Continues s (encFinBody (s.took rest)).finish
  | decFin (rest : List Input) (hput : s.putsIn .enc = false) (hfin : s.finsIn .dec = true)
      (hp : s.phase = .active) (hm : s.mode = .dec) : Continues s (finalize (s.took rest)).finish

/-- A step starts anew or it does not, and `startsAnew` says which. -/
theorem step_fresh_or_continues {s t : State} (h : step s = .next t) :
    (s.startsAnew = true ∧ Fresh s t) ∨ (s.startsAnew = false ∧ Continues s t) := by
  cases hr : s.resets with
  | true =>
    obtain ⟨es, inputs, answers, n, rfl⟩ := step_resets hr h
    exact .inl ⟨startsAnew_of_resets hr, .resets es inputs answers n⟩
  | false =>
    cases step_cases h with
    | waits hi =>
      exact .inr ⟨by simp [State.startsAnew, State.nextWord, hr, hi],
        .keeps s.inputs s.rsp (by simp [State.putsIn, State.nextWord, hi])⟩
    | resets rest hi => simp [State.resets, hi] at hr
    | cut w p rest u hi hu => simp [State.resets, hi] at hr
    | illegal w rest hi hw =>
      obtain ⟨hput, -, hopen, -⟩ := reserved_excludes hw
      exact .inr ⟨startsAnew_of_not_open hi hopen, .raises _ rest (by decide) (putsIn_of_not_put hi hput _)⟩
    | nop rest hi =>
      exact .inr ⟨startsAnew_of_not_open hi (by decide), .keeps rest _ (putsIn_of_not_put hi (by decide) _)⟩
    | openActive w rest hi hw hp =>
      obtain ⟨hput, -⟩ := open_excludes hw
      exact .inr ⟨by simp [startsAnew_of_cmd hi, hp], .raises _ rest (by decide) (putsIn_of_not_put hi hput _)⟩
    | openE rest hi hp => exact .inl ⟨by simp [startsAnew_of_cmd hi, hp], .opens .enc rest⟩
    | openD rest hi hp => exact .inl ⟨by simp [startsAnew_of_cmd hi, hp], .opens .dec rest⟩
    | outOfPhase w rest hi hw hp =>
      have hopen : ¬ openCommand w := fun ho => by
        obtain ⟨hput, -, -, hfin⟩ := open_excludes ho
        exact hw.elim hput hfin
      exact .inr ⟨startsAnew_of_not_open hi hopen, .raises _ rest (by decide) (by simp [putsIn_of_cmd hi, hp])⟩
    | encPut w rest hi hw hp hm =>
      exact .inr ⟨startsAnew_of_put hi hw,
        .encPut _ rest (by simp [putsIn_of_cmd hi, hw, hp, hm]) (finsIn_of_put hi hw) hp hm⟩
    | decSym w rest v hi hw hp hm hv =>
      exact .inr ⟨startsAnew_of_put hi hw,
        .decSym v rest (by simp [putsIn_of_cmd hi, hm]) (finsIn_of_put hi hw) hp hm⟩
    | decPad w rest hi hw hp hm hv =>
      exact .inr ⟨startsAnew_of_put hi hw,
        .decPad rest (by simp [putsIn_of_cmd hi, hm]) (finsIn_of_put hi hw) hp hm⟩
    | decBad w rest hi hw hp hm hv =>
      exact .inr ⟨startsAnew_of_put hi hw, .raises _ rest (by decide) (by simp [putsIn_of_cmd hi, hm])⟩
    | encFin rest hi hp hm =>
      exact .inr ⟨startsAnew_of_not_open hi (by decide), .encFin rest (putsIn_of_not_put hi (by decide) _)
        (by simp [finsIn_of_cmd hi, hp, hm]) hp hm⟩
    | decFin rest hi hp hm =>
      exact .inr ⟨startsAnew_of_not_open hi (by decide), .decFin rest (putsIn_of_not_put hi (by decide) _)
        (by simp [finsIn_of_cmd hi, hp, hm]) hp hm⟩

theorem step_fresh {s t : State} (h : step s = .next t) (hs : s.startsAnew = true) : Fresh s t :=
  (step_fresh_or_continues h).elim And.right fun hc => absurd (hs.symm.trans hc.1) (by decide)

theorem step_continues {s t : State} (h : step s = .next t) (hs : s.startsAnew = false) : Continues s t :=
  (step_fresh_or_continues h).elim (fun hf => absurd (hs.symm.trans hf.1) (by decide)) And.right

end Sys2Proof.Machine

namespace Sys2Proof.Machine

/-! ### The parameters and the mode -/

/-- The parameters and the mode, which no command but OPEN writes (10_state.md R27, 70_reset_and_hazards.md R233). -/
def State.fixed (s : State) : Params × Mode := (s.params, s.mode)

section Fixed
variable {s : State} {a : Params × Mode}

theorem append_fixed (x : Byte) (h : s.fixed = a) :
    (append x s).Ends (fun t => t.fixed = a) fun t => t.fixed = a :=
  append_ends (by simpa [State.fixed] using h) fun _ _ => h

theorem finalize_fixed (h : s.fixed = a) : (finalize s).Ends (fun t => t.fixed = a) fun t => t.fixed = a :=
  finalize_ends (fun _ => h) (fun _ _ => h) fun _ _ => h

theorem encPut_fixed (b : Byte) (h : s.fixed = a) : (encPutBody b s).finish.fixed = a :=
  (encPutBody_ends (P := fun t => t.fixed = a) (Q := fun t => t.fixed = a) (fun _ _ _ hu => hu) (fun _ _ _ hu => hu)
    (fun x _ hu => append_fixed x hu) (fun _ => h) fun _ => h).finish (fun _ hu => hu) fun _ hu => hu

theorem decSym_fixed (v : Sextet) (h : s.fixed = a) : (decSymBody v s).finish.fixed = a :=
  (decSymBody_ends (P := fun t => t.fixed = a) (Q := fun t => t.fixed = a) (fun _ _ _ hu => hu)
    (fun x _ hu => append_fixed x hu) h).finish (fun _ hu => hu) fun _ hu => hu

theorem encFin_fixed (h : s.fixed = a) : (encFinBody s).finish.fixed = a :=
  ((encFinAppends_ends (P := fun t => t.fixed = a) (Q := fun t => t.fixed = a) (fun _ _ _ hu => hu) (fun _ hu => hu)
    (fun x _ hu => append_fixed x hu) h).andThen fun _ hu => finalize_fixed hu).finish (fun _ hu => hu) fun _ hu => hu

theorem decFin_fixed (h : s.fixed = a) : (finalize s).finish.fixed = a :=
  (finalize_fixed h).finish (fun _ hu => hu) fun _ hu => hu

end Fixed

theorem Continues.fixed_eq {s t : State} (h : Continues s t) : t.fixed = s.fixed := by
  cases h with
  | keeps inputs rsp => rfl
  | raises x rest => rfl
  | encPut b rest => exact encPut_fixed b rfl
  | decSym v rest => exact decSym_fixed v rfl
  | decPad rest => rfl
  | encFin rest => exact encFin_fixed rfl
  | decFin rest => exact decFin_fixed rfl

theorem Fresh.params_eq {s t : State} (h : Fresh s t) : t.params = s.params := by
  cases h with
  | resets es inputs answers n => rfl
  | opens m rest => rfl

theorem step_params {s t : State} (h : step s = .next t) : t.params = s.params :=
  (step_fresh_or_continues h).elim (fun hf => hf.2.params_eq) fun hc => congrArg Prod.fst hc.2.fixed_eq

/-- Settles O45: a step that starts nothing leaves both, and one that starts anew leaves the parameters. -/
theorem modeMovesOnlyAtSessionStart : Obligations.ModeMovesOnlyAtSessionStart := fun _ _ h =>
  ⟨step_params h, fun hs => congrArg Prod.snd (step_continues h hs).fixed_eq⟩

/-! ### The two counts -/

/-- `totalBytesRead` is `r`, and `totalUnitsWritten` has not fallen below `w`. -/
def State.countsFrom (r w : Nat) (s : State) : Prop := s.totalBytesRead = r ∧ w ≤ s.totalUnitsWritten

/-- `totalBytesRead` is `r` and `totalUnitsWritten` is `w`. -/
def State.countsAt (r w : Nat) (s : State) : Prop := s.totalBytesRead = r ∧ s.totalUnitsWritten = w

section Counts
variable {s : State} {r w : Nat}

theorem append_countsFrom (x : Byte) (h : s.countsFrom r w) :
    (append x s).Ends (State.countsFrom r w) (State.countsFrom r w) :=
  append_ends (by simpa [State.countsFrom] using h) fun _ _ => h

theorem append_countsAt (x : Byte) (h : s.countsAt r w) :
    (append x s).Ends (State.countsAt r w) (State.countsAt r w) :=
  append_ends (by simpa [State.countsAt] using h) fun _ _ => h

/-- A character more has been written. -/
theorem countsFrom_unit (h : s.countsFrom r w) (a : BitVec 8) (n : BitVec 3) :
    State.countsFrom r w { s with acc := a, bitCount := n, totalUnitsWritten := s.totalUnitsWritten + 1 } :=
  ⟨h.1, Nat.le_succ_of_le h.2⟩

/-- From `s` to `t` one byte more has been read, or the byte was refused (60_exceptions.md R207). -/
def ReadsOrRefuses (s t : State) : Prop :=
  t.countsFrom (s.totalBytesRead + 1) s.totalUnitsWritten ∨
    t.countsAt s.totalBytesRead s.totalUnitsWritten ∧ t.rsp = some .counterOverflow

/-- ENC.PUT reads its byte or refuses it (40_encoder.md R120). -/
theorem encPut_counts (b : Byte) (s : State) : ReadsOrRefuses s (encPutBody b s).finish :=
  (encPutBody_ends (P := State.countsFrom (s.totalBytesRead + 1) s.totalUnitsWritten) (Q := ReadsOrRefuses s)
    (fun _ _ _ hu => hu) (fun _ a n hu => countsFrom_unit hu a n)
    (fun x _ hu => (append_countsFrom x hu).mono (fun _ ht => ht) fun _ ht => .inl ht)
    (fun _ => .inr ⟨⟨rfl, rfl⟩, rfl⟩) fun _ => ⟨rfl, Nat.le_refl _⟩).finish (R := ReadsOrRefuses s)
    (fun _ hu => .inl hu) fun _ hu => hu

theorem finalize_countsFrom (h : s.countsFrom r w) :
    (finalize s).Ends (State.countsFrom r w) (State.countsFrom r w) :=
  finalize_ends (fun _ => h) (fun _ _ => h) fun _ _ => h

/-- ENC.FIN reads no byte (40_encoder.md R122). -/
theorem encFin_counts (s : State) : (encFinBody s).finish.countsFrom s.totalBytesRead s.totalUnitsWritten :=
  ((encFinAppends_ends (P := State.countsFrom s.totalBytesRead s.totalUnitsWritten) (fun _ _ _ hu => hu)
    (fun u hu => countsFrom_unit hu u.acc u.bitCount) (fun x _ hu => append_countsFrom x hu)
    ⟨rfl, Nat.le_refl _⟩).andThen fun _ hu => finalize_countsFrom hu).finish (fun _ hu => hu) fun _ hu => hu

/-- DEC.SYM writes no count (41_decoder.md R140). -/
theorem decSym_counts (v : Sextet) (s : State) :
    (decSymBody v s).finish.countsAt s.totalBytesRead s.totalUnitsWritten :=
  (decSymBody_ends (P := State.countsAt s.totalBytesRead s.totalUnitsWritten) (fun _ _ _ hu => hu)
    (fun x _ hu => append_countsAt x hu) ⟨rfl, rfl⟩).finish (fun _ hu => hu) fun _ hu => hu

/-- DEC.FIN writes no count (41_decoder.md R144). -/
theorem decFin_counts (s : State) : (finalize s).finish.countsAt s.totalBytesRead s.totalUnitsWritten :=
  (finalize_ends (P := State.countsAt s.totalBytesRead s.totalUnitsWritten) (fun _ => ⟨rfl, rfl⟩)
    (fun _ _ => ⟨rfl, rfl⟩) fun _ _ => ⟨rfl, rfl⟩).finish (fun _ hu => hu) fun _ hu => hu

end Counts

theorem Fresh.counts_clear {s t : State} (h : Fresh s t) : t.totalBytesRead = 0 ∧ t.totalUnitsWritten = 0 := by
  cases h with
  | resets es inputs answers n => exact ⟨rfl, rfl⟩
  | opens m rest => exact ⟨rfl, rfl⟩

/-- Of the steps that start nothing, an encode PUT moves `totalBytesRead` and `totalUnitsWritten`, an encode FIN the
latter, and no other step either of them. -/
theorem Continues.counts {s t : State} (h : Continues s t) :
    t.countsAt s.totalBytesRead s.totalUnitsWritten ∧
        (s.putsIn .enc = true → t.rsp = some .counterOverflow) ∨
      s.finsIn .enc = true ∧ s.putsIn .enc = false ∧ t.countsFrom s.totalBytesRead s.totalUnitsWritten ∨
      s.putsIn .enc = true ∧ t.countsFrom (s.totalBytesRead + 1) s.totalUnitsWritten := by
  cases h with
  | keeps inputs rsp hput => exact .inl ⟨⟨rfl, rfl⟩, by simp [hput]⟩
  | raises x rest hx hput => exact .inl ⟨⟨rfl, rfl⟩, by simp [hput]⟩
  | encPut b rest hput =>
    rcases encPut_counts b (s.took rest) with hc | ⟨hc, hr⟩
    · exact .inr (.inr ⟨hput, hc⟩)
    · exact .inl ⟨hc, fun _ => hr⟩
  | decSym v rest hput => exact .inl ⟨decSym_counts v _, by simp [hput]⟩
  | decPad rest hput => exact .inl ⟨⟨rfl, rfl⟩, by simp [hput]⟩
  | encFin rest hput hfin => exact .inr (.inl ⟨hfin, hput, encFin_counts _⟩)
  | decFin rest hput => exact .inl ⟨decFin_counts _, by simp [hput]⟩

/-- Settles O44, from the three ways a step that starts nothing treats the counts. -/
theorem countsMoveOnlyInEncodeSessions : Obligations.CountsMoveOnlyInEncodeSessions := by
  intro s t h
  refine ⟨fun hs => (step_fresh h hs).counts_clear, fun hs hput => ?_, fun hs hput => ?_, fun hs hput hfin => ?_,
    fun hs => ?_⟩
  · obtain ⟨⟨hr, -⟩, -⟩ | ⟨-, -, hr, -⟩ | ⟨hp, -⟩ := (step_continues h hs).counts
    · exact hr
    · exact hr
    · simp [hput] at hp
  · obtain ⟨⟨hr, -⟩, hrsp⟩ | ⟨-, hp, -⟩ | ⟨-, hr, -⟩ := (step_continues h hs).counts
    · exact .inr ⟨hr, hrsp hput⟩
    · simp [hput] at hp
    · exact .inl hr
  · obtain ⟨⟨-, hw⟩, -⟩ | ⟨hf, -⟩ | ⟨hp, -⟩ := (step_continues h hs).counts
    · exact hw
    · simp [hfin] at hf
    · simp [hput] at hp
  · obtain ⟨⟨-, hw⟩, -⟩ | ⟨-, -, -, hw⟩ | ⟨-, -, hw⟩ := (step_continues h hs).counts
    · exact hw.ge
    · exact hw
    · exact hw

end Sys2Proof.Machine

namespace Sys2Proof.Machine

/-! ### The buffer invariant -/

/-- The inputs and the response are no part of the invariant. -/
theorem BufferInv.with_host {s : State} (h : BufferInv s) (inputs : List Input) (rsp : Option FaultCode) :
    BufferInv { s with inputs := inputs, rsp := rsp } :=
  ⟨h.len_le, h.idle_empty, h.active_flushes, h.active_overflowed, h.overflowed_nonempty, h.done_tail⟩

/-- Fault entry leaves the clauses that bind in FAULT: the length, and the buffer after a capacity flush. -/
theorem raise_bufferInv (x : FaultCode) {s : State} (hlen : s.bufWf)
    (hover : s.overflowed = true → s.buf ≠ []) : BufferInv (raise x s) where
  len_le := hlen
  idle_empty h := by simp at h
  active_flushes h := by simp at h
  active_overflowed h := by simp at h
  overflowed_nonempty := hover
  done_tail h := by simp at h

/-- A state in which no output has been made. -/
theorem bufferInv_of_empty {s : State} (hbuf : s.buf = []) (hdata : s.sinkData = []) (hover : s.overflowed = false) :
    BufferInv s where
  len_le := by simp [hbuf]
  idle_empty _ := ⟨hbuf, hdata, hover⟩
  active_flushes _ := by simp [hdata]
  active_overflowed _ := by simp [hdata, hover]
  overflowed_nonempty h := by simp [hover] at h
  done_tail _ := ⟨[], by simp [hbuf, hdata, hover]⟩

/-- What holds of the buffer and the sink's record while a command of an active session runs. -/
structure StreamInv (s : State) : Prop where
  active : s.phase = .active
  capacity : 1 ≤ s.params.capacity
  len_le : s.bufWf
  flushes : s.params.capacity ∣ s.sinkData.length
  overflowed_iff : s.overflowed = true ↔ s.sinkData ≠ []
  nonempty : s.overflowed = true → s.buf ≠ []

theorem BufferInv.stream {s : State} (h : BufferInv s) (hc : 1 ≤ s.params.capacity) (hp : s.phase = .active) :
    StreamInv s :=
  ⟨hp, hc, h.len_le, h.active_flushes hp, h.active_overflowed hp, h.overflowed_nonempty⟩

namespace StreamInv
variable {s : State}

theorem bufferInv (h : StreamInv s) : BufferInv s where
  len_le := h.len_le
  idle_empty hp := by simp [h.active] at hp
  active_flushes _ := h.flushes
  active_overflowed _ := h.overflowed_iff
  overflowed_nonempty := h.nonempty
  done_tail hp := by simp [h.active] at hp

/-- The data path, the response and the inputs are no part of it. -/
theorem with_regs (h : StreamInv s) {a : BitVec 8} {n : BitVec 3} {r w : Nat} {x : Option FaultCode}
    {is : List Input} :
    StreamInv { s with
      acc := a, bitCount := n, totalBytesRead := r, totalUnitsWritten := w, rsp := x, inputs := is } :=
  ⟨h.active, h.capacity, h.len_le, h.flushes, h.overflowed_iff, h.nonempty⟩

theorem writeFailed (h : StreamInv s) : BufferInv (writeFailed s) := raise_bufferInv _ h.len_le h.nonempty

/-- APPEND sends a full buffer whole, `C` elements, and sets `overflowed`; otherwise it leaves the record. -/
theorem stored (h : StreamInv s) (x : Byte) : StreamInv (stored s x) := by
  have hwf := stored_wf x h.capacity h.len_le
  unfold Machine.stored at hwf ⊢
  split
  · next hfull =>
    rw [if_pos hfull] at hwf
    have hne : s.buf ≠ [] := List.ne_nil_of_length_pos (by have := h.capacity; omega)
    exact ⟨h.active, h.capacity, hwf, by simpa [hfull] using h.flushes, by simp [hne], fun _ => by simp⟩
  · next hfree =>
    rw [if_neg hfree] at hwf
    exact ⟨h.active, h.capacity, hwf, h.flushes, h.overflowed_iff, fun _ => by simp⟩

theorem append (h : StreamInv s) (x : Byte) : (append x s).Ends StreamInv BufferInv :=
  append_ends (h.stored x) fun _ _ => h.writeFailed

/-- The drain leaves the buffer as the end of the record, behind the capacity flushes (42_buffer_flush.md R166). -/
theorem done_tail (h : StreamInv s) {t : State} (hp : t.phase = .done) (hparams : t.params = s.params)
    (hbuf : t.buf = s.buf) (hover : t.overflowed = s.overflowed) (hdata : t.sinkData = s.sinkData ++ s.buf) :
    BufferInv t where
  len_le := by rw [hparams, hbuf]; exact h.len_le
  idle_empty hi := by simp [hp] at hi
  active_flushes ha := by simp [hp] at ha
  active_overflowed ha := by simp [hp] at ha
  overflowed_nonempty := by rw [hover, hbuf]; exact h.nonempty
  done_tail _ := ⟨s.sinkData, by rw [hbuf, hdata], by rw [hparams]; exact h.flushes,
    by rw [hover]; exact h.overflowed_iff⟩

theorem finalize (h : StreamInv s) : (finalize s).Ends BufferInv BufferInv :=
  finalize_ends (fun he => h.done_tail rfl rfl rfl rfl (by simp [he]))
    (fun _ ha => h.done_tail rfl rfl rfl rfl (by simp [ha])) fun _ _ => h.writeFailed

end StreamInv

theorem finish_bufferInv {r : Run} (h : r.Ends BufferInv BufferInv) : BufferInv r.finish :=
  h.finish (fun t ht => ht.with_host t.inputs _) fun _ ht => ht

section Commands
variable {s : State}

theorem encPut_bufferInv (h : StreamInv s) (b : Byte) : BufferInv (encPutBody b s).finish :=
  finish_bufferInv <| (encPutBody_ends (fun _ _ _ hu => hu.with_regs)
    (fun _ _ _ hu => hu.with_regs) (fun x _ hu => hu.append x)
    (fun _ => raise_bufferInv _ h.len_le h.nonempty)
    fun _ => h.with_regs).mono (fun _ hu => hu.bufferInv) fun _ hu => hu

theorem decSym_bufferInv (h : StreamInv s) (v : Sextet) : BufferInv (decSymBody v s).finish :=
  finish_bufferInv <| (decSymBody_ends (fun _ _ _ hu => hu.with_regs)
    (fun x _ hu => hu.append x) h).mono (fun _ hu => hu.bufferInv) fun _ hu => hu

theorem encFin_bufferInv (h : StreamInv s) : BufferInv (encFinBody s).finish :=
  finish_bufferInv <| (encFinAppends_ends (fun _ _ _ hu => hu.with_regs)
    (fun _ hu => hu.with_regs) (fun x _ hu => hu.append x)
    h).andThen fun _ hu => hu.finalize

end Commands

theorem Fresh.bufferInv {s t : State} (h : Fresh s t) : BufferInv t := by
  cases h with
  | resets es inputs answers n => exact bufferInv_of_empty rfl rfl rfl
  | opens m rest => exact bufferInv_of_empty rfl rfl rfl

theorem Continues.bufferInv {s t : State} (h : Continues s t) (hc : 1 ≤ s.params.capacity) (hi : BufferInv s) :
    BufferInv t := by
  have stream (hp : s.phase = .active) (rest : List Input) : StreamInv (s.took rest) :=
    (hi.with_host rest s.rsp).stream hc hp
  cases h with
  | keeps inputs rsp => exact hi.with_host inputs rsp
  | raises x rest => exact raise_bufferInv x hi.len_le hi.overflowed_nonempty
  | encPut b rest hput hfin hp => exact encPut_bufferInv (stream hp rest) b
  | decSym v rest hput hfin hp => exact decSym_bufferInv (stream hp rest) v
  | decPad rest hput hfin hp =>
    exact (stream hp rest).with_regs.bufferInv
  | encFin rest hput hfin hp => exact encFin_bufferInv (stream hp rest)
  | decFin rest hput hfin hp => exact finish_bufferInv (stream hp rest).finalize

/-- Settles O40: a step that starts anew empties the buffer and the record, and any other keeps what APPEND, DRAIN and
fault entry keep. -/
theorem stepKeepsBufferInvariant : Obligations.StepKeepsBufferInvariant := fun _ _ hwf hi h =>
  (step_fresh_or_continues h).elim (fun hf => hf.2.bufferInv) fun hc => hc.2.bufferInv hwf.1 hi

end Sys2Proof.Machine

namespace Sys2Proof.Machine

/-! ### Capacity flushes among the events of a command -/

/-- `es` holds a Write of `c` elements answered ok, in a FIN (`drains`) one that another Write follows. -/
def HoldsFlush (c : Nat) (drains : Bool) (es : List SinkEvent) : Prop :=
  ∃ before seq after, es = before ++ .wrote seq true :: after ∧ seq.length = c ∧
    (drains = false ∨ ∃ seq' ok', .wrote seq' ok' ∈ after)

/-- Every event of `es` is a Write of `c` elements answered ok. -/
def AllFlushes (c : Nat) (es : List SinkEvent) : Prop := ∀ e ∈ es, ∃ seq, e = .wrote seq true ∧ seq.length = c

/-- Outside a FIN every Write answered ok is a flush. -/
theorem holdsFlush_put_iff {c : Nat} {es tail : List SinkEvent} (h : AllFlushes c es)
    (htail : ∀ seq, .wrote seq true ∉ tail) : HoldsFlush c false (es ++ tail) ↔ es ≠ [] := by
  constructor
  · rintro ⟨before, seq, after, he, -, -⟩ rfl
    rw [List.nil_append] at he
    exact htail seq (by simp [he])
  · intro hne
    obtain ⟨e, es, rfl⟩ := List.exists_cons_of_ne_nil hne
    obtain ⟨seq, rfl, hlen⟩ := h e (by simp)
    exact ⟨[], seq, es ++ tail, rfl, hlen, .inl rfl⟩

/-- In a FIN the last Write is the drain, or a Write that failed; those before it are flushes. -/
theorem holdsFlush_fin_iff {c : Nat} {es rest : List SinkEvent} (h : AllFlushes c es) (seq : List Byte) (ok : Bool)
    (hrest : ∀ seq ok, .wrote seq ok ∉ rest) : HoldsFlush c true (es ++ .wrote seq ok :: rest) ↔ es ≠ [] := by
  constructor
  · rintro ⟨before, seq', after, he, -, hmore⟩ rfl
    obtain ⟨seq'', ok', hmem⟩ := hmore.resolve_left (by decide)
    rcases List.cons_eq_append_iff.1 he with ⟨-, hc⟩ | ⟨before', -, hc⟩
    · cases hc
      exact hrest _ _ hmem
    · exact hrest seq' true (by simp [hc])
  · intro hne
    obtain ⟨e, es, rfl⟩ := List.exists_cons_of_ne_nil hne
    obtain ⟨seq', rfl, hlen⟩ := h e (by simp)
    exact ⟨[], seq', es ++ .wrote seq ok :: rest, rfl, hlen, .inr ⟨seq, ok, by simp⟩⟩

theorem not_holdsFlush_of_no_write {c : Nat} {drains : Bool} {es : List SinkEvent}
    (h : ∀ seq ok, .wrote seq ok ∉ es) :
    ¬ HoldsFlush c drains es := by
  rintro ⟨before, seq, after, rfl, -⟩
  exact h seq true (by simp)

/-- From `s` to `t`, `overflowed` has been set exactly if the events tell of a flush. -/
def MarksFlush (drains : Bool) (s t : State) : Prop :=
  ∃ es, t.events = s.events ++ es ∧
    (t.overflowed = true ↔ s.overflowed = true ∨ HoldsFlush s.params.capacity drains es)

/-- Between two statements of a command that began in `s`: all its events are flushes, and they have left `overflowed`
set and an element in the buffer. -/
def FlushedSince (s t : State) : Prop :=
  ∃ es, t.params = s.params ∧ t.events = s.events ++ es ∧ AllFlushes s.params.capacity es ∧
    (t.overflowed = true ↔ s.overflowed = true ∨ es ≠ []) ∧ (es ≠ [] → t.buf ≠ [])

theorem marksFlush_of_no_event {drains : Bool} {s t : State} (he : t.events = s.events)
    (ho : t.overflowed = s.overflowed) : MarksFlush drains s t := by
  refine ⟨[], by simpa using he, ?_⟩
  simp [ho, not_holdsFlush_of_no_write]

namespace FlushedSince
variable {s t u : State}

theorem start (hparams : t.params = s.params) (he : t.events = s.events) (ho : t.overflowed = s.overflowed) :
    FlushedSince s t :=
  ⟨[], hparams, by simp [he], by simp [AllFlushes], by simp [ho], by simp⟩

theorem stored (h : FlushedSince s u) (x : Byte) : FlushedSince s (stored u x) := by
  obtain ⟨es, hparams, hevents, hall, hover, hbuf⟩ := h
  unfold Machine.stored
  split
  · next hfull =>
    refine ⟨es ++ [.wrote u.buf true], hparams, by simp [hevents], fun e he => ?_, by simp, by simp⟩
    rcases List.mem_append.1 he with he | he
    · exact hall e he
    · exact ⟨u.buf, List.mem_singleton.1 he, by rw [hfull, hparams]⟩
  · exact ⟨es, hparams, hevents, hall, hover, by simp⟩

/-- A command that is no FIN ends with a failed Write or none after the flushes. -/
theorem marksFlush_put (h : FlushedSince s u) {tail : List SinkEvent} (htail : ∀ seq, .wrote seq true ∉ tail)
    (he : t.events = u.events ++ tail) (ho : t.overflowed = u.overflowed) : MarksFlush false s t := by
  obtain ⟨es, -, hevents, hall, hover, -⟩ := h
  exact ⟨es ++ tail, by simp [he, hevents], by rw [holdsFlush_put_iff hall htail, ho, hover]⟩

/-- A FIN ends with one Write after the flushes. -/
theorem marksFlush_fin (h : FlushedSince s u) {seq : List Byte} {ok : Bool} {rest : List SinkEvent}
    (hrest : ∀ seq ok, .wrote seq ok ∉ rest) (he : t.events = u.events ++ .wrote seq ok :: rest)
    (ho : t.overflowed = u.overflowed) : MarksFlush true s t := by
  obtain ⟨es, -, hevents, hall, hover, -⟩ := h
  exact ⟨es ++ .wrote seq ok :: rest, by simp [he, hevents],
    by rw [holdsFlush_fin_iff hall seq ok hrest, ho, hover]⟩

/-- A FIN that finds nothing to drain has not flushed. -/
theorem marksFlush_close (h : FlushedSince s u) (hbuf : u.buf = []) (he : t.events = u.events ++ [.closed])
    (ho : t.overflowed = u.overflowed) : MarksFlush true s t := by
  obtain ⟨es, -, hevents, -, hover, hne⟩ := h
  have hes : es = [] := Decidable.byContradiction fun h => hne h hbuf
  have hclosed : ¬ HoldsFlush s.params.capacity true [.closed] := not_holdsFlush_of_no_write (by simp)
  exact ⟨[.closed], by simp [he, hevents, hes], by simp [ho, hover, hes, hclosed]⟩

theorem append_put (h : FlushedSince s u) (x : Byte) : (append x u).Ends (FlushedSince s) (MarksFlush false s) :=
  append_ends (h.stored x) fun _ ha => h.marksFlush_put (tail := [.wrote u.buf false]) (by simp)
    (by simp [writeFailed, ha]) rfl

theorem append_fin (h : FlushedSince s u) (x : Byte) : (append x u).Ends (FlushedSince s) (MarksFlush true s) :=
  append_ends (h.stored x) fun _ ha => h.marksFlush_fin (rest := []) (by simp) rfl rfl

theorem finalize (h : FlushedSince s u) : (finalize u).Ends (MarksFlush true s) (MarksFlush true s) :=
  finalize_ends (fun hb => h.marksFlush_close hb rfl rfl)
    (fun _ _ => h.marksFlush_fin (rest := [.closed]) (by simp) (List.append_assoc _ _ _) rfl)
    fun _ _ => h.marksFlush_fin (rest := []) (by simp) rfl rfl

end FlushedSince

section Commands
variable {s t : State}

theorem encPut_marksFlush (h : FlushedSince s t) (b : Byte) : MarksFlush false s (encPutBody b t).finish :=
  (encPutBody_ends (P := FlushedSince s) (Q := MarksFlush false s) (fun _ _ _ hu => hu) (fun _ _ _ hu => hu)
    (fun x _ hu => hu.append_put x) (fun _ => h.marksFlush_put (tail := []) (by simp) (by simp) rfl)
    fun _ => h).finish (R := MarksFlush false s)
    (fun _ hu => hu.marksFlush_put (tail := []) (by simp) (by simp) rfl) fun _ hu => hu

theorem decSym_marksFlush (h : FlushedSince s t) (v : Sextet) : MarksFlush false s (decSymBody v t).finish :=
  (decSymBody_ends (P := FlushedSince s) (Q := MarksFlush false s) (fun _ _ _ hu => hu)
    (fun x _ hu => hu.append_put x) h).finish (R := MarksFlush false s)
    (fun _ hu => hu.marksFlush_put (tail := []) (by simp) (by simp) rfl) fun _ hu => hu

theorem decFin_marksFlush (h : FlushedSince s t) : MarksFlush true s (finalize t).finish :=
  h.finalize.finish (R := MarksFlush true s) (fun _ hu => hu) fun _ hu => hu

theorem encFin_marksFlush (h : FlushedSince s t) : MarksFlush true s (encFinBody t).finish :=
  ((encFinAppends_ends (P := FlushedSince s) (Q := MarksFlush true s) (fun _ _ _ hu => hu) (fun _ hu => hu)
    (fun x _ hu => hu.append_fin x) h).andThen fun _ hu => hu.finalize).finish (R := MarksFlush true s)
    (fun _ hu => hu) fun _ hu => hu

end Commands

theorem Fresh.overflowed_clear {s t : State} (h : Fresh s t) : t.overflowed = false := by
  cases h with
  | resets es inputs answers n => rfl
  | opens m rest => rfl

theorem Continues.marksFlush {s t : State} (h : Continues s t) :
    MarksFlush (s.finsIn .enc || s.finsIn .dec) s t := by
  have took (rest : List Input) : FlushedSince s (s.took rest) := .start rfl rfl rfl
  cases h with
  | keeps inputs rsp => exact marksFlush_of_no_event rfl rfl
  | raises x rest => exact marksFlush_of_no_event rfl rfl
  | encPut b rest hput hfin => simpa [hfin] using encPut_marksFlush (took rest) b
  | decSym v rest hput hfin => simpa [hfin] using decSym_marksFlush (took rest) v
  | decPad rest => exact marksFlush_of_no_event rfl rfl
  | encFin rest hput hfin => simpa [hfin] using encFin_marksFlush (took rest)
  | decFin rest hput hfin => simpa [hfin] using decFin_marksFlush (took rest)

/-- Settles O46: the statement is `MarksFlush` written out. -/
theorem overflowedMarksACapacityFlush : Obligations.OverflowedMarksACapacityFlush := by
  refine fun s t h => ⟨fun hs => (step_fresh h hs).overflowed_clear, fun hs => ?_⟩
  obtain ⟨es, he, ho⟩ := (step_continues h hs).marksFlush
  simpa [HoldsFlush, he, List.append_assoc] using ho

end Sys2Proof.Machine

namespace Sys2Proof.Machine

/-! ### The accumulator and the loops over bits -/

/-- One bit more is held (10_state.md R35). -/
theorem shiftIn_lt {a : BitVec 8} {k : Nat} (b : Bool) (ha : a.toNat < 2 ^ k) (hk : k < 8) :
    (shiftIn a b).toNat < 2 ^ (k + 1) := by
  have hb : b.toNat < 2 := Bool.toNat_lt b
  have hpow : 2 ^ k ≤ 2 ^ 7 := Nat.pow_le_pow_right (by decide) (by omega)
  rw [toNat_shiftIn b (by omega), Nat.pow_succ]
  omega

/-- DEC.PAD drops two bits, or what there is (41_decoder.md R142). -/
theorem shiftRight_two_lt {a : BitVec 8} {k : Nat} (ha : a.toNat < 2 ^ k) : (a >>> 2).toNat < 2 ^ (k - 2) := by
  rw [BitVec.toNat_ushiftRight, Nat.shiftRight_eq_div_pow]
  refine Nat.div_lt_of_lt_mul (ha.trans_le ?_)
  rw [← Nat.pow_add]
  exact Nat.pow_le_pow_right (by decide) (by omega)

/-- What each turn of a loop takes from `P j` to `P (j + 1)`, the loop takes from `P j` to `P (j + bs.length)`. -/
theorem forBits_ends_count {P : Nat → State → Prop} {Q : State → Prop} {body : Bool → State → Run} {n : Nat}
    (h : ∀ j b t, j < n → P j t → (body b t).Ends (P (j + 1)) Q) (bs : List Bool) {j : Nat} {s : State}
    (hj : j + bs.length ≤ n) (hs : P j s) : (forBits body bs s).Ends (P (j + bs.length)) Q := by
  induction bs generalizing j s with
  | nil => exact hs
  | cons b bs ih =>
    rw [List.length_cons, Nat.add_comm bs.length, ← Nat.add_assoc] at hj ⊢
    exact (h j b s (by omega) hs).andThen fun t ht => ih hj ht

/-! ### The invariant of the data path -/

/-- The invariant speaks of the data path and the control registers, and not of the output. -/
theorem DataPathInv.with_output {s : State} (h : DataPathInv s) {buf : Memory} {overflowed sinkOpen : Bool}
    {rsp : Option FaultCode} {sinkData : List Byte} {events : List SinkEvent} {inputs : List Input}
    {answers : List Bool} {freeCount : Nat} :
    DataPathInv { s with
      buf := buf, overflowed := overflowed, sinkOpen := sinkOpen, rsp := rsp, sinkData := sinkData, events := events
      inputs := inputs, answers := answers, freeCount := freeCount } :=
  ⟨h.fault_iff, h.acc_lt, h.enc_bits, h.enc_units, h.enc_done, h.dec_bits, h.dec_counts, h.units_le, h.bytes_le,
    h.idle_clear⟩

/-- The clauses of `DataPathInv` that bind in FAULT. They hold at every point of a command, so that a fault raised
there keeps the invariant. -/
structure CountsInv (s : State) : Prop where
  fault_iff : s.fault ≠ .ok ↔ s.phase = .fault
  dec_counts : s.mode = .dec → s.totalBytesRead = 0 ∧ s.totalUnitsWritten = 0
  units_le : s.totalUnitsWritten ≤ encodedLength s.totalBytesRead
  bytes_le : ∀ n, s.params.maxN = some n → s.totalBytesRead ≤ n

theorem DataPathInv.fault_ok {s : State} (h : DataPathInv s) (hp : s.phase ≠ .fault) : s.fault = .ok :=
  Decidable.byContradiction fun hf => hp (h.fault_iff.1 hf)

theorem DataPathInv.counts {s : State} (h : DataPathInv s) : CountsInv s :=
  ⟨h.fault_iff, h.dec_counts, h.units_le, h.bytes_le⟩

theorem CountsInv.raise {s : State} (h : CountsInv s) {x : FaultCode} (hx : x ≠ .ok) : DataPathInv (raise x s) where
  fault_iff := by
    by_cases hp : s.phase = .fault
    · simpa [hp] using h.fault_iff.2 hp
    · simpa [hp] using hx
  acc_lt hp := by simp at hp
  enc_bits _ hp := by simp at hp
  enc_units _ hp := by simp at hp
  enc_done _ hp := by simp at hp
  dec_bits _ hp := by simp at hp
  dec_counts := h.dec_counts
  units_le := h.units_le
  bytes_le := h.bytes_le
  idle_clear hp := by simp at hp

theorem CountsInv.writeFailed {s : State} (h : CountsInv s) : DataPathInv (writeFailed s) :=
  CountsInv.raise (s := sinkWrite s.buf s) ⟨h.fault_iff, h.dec_counts, h.units_le, h.bytes_le⟩ (by decide)

/-- The end of a FIN, from the data path it ends with. -/
theorem finalize_dataPathInv {s : State} (hc : CountsInv s) (hd : DataPathInv { s with phase := .done }) :
    (finalize s).Ends DataPathInv DataPathInv :=
  finalize_ends (fun _ => hd.with_output) (fun _ _ => hd.with_output) fun _ _ => hc.writeFailed

theorem finish_dataPathInv {r : Run} (h : r.Ends DataPathInv DataPathInv) : DataPathInv r.finish :=
  h.finish (fun _ ht => ht.with_output) fun _ ht => ht

/-- The data path with the values it has at a session's start and after reset (10_state.md R42). -/
theorem dataPathInv_of_clear {s : State} (hf : s.fault ≠ .ok ↔ s.phase = .fault) (ha : s.acc = 0#8)
    (hn : s.bitCount = 0#3) (hr : s.totalBytesRead = 0) (hw : s.totalUnitsWritten = 0)
    (hm : s.phase = .idle → s.mode = .enc) : DataPathInv s where
  fault_iff := hf
  acc_lt _ := by simp [ha, hn]
  enc_bits _ _ := by simp [hn, hr]
  enc_units _ _ := by simp [hw, hr]
  enc_done _ _ := ⟨hn, by simp [hw, hr, encodedLength]⟩
  dec_bits _ _ := by simp [hn]
  dec_counts _ := ⟨hr, hw⟩
  units_le := by simp [hw]
  bytes_le _ _ := by simp [hr]
  idle_clear hp := ⟨ha, hn, hr, hw, hm hp⟩

/-! ### Encode sessions -/

/-- What no statement of ENC.PUT or ENC.FIN moves once the byte is counted: an encode session that has read `n`
bytes. -/
structure EncSession (n : Nat) (s : State) : Prop where
  phase : s.phase = .active
  mode : s.mode = .enc
  fault : s.fault = .ok
  bytes : s.totalBytesRead = n
  limit : ∀ m, s.params.maxN = some m → n ≤ m

/-- The loop of ENC.PUT when `k` bits of the session have entered: 10_state.md R35 and R36, bit by bit. -/
structure EncBits (n k : Nat) (s : State) : Prop extends EncSession n s where
  bits : s.bitCount.toNat = k % 6
  units : s.totalUnitsWritten = k / 6
  acc_lt : s.acc.toNat < 2 ^ s.bitCount.toNat

/-- ENC.FIN when no bit is held and `w` characters have been written. -/
structure EncChars (n w : Nat) (s : State) : Prop extends EncSession n s where
  bits : s.bitCount = 0#3
  acc : s.acc = 0#8
  units : s.totalUnitsWritten = w

namespace EncSession
variable {n : Nat} {s : State}

theorem stored (h : EncSession n s) (x : Byte) : EncSession n (stored s x) :=
  ⟨by simpa using h.phase, by simpa using h.mode, by simpa using h.fault, by simpa using h.bytes,
    by simpa using h.limit⟩

theorem with_regs (h : EncSession n s) {a : BitVec 8} {k : BitVec 3} {w : Nat} :
    EncSession n { s with acc := a, bitCount := k, totalUnitsWritten := w } :=
  ⟨h.phase, h.mode, h.fault, h.bytes, h.limit⟩

theorem counts (h : EncSession n s) (hu : s.totalUnitsWritten ≤ encodedLength n) : CountsInv s where
  fault_iff := by simp [h.fault, h.phase]
  dec_counts hm := by simp [h.mode] at hm
  units_le := by rw [h.bytes]; exact hu
  bytes_le m hm := by rw [h.bytes]; exact h.limit m hm

/-- APPEND stores, or its Write fails and the invariant is kept. -/
theorem append (h : EncSession n s) (hu : s.totalUnitsWritten ≤ encodedLength n) (x : Byte) :
    (append x s).Ends (fun t => t = Machine.stored s x) DataPathInv :=
  append_ends rfl fun _ _ => (h.counts hu).writeFailed

end EncSession

/-- After eight bits a byte the loop's invariant is that of the data path (10_state.md R36). -/
theorem EncBits.dataPathInv {n : Nat} {s : State} (h : EncBits n (8 * n) s) : DataPathInv s where
  fault_iff := (h.counts (by rw [h.units, encodedLength]; omega)).fault_iff
  acc_lt _ := h.acc_lt
  enc_bits _ _ := by rw [h.bits, h.bytes]; omega
  enc_units _ _ := by rw [h.units, h.bytes]; omega
  enc_done _ hp := by simp [h.phase] at hp
  dec_bits hm := by simp [h.mode] at hm
  dec_counts hm := by simp [h.mode] at hm
  units_le := by rw [h.units, h.bytes, encodedLength]; omega
  bytes_le m hm := by rw [h.bytes]; exact h.limit m hm
  idle_clear hp := by simp [h.phase] at hp

theorem DataPathInv.encBits {s : State} (h : DataPathInv s) (hp : s.phase = .active) (hm : s.mode = .enc) :
    EncBits s.totalBytesRead (8 * s.totalBytesRead) s where
  phase := hp
  mode := hm
  fault := h.fault_ok (by simp [hp])
  bytes := rfl
  limit := h.bytes_le
  bits := by rw [h.enc_bits hm hp]; omega
  units := by rw [h.enc_units hm hp]; omega
  acc_lt := h.acc_lt (by simp [hp])

/-- One turn of ENC.PUT's loop counts one bit (40_encoder.md R120). -/
theorem EncBits.encodeBit {n k : Nat} {s : State} (h : EncBits n k s) (hk : k < 8 * n) (b : Bool) :
    (encodeBit b s).Ends (EncBits n (k + 1)) DataPathInv := by
  have hbits := h.bits
  have hs : EncSession n { s with acc := shiftIn s.acc b } := h.with_regs
  simp only [Machine.encodeBit]
  split
  · have hu : s.totalUnitsWritten ≤ encodedLength n := by rw [h.units, encodedLength]; omega
    refine (hs.append hu _).andThen ?_
    rintro _ rfl
    refine ⟨(hs.stored _).with_regs, ?_, ?_, by simp⟩
    · simp only [BitVec.toNat_ofNat]; omega
    · simp only [stored_totalUnitsWritten, h.units]; omega
  · have hn : (BitVec.ofNat 3 (s.bitCount.toNat + 1)).toNat = s.bitCount.toNat + 1 :=
      (BitVec.toNat_ofNat ..).trans (Nat.mod_eq_of_lt (by omega))
    refine ⟨h.with_regs, ?_, ?_, ?_⟩
    · simp only [hn]; omega
    · simp only [h.units]; omega
    · simp only [hn]
      exact shiftIn_lt b h.acc_lt (by omega)

theorem encPut_dataPathInv {s : State} (b : Byte) (h : DataPathInv s) (hp : s.phase = .active) (hm : s.mode = .enc) :
    DataPathInv (encPutBody b s).finish := by
  apply finish_dataPathInv
  have he := h.encBits hp hm
  unfold encPutBody
  split
  · exact h.counts.raise (by decide)
  · next hlimit =>
    have hroom : ∀ m, s.params.maxN = some m → s.totalBytesRead + 1 ≤ m := fun m hmax =>
      Nat.lt_of_le_of_ne (h.bytes_le m hmax) fun e => hlimit (by rw [hmax, e])
    have hstart : EncBits (s.totalBytesRead + 1) (8 * s.totalBytesRead)
        { s with totalBytesRead := s.totalBytesRead + 1 } :=
      ⟨⟨hp, hm, he.fault, rfl, hroom⟩, he.bits, he.units, he.acc_lt⟩
    exact (forBits_ends_count (fun j c t hj ht => ht.encodeBit hj c) b.bitsMsbFirst (Nat.le_refl _) hstart).mono
      (fun _ ht => ht.dataPathInv) fun _ ht => ht

/-- Step 1 of ENC.FIN rounds the count of characters up (40_encoder.md R122). -/
theorem EncBits.emitPartial {n k : Nat} {s : State} (h : EncBits n k s) (hk : k ≤ 8 * n) :
    (emitPartial s).Ends (EncChars n ((k + 5) / 6)) DataPathInv := by
  have hbits := h.bits
  have hunits := h.units
  unfold Machine.emitPartial
  split
  · next h0 =>
    have hacc := h.acc_lt
    simp only [h0, BitVec.toNat_ofNat, Nat.zero_mod] at hbits hacc
    exact ⟨h.toEncSession, h0, BitVec.eq_of_toNat_eq (by simpa using hacc), by rw [hunits]; omega⟩
  · next hne =>
    have hpos : s.bitCount.toNat ≠ 0 := fun e => hne (BitVec.eq_of_toNat_eq e)
    have hu : s.totalUnitsWritten ≤ encodedLength n := by rw [hunits, encodedLength]; omega
    have hs : EncSession n { s with acc := s.acc <<< (6 - s.bitCount.toNat) } := h.with_regs
    refine (hs.append hu _).andThen ?_
    rintro _ rfl
    exact ⟨(hs.stored _).with_regs, rfl, rfl, by simp only [stored_totalUnitsWritten, hunits]; omega⟩

theorem EncChars.stored {n w : Nat} {s : State} (h : EncChars n w s) (x : Byte) : EncChars n w (stored s x) :=
  ⟨h.toEncSession.stored x, by simpa using h.bits, by simpa using h.acc, by simpa using h.units⟩

/-- The pads of ENC.FIN are one character each (40_encoder.md R122). -/
theorem EncChars.emitPads {n w k : Nat} {s : State} (h : EncChars n w s) (hk : w + k ≤ encodedLength n) :
    (emitPads k s).Ends (EncChars n (w + k)) DataPathInv := by
  induction k generalizing w s with
  | zero => exact h
  | succ k ih =>
    refine (h.append (by rw [h.units]; omega) pad).andThen ?_
    rintro _ rfl
    have hs := h.stored pad
    have hnext : EncChars n (w + 1) { Machine.stored s pad with
        totalUnitsWritten := (Machine.stored s pad).totalUnitsWritten + 1 } :=
      ⟨hs.with_regs, hs.bits, hs.acc, by simp only [hs.units]⟩
    rw [Nat.add_comm k, ← Nat.add_assoc] at hk ⊢
    exact ih hnext hk

/-- With all of the final length out, DONE has the invariant (40_encoder.md R123). -/
theorem EncChars.done {n : Nat} {s : State} (h : EncChars n (encodedLength n) s) :
    DataPathInv { s with phase := .done } where
  fault_iff := by simp [h.fault]
  acc_lt _ := by simp [h.acc, h.bits]
  enc_bits _ hp := by simp at hp
  enc_units _ hp := by simp at hp
  enc_done _ _ := ⟨h.bits, by simp only [h.units, h.bytes]⟩
  dec_bits hm := by simp [h.mode] at hm
  dec_counts hm := by simp [h.mode] at hm
  units_le := by simp only [h.units, h.bytes, Nat.le_refl]
  bytes_le m hmax := by simp only [h.bytes]; exact h.limit m hmax
  idle_clear hp := by simp at hp

theorem encFin_dataPathInv {s : State} (h : DataPathInv s) (hp : s.phase = .active) (hm : s.mode = .enc) :
    DataPathInv (encFinBody s).finish := by
  refine finish_dataPathInv (Run.Ends.andThen (P := EncChars s.totalBytesRead (encodedLength s.totalBytesRead)) ?_
    fun t ht => finalize_dataPathInv (ht.counts ht.units.le) ht.done)
  refine ((h.encBits hp hm).emitPartial (Nat.le_refl _)).andThen fun t ht => ?_
  have hle : (8 * s.totalBytesRead + 5) / 6 ≤ encodedLength s.totalBytesRead := by rw [encodedLength]; omega
  rw [emitPadding, ht.bytes, ht.units]
  simpa [Nat.add_sub_cancel' hle] using ht.emitPads (Nat.add_sub_cancel' hle).le

/-! ### Decode sessions -/

/-- What no statement of a decode command moves: a decode session, whose counts are 0 (10_state.md R23, R24). -/
structure DecSession (s : State) : Prop where
  phase : s.phase = .active
  mode : s.mode = .dec
  fault : s.fault = .ok
  bytes : s.totalBytesRead = 0
  units : s.totalUnitsWritten = 0

/-- The loop of DEC.SYM when `k` bits have entered, counted from the end of a byte (10_state.md R35). -/
structure DecBits (k : Nat) (s : State) : Prop extends DecSession s where
  bits : s.bitCount.toNat = k % 8
  acc_lt : s.acc.toNat < 2 ^ s.bitCount.toNat

namespace DecSession
variable {s : State}

theorem stored (h : DecSession s) (x : Byte) : DecSession (stored s x) :=
  ⟨by simpa using h.phase, by simpa using h.mode, by simpa using h.fault, by simpa using h.bytes,
    by simpa using h.units⟩

theorem with_regs (h : DecSession s) {a : BitVec 8} {k : BitVec 3} :
    DecSession { s with acc := a, bitCount := k } :=
  ⟨h.phase, h.mode, h.fault, h.bytes, h.units⟩

theorem counts (h : DecSession s) : CountsInv s where
  fault_iff := by simp [h.fault, h.phase]
  dec_counts _ := ⟨h.bytes, h.units⟩
  units_le := by simp [h.units]
  bytes_le m _ := by simp [h.bytes]

/-- A decode session keeps the invariant where the accumulator holds an even number of bits (10_state.md R37). -/
theorem dataPathInv (h : DecSession s) (hacc : s.acc.toNat < 2 ^ s.bitCount.toNat)
    (heven : s.bitCount.toNat % 2 = 0) : DataPathInv s where
  fault_iff := h.counts.fault_iff
  acc_lt _ := hacc
  enc_bits hm := by simp [h.mode] at hm
  enc_units hm := by simp [h.mode] at hm
  enc_done hm := by simp [h.mode] at hm
  dec_bits _ _ := heven
  dec_counts := h.counts.dec_counts
  units_le := h.counts.units_le
  bytes_le := h.counts.bytes_le
  idle_clear hp := by simp [h.phase] at hp

end DecSession

theorem DataPathInv.decSession {s : State} (h : DataPathInv s) (hp : s.phase = .active) (hm : s.mode = .dec) :
    DecSession s where
  phase := hp
  mode := hm
  fault := h.fault_ok (by simp [hp])
  bytes := (h.dec_counts hm).left
  units := (h.dec_counts hm).right

/-- One turn of DEC.SYM's loop counts one bit (41_decoder.md R140). -/
theorem DecBits.decodeBit {k : Nat} {s : State} (h : DecBits k s) (b : Bool) :
    (decodeBit b s).Ends (DecBits (k + 1)) DataPathInv := by
  have hbits := h.bits
  have hs : DecSession { s with acc := shiftIn s.acc b } := h.with_regs
  simp only [Machine.decodeBit]
  split
  · refine Run.Ends.andThen (append_ends (hs.stored _) fun _ _ => hs.counts.writeFailed) fun u hu =>
      ⟨hu.with_regs, ?_, by simp⟩
    simp only [BitVec.toNat_ofNat]; omega
  · have hn : (BitVec.ofNat 3 (s.bitCount.toNat + 1)).toNat = s.bitCount.toNat + 1 :=
      (BitVec.toNat_ofNat ..).trans (Nat.mod_eq_of_lt (by omega))
    refine ⟨h.with_regs, ?_, ?_⟩
    · simp only [hn]; omega
    · simp only [hn]
      exact shiftIn_lt b h.acc_lt (by omega)

theorem decSym_dataPathInv {s : State} (v : Sextet) (h : DataPathInv s) (hp : s.phase = .active) (hm : s.mode = .dec) :
    DataPathInv (decSymBody v s).finish := by
  have heven : s.bitCount.toNat % 2 = 0 := h.dec_bits hm (by simp [hp])
  have hstart : DecBits s.bitCount.toNat s :=
    ⟨h.decSession hp hm, by have := s.bitCount.isLt; omega, h.acc_lt (by simp [hp])⟩
  refine finish_dataPathInv ((forBits_ends_count (fun j c t _ ht => ht.decodeBit c) v.bitsMsbFirst (Nat.le_refl _)
    hstart).mono (fun t ht => ht.dataPathInv ht.acc_lt ?_) fun _ ht => ht)
  have hbits : t.bitCount.toNat = (s.bitCount.toNat + 6) % 8 := ht.bits
  omega

theorem decPad_dataPathInv {s : State} (h : DataPathInv s) (hp : s.phase = .active) (hm : s.mode = .dec) :
    DataPathInv (decPadBody s).finish := by
  have heven : s.bitCount.toNat % 2 = 0 := h.dec_bits hm (by simp [hp])
  have hn : (BitVec.ofNat 3 (s.bitCount.toNat - 2)).toNat = s.bitCount.toNat - 2 :=
    (BitVec.toNat_ofNat ..).trans (Nat.mod_eq_of_lt (Nat.sub_lt_of_lt s.bitCount.isLt))
  refine finish_dataPathInv ((h.decSession hp hm).with_regs.dataPathInv ?_ ?_)
  · simp only [hn]
    exact shiftRight_two_lt (h.acc_lt (by simp [hp]))
  · simp only [hn]; omega

/-- DEC.FIN leaves the data path, left-over bits included (41_decoder.md R145). -/
theorem decFin_dataPathInv {s : State} (h : DataPathInv s) (hp : s.phase = .active) (hm : s.mode = .dec) :
    DataPathInv (finalize s).finish := by
  refine finish_dataPathInv (finalize_dataPathInv h.counts ?_)
  have hs := h.decSession hp hm
  exact
    { fault_iff := by simp [hs.fault]
      acc_lt := fun _ => h.acc_lt (by simp [hp])
      enc_bits := by simp [hm]
      enc_units := by simp [hm]
      enc_done := by simp [hm]
      dec_bits := fun _ _ => h.dec_bits hm (by simp [hp])
      dec_counts := h.dec_counts
      units_le := h.units_le
      bytes_le := h.bytes_le
      idle_clear := by simp }

/-! ### Every step -/

theorem Fresh.dataPathInv {s t : State} (h : Fresh s t) : DataPathInv t := by
  cases h with
  | resets es inputs answers n => exact dataPathInv_of_clear (by simp) rfl rfl rfl rfl fun _ => rfl
  | opens m rest =>
    refine dataPathInv_of_clear ?_ rfl rfl rfl rfl fun hp => ?_
    · cases ha : (s.took rest).nextAnswer <;> simp [ha]
    · cases ha : (s.took rest).nextAnswer <;> simp [ha] at hp

theorem Continues.dataPathInv {s t : State} (h : Continues s t) (hi : DataPathInv s) : DataPathInv t := by
  have took (rest : List Input) : DataPathInv (s.took rest) := hi.with_output
  cases h with
  | keeps inputs rsp => exact hi.with_output
  | raises x rest hx => exact (took rest).counts.raise hx
  | encPut b rest hput hfin hp hm => exact encPut_dataPathInv b (took rest) hp hm
  | decSym v rest hput hfin hp hm => exact decSym_dataPathInv v (took rest) hp hm
  | decPad rest hput hfin hp hm => exact decPad_dataPathInv (took rest) hp hm
  | encFin rest hput hfin hp hm => exact encFin_dataPathInv (took rest) hp hm
  | decFin rest hput hfin hp hm => exact decFin_dataPathInv (took rest) hp hm

/-- Settles O38: a step that starts anew clears the data path, and any other keeps the invariant bit by bit. -/
theorem stepKeepsDataPathInvariant : Obligations.StepKeepsDataPathInvariant := fun _ _ hi h =>
  (step_fresh_or_continues h).elim (fun hf => hf.2.dataPathInv) fun hc => hc.2.dataPathInv hi

end Sys2Proof.Machine

namespace Sys2Proof.Machine

/-! ### What the commands of a session keep -/

/-- APPEND stores once the sink has taken a full buffer, or that Write fails. -/
theorem append_ends_answered {P Q : State → Prop} {x : Byte} {s : State}
    (hp : (s.buf.length = s.params.capacity → s.nextAnswer = true) → P (stored s x))
    (hq : s.buf.length = s.params.capacity → s.nextAnswer = false → Q (writeFailed s)) : (append x s).Ends P Q := by
  rw [append_eq]
  split
  · next h => exact hq h.1 h.2
  · next h => exact hp fun hfull => by simpa [hfull] using h

/-- `R` holds after every step from `s` that starts nothing, since `P` holds between the statements of a command of a
session and each way to end the command turns it into `R`. Both are blind to the registers they do not name. -/
structure SessionRule (s : State) (P R : State → Prop) : Prop where
  idle : R s
  host : ∀ {u : State} (is : List Input) (x : Option FaultCode), R u → R { u with inputs := is, rsp := x }
  raise : ∀ {u : State} (x : FaultCode), R u → R (raise x u)
  start : s.phase = .active → ∀ rest, P (s.took rest)
  regs : ∀ {u : State} (a : BitVec 8) (n : BitVec 3) (r w : Nat), P u →
    P { u with acc := a, bitCount := n, totalBytesRead := r, totalUnitsWritten := w }
  stored : ∀ {u : State} (x : Byte), (u.buf.length = u.params.capacity → u.nextAnswer = true) → P u → P (stored u x)
  failed : ∀ {u : State}, u.buf.length = u.params.capacity → u.nextAnswer = false → P u → R (writeFailed u)
  put : ∀ {u : State}, P u → R u
  fin : s.finsIn .enc = true ∨ s.finsIn .dec = true → ∀ {u : State}, P u → (finalize u).Ends R R

namespace SessionRule
variable {s t : State} {P R : State → Prop}

theorem append (h : SessionRule s P R) (x : Byte) {u : State} (hu : P u) : (append x u).Ends P R :=
  append_ends_answered (fun ha => h.stored x ha hu) fun hfull ha => h.failed hfull ha hu

theorem finish (h : SessionRule s P R) {r : Run} (hr : r.Ends R R) : R r.finish :=
  hr.finish (fun t ht => h.host t.inputs _ ht) fun _ ht => ht

theorem finish_put (h : SessionRule s P R) {r : Run} (hr : r.Ends P R) : R r.finish :=
  h.finish (hr.mono (fun _ ht => h.put ht) fun _ ht => ht)

theorem continues (h : SessionRule s P R) (hc : Continues s t) : R t := by
  have took (rest : List Input) : R (s.took rest) := h.host rest s.rsp h.idle
  cases hc with
  | keeps inputs rsp => exact h.host inputs rsp h.idle
  | raises x rest => exact h.raise x (took rest)
  | encPut b rest hput hfin hp =>
    exact h.finish_put (encPutBody_ends (fun u a n hu => h.regs a n u.totalBytesRead u.totalUnitsWritten hu)
      (fun u a n hu => h.regs a n u.totalBytesRead _ hu) (fun x _ hu => h.append x hu)
      (fun _ => h.raise _ (took rest)) fun _ => h.regs s.acc s.bitCount _ s.totalUnitsWritten (h.start hp rest))
  | decSym v rest hput hfin hp =>
    exact h.finish_put (decSymBody_ends (fun u a n hu => h.regs a n u.totalBytesRead u.totalUnitsWritten hu)
      (fun x _ hu => h.append x hu) (h.start hp rest))
  | decPad rest hput hfin hp =>
    exact h.finish_put (r := decPadBody _)
      (h.regs _ _ s.totalBytesRead s.totalUnitsWritten (h.start hp rest))
  | encFin rest hput hfin hp =>
    exact h.finish ((encFinAppends_ends (fun u a n hu => h.regs a n u.totalBytesRead u.totalUnitsWritten hu)
      (fun u hu => h.regs u.acc u.bitCount u.totalBytesRead _ hu) (fun x _ hu => h.append x hu)
      (h.start hp rest)).andThen fun _ hu => h.fin (.inl hfin) hu)
  | decFin rest hput hfin hp => exact h.finish (h.fin (.inr hfin) (h.start hp rest))

end SessionRule

/-! ### The steps that start anew -/

/-- Without reset, what starts anew is an OPEN. -/
theorem step_opens {s t : State} (hr : s.resets = false) (hs : s.startsAnew = true) (h : step s = .next t) :
    ∃ m rest, t = openSession m (s.took rest) := by
  rcases hi : s.inputs with _ | ⟨w | _ | ⟨w, p⟩, rest⟩
  · simp [State.startsAnew, State.nextWord, hr, hi] at hs
  · rw [startsAnew_of_cmd hi] at hs
    obtain ⟨rfl | rfl, hp⟩ := of_decide_eq_true hs
    · have hd : decode s.mode 0x100#10 = .instr .openE := rfl
      cases h.symm.trans ((step_instr hi hd).trans (outsideSession_inactive hp))
      exact ⟨.enc, rest, rfl⟩
    · have hd : decode s.mode 0x101#10 = .instr .openD := rfl
      cases h.symm.trans ((step_instr hi hd).trans (outsideSession_inactive hp))
      exact ⟨.dec, rest, rfl⟩
  · simp [State.resets, hi] at hr
  · simp [State.resets, hi] at hr

/-- Every step without reset. -/
theorem step_opens_or_continues {s t : State} (hr : s.resets = false) (h : step s = .next t) :
    (∃ m rest, t = openSession m (s.took rest)) ∨ s.startsAnew = false ∧ Continues s t := by
  cases hs : s.startsAnew with
  | true => exact .inl (step_opens hr hs h)
  | false => exact .inr ⟨rfl, step_continues h hs⟩

/-- The state in which the host gives the command `w` whole, and then the rest. -/
abbrev State.given (s : State) (w : CmdWord) (rest : List Input) : State := { s with inputs := .cmd w :: rest }

/-- Every reset is one inside a command: at a command boundary, before the first event of a NOP. -/
theorem step_resets_inside {s t : State} (hr : s.resets = true) (h : step s = .next t) :
    ∃ w p rest u, step (s.given w rest) = .next u ∧ t = resetInside p (s.took rest) u ∧
      ∀ m, (s.given w rest).finsIn m = s.finsIn m := by
  rcases hi : s.inputs with _ | ⟨w | _ | ⟨w, p⟩, rest⟩
  · simp [State.resets, hi] at hr
  · simp [State.resets, hi] at hr
  · have hd : decode s.mode 0x000#10 = .instr .nop := rfl
    refine ⟨0x000#10, ⟨0, false⟩, rest, _, step_instr (s := s.given 0x000#10 rest) rfl hd, ?_,
      fun m => by simp [State.finsIn, State.nextWord, hi]⟩
    rw [step_rst hi] at h
    cases h
    simp [resetInside, eventsBeforeReset, hardReset]
  · obtain ⟨u, hu, -⟩ := step_spec (s.given w rest)
    rw [step_rstDuring hi hu] at h
    cases h
    exact ⟨w, p, rest, u, hu, rfl, fun m => by simp [State.finsIn, State.nextWord, hi]⟩

end Sys2Proof.Machine

namespace Sys2Proof.Machine

/-! ### Questions to the sink and their answers -/

/-- The event is no question without its answer. -/
def SinkEvent.Complete (e : SinkEvent) : Prop := e.isQuestion = e.answer.isSome

theorem questionsIn_of_complete {es : List SinkEvent} (h : ∀ e ∈ es, e.Complete) :
    questionsIn es = (answersIn es).length := by
  rw [questionsIn, answersIn, List.length_filterMap_eq_countP]
  exact List.countP_congr fun e he => by rw [h e he]

/-- From `s` to `t` the events `new` have been issued, each question of them with the next answer of the sink. -/
structure Asks (s t : State) (new : List SinkEvent) : Prop where
  events : t.events = s.events ++ new
  answers : t.answers = s.answers.drop (answersIn new).length
  freeCount : t.freeCount = s.freeCount + questionsIn new
  inOrder : ∀ j ok, (answersIn new)[j]? = some ok → s.answerAt j = ok
  complete : ∀ e ∈ new, e.Complete

theorem Asks.nothing {s t : State} (he : t.events = s.events) (ha : t.answers = s.answers)
    (hf : t.freeCount = s.freeCount) : Asks s t [] :=
  ⟨by simp [he], by simp [ha], by simp [hf], by simp, by simp⟩

namespace Asks
variable {s t u : State} {new : List SinkEvent}

/-- One question more, answered by the sink's next answer (20_memory.md R78). -/
theorem question (h : Asks s t new) {e : SinkEvent} (hq : e.isQuestion = true) (hans : e.answer = some t.nextAnswer)
    (he : u.events = t.events ++ [e]) (ha : u.answers = t.answers.tail) (hf : u.freeCount = t.freeCount + 1) :
    Asks s u (new ++ [e]) := by
  have hanswers : answersIn (new ++ [e]) = answersIn new ++ [t.nextAnswer] := by
    simp [answersIn, hans]
  have hcount : t.freeCount = s.freeCount + (answersIn new).length := by
    rw [h.freeCount, questionsIn_of_complete h.complete]
  have hnext : s.answerAt (answersIn new).length = t.nextAnswer := by
    rw [← answerAt_zero, answerAt_shift h.answers hcount, Nat.add_zero]
  refine ⟨by simp [he, h.events], by simp [ha, hanswers, h.answers], ?_, fun j ok hj => ?_, fun f hf => ?_⟩
  · rw [hf, h.freeCount, questionsIn_append, Nat.add_assoc]
    simp [questionsIn, hq]
  · rw [hanswers, List.getElem?_append] at hj
    split at hj
    · exact h.inOrder j ok hj
    · next hlt =>
      obtain ⟨hj0, hok⟩ := List.getElem?_eq_some_iff.1 hj
      have hj' : j = (answersIn new).length := by
        rw [List.length_singleton] at hj0
        omega
      rw [hj', hnext]
      simpa using hok
  · rcases List.mem_append.1 hf with hf | hf
    · exact h.complete f hf
    · rw [List.mem_singleton.1 hf, SinkEvent.Complete, hq, hans]
      rfl

/-- A Write is a question. -/
theorem write (h : Asks s t new) (seq : List Byte) (he : u.events = t.events ++ [.wrote seq t.nextAnswer])
    (ha : u.answers = t.answers.tail) (hf : u.freeCount = t.freeCount + 1) :
    Asks s u (new ++ [.wrote seq t.nextAnswer]) :=
  h.question rfl rfl he ha hf

/-- A Close is none. -/
theorem close (h : Asks s t new) (he : u.events = t.events ++ [.closed]) (ha : u.answers = t.answers)
    (hf : u.freeCount = t.freeCount) : Asks s u (new ++ [.closed]) := by
  have hanswers : answersIn (new ++ [.closed]) = answersIn new := by simp [answersIn, SinkEvent.answer]
  refine ⟨by simp [he, h.events], by rw [ha, h.answers, hanswers], ?_, by rw [hanswers]; exact h.inOrder, ?_⟩
  · rw [hf, h.freeCount, questionsIn_append]
    rfl
  · intro f hf
    rcases List.mem_append.1 hf with hf | hf
    · exact h.complete f hf
    · rw [List.mem_singleton.1 hf]
      rfl

end Asks

/-- From `s` to `t` the sink has only been added to: questions with their answers to the events, and bytes to the
record (20_memory.md R62, R70). -/
def Appends (s t : State) : Prop := (∃ new, Asks s t new) ∧ s.sinkData <+: t.sinkData

/-- The relation speaks of the sink's fields alone. -/
theorem Appends.congr {s t u : State} (h : Appends s t) (he : u.events = t.events) (ha : u.answers = t.answers)
    (hf : u.freeCount = t.freeCount) (hd : u.sinkData = t.sinkData) : Appends s u := by
  obtain ⟨⟨new, hnew⟩, hdata⟩ := h
  exact ⟨⟨new, he.trans hnew.events, ha.trans hnew.answers, hf.trans hnew.freeCount, hnew.inOrder, hnew.complete⟩,
    hd ▸ hdata⟩

theorem stored_appends {s u : State} (x : Byte) (ha : u.buf.length = u.params.capacity → u.nextAnswer = true)
    (h : Appends s u) : Appends s (stored u x) := by
  unfold stored
  split
  · next hfull =>
    obtain ⟨⟨new, hnew⟩, hdata⟩ := h
    exact ⟨⟨_, hnew.write u.buf (by rw [ha hfull]) rfl rfl⟩, hdata.trans (List.prefix_append _ _)⟩
  · exact h.congr rfl rfl rfl rfl

theorem sinkWrite_appends {s u : State} (h : Appends s u) : Appends s (sinkWrite u.buf u) := by
  obtain ⟨⟨new, hnew⟩, hdata⟩ := h
  exact ⟨⟨_, hnew.write u.buf rfl rfl rfl⟩, hdata.trans (List.prefix_append _ _)⟩

theorem close_appends {s u : State} (h : Appends s u) : Appends s (close u) := by
  obtain ⟨⟨new, hnew⟩, hdata⟩ := h
  exact ⟨⟨_, hnew.close rfl rfl rfl⟩, hdata⟩

/-- Every command of a session only adds to the sink. -/
theorem appends_rule (s : State) : SessionRule s (Appends s) (Appends s) where
  idle := ⟨⟨[], .nothing rfl rfl rfl⟩, List.prefix_refl _⟩
  host _ _ h := h.congr rfl rfl rfl rfl
  raise _ h := h.congr rfl rfl rfl rfl
  start _ _ := ⟨⟨[], .nothing rfl rfl rfl⟩, List.prefix_refl _⟩
  regs _ _ _ _ h := h.congr rfl rfl rfl rfl
  stored x ha h := stored_appends x ha h
  failed _ _ h := (sinkWrite_appends h).congr rfl rfl rfl rfl
  put h := h
  fin _ _ h := finalize_ends (fun _ => (close_appends h).congr rfl rfl rfl rfl)
    (fun _ _ => (close_appends (sinkWrite_appends h)).congr rfl rfl rfl rfl)
    fun _ _ => (sinkWrite_appends h).congr rfl rfl rfl rfl

theorem openSession_asks (m : Mode) (rest : List Input) (s : State) :
    Asks s (openSession m (s.took rest)) [.opened s.nextAnswer] :=
  (Asks.nothing (t := s) rfl rfl rfl).question (e := .opened s.nextAnswer) rfl rfl rfl rfl rfl

/-- A step without reset leaves no question without its answer. -/
theorem step_asks {s t : State} (hr : s.resets = false) (h : step s = .next t) : ∃ new, Asks s t new := by
  rcases step_opens_or_continues hr h with ⟨m, rest, rfl⟩ | ⟨-, hc⟩
  · exact ⟨_, openSession_asks m rest s⟩
  · exact ((appends_rule s).continues hc).1

/-- Reset leaves, of the events `new` that a command without it issues, those before it. -/
theorem step_resets_events {s t : State} (hr : s.resets = true) (h : step s = .next t) :
    ∃ w p rest u new, step (s.given w rest) = .next u ∧ t = resetInside p (s.took rest) u ∧
      (∀ m, (s.given w rest).finsIn m = s.finsIn m) ∧
      Asks s u new ∧ u.events.drop s.events.length = new := by
  obtain ⟨w, p, rest, u, hu, rfl, hfin⟩ := step_resets_inside hr h
  obtain ⟨new, hnew⟩ := step_asks rfl hu
  exact ⟨w, p, rest, u, new, hu, rfl, hfin,
    ⟨hnew.events, hnew.answers, hnew.freeCount, hnew.inOrder, hnew.complete⟩, by simp [hnew.events]⟩

end Sys2Proof.Machine

namespace Sys2Proof.Machine

/-! ### The sink is append-only -/

/-- Of a command that reset cuts short, the last question alone may be left without its answer. -/
theorem questionsIn_eventsBeforeReset {new : List SinkEvent} (h : ∀ e ∈ new, e.Complete) (p : ResetPoint) (n : Nat) :
    (answersIn (eventsBeforeReset p n new)).length ≤ questionsIn (eventsBeforeReset p n new) ∧
      questionsIn (eventsBeforeReset p n new) ≤ (answersIn (eventsBeforeReset p n new)).length + 1 := by
  have hover : questionsIn (new.take p.after) = (answersIn (new.take p.after)).length :=
    questionsIn_of_complete fun e he => h e (List.mem_of_mem_take he)
  rw [answersIn_eventsBeforeReset, ← hover]
  rcases eventsBeforeReset_cases p n new with ⟨hleft, -⟩ | ⟨e, -, -, hleft⟩ <;> rw [hleft]
  · exact ⟨Nat.le_refl _, Nat.le_succ _⟩
  · rw [questionsIn_append]
    exact ⟨Nat.le_add_right _ _, Nat.add_le_add_left (List.countP_le_length (l := [_])) _⟩

/-- The events left before reset have had the first answers of those the whole command has. -/
theorem answersIn_eventsBeforeReset_isPrefix (p : ResetPoint) (n : Nat) (new : List SinkEvent) :
    answersIn (eventsBeforeReset p n new) <+: answersIn new := by
  rw [answersIn_eventsBeforeReset]
  exact (List.take_prefix _ _).filterMap _

/-- Settles O48: `Asks` says it of a step without reset, and reset leaves a first part of such a step's events. -/
theorem sinkIsAppendOnly : Obligations.SinkIsAppendOnly := by
  intro s t h
  refine ⟨?_, fun hs => ?_⟩
  · cases hr : s.resets with
    | false =>
      obtain ⟨new, hnew⟩ := step_asks hr h
      have hq := questionsIn_of_complete hnew.complete
      exact ⟨new, hnew.events, hnew.answers, hnew.freeCount, hnew.inOrder, hq.ge, hq.le.trans (Nat.le_succ _),
        fun _ => hq⟩
    | true =>
      obtain ⟨w, p, rest, u, new, -, rfl, -, hasks, rfl⟩ := step_resets_events hr h
      obtain ⟨hge, hle⟩ := questionsIn_eventsBeforeReset hasks.complete p s.freeCount
      refine ⟨_, rfl, rfl, rfl, fun j ok hj => ?_, hge, hle, by simp⟩
      obtain ⟨rest', hrest⟩ := answersIn_eventsBeforeReset_isPrefix p s.freeCount (u.events.drop s.events.length)
      refine hasks.inOrder j ok ?_
      rw [← hrest, List.getElem?_append_left (List.getElem?_eq_some_iff.1 hj).1, hj]
  · obtain ⟨more, hmore⟩ := ((appends_rule s).continues (step_continues h hs)).2
    exact ⟨more, hmore.symm⟩

end Sys2Proof.Machine

namespace Sys2Proof.Machine

/-! ### The order of sink events -/

theorem sinkPhase_append (es fs : List SinkEvent) : sinkPhase (es ++ fs) = fs.foldl SinkPhase.after (sinkPhase es) :=
  List.foldl_append

theorem sinkPhase_concat (es : List SinkEvent) (e : SinkEvent) : sinkPhase (es ++ [e]) = (sinkPhase es).after e :=
  sinkPhase_append es [e]

theorem recordOf_concat (es : List SinkEvent) (e : SinkEvent) : recordOf (es ++ [e]) = recordAfter (recordOf es) e :=
  List.foldl_append

theorem foldl_after_wrongOrder (es : List SinkEvent) : es.foldl SinkPhase.after .wrongOrder = .wrongOrder := by
  induction es with
  | nil => rfl
  | cons e es ih => exact ih

/-- Once out of order, always out of order. -/
theorem sinkPhase_of_append {es fs : List SinkEvent} (h : sinkPhase (es ++ fs) ≠ .wrongOrder) :
    sinkPhase es ≠ .wrongOrder := by
  intro he
  rw [sinkPhase_append, he, foldl_after_wrongOrder] at h
  exact h rfl

/-- An Open may stand anywhere (43_session_control.md R182). -/
theorem after_opened {q : SinkPhase} (h : q ≠ .wrongOrder) (ok : Bool) :
    q.after (.opened ok) = if ok then .streaming else .broken := by
  cases q with
  | wrongOrder => exact absurd rfl h
  | quiet | streaming | broken => cases ok <;> rfl

theorem streaming_after_wrote {seq : List Byte} (h : seq ≠ []) (ok : Bool) :
    SinkPhase.streaming.after (.wrote seq ok) = if ok then .streaming else .broken := by
  simp [SinkPhase.after, h]

/-- Where an event may stand, it may be cut short. -/
theorem after_cut {q : SinkPhase} {e : SinkEvent} (n : Nat) (h : q.after e ≠ .wrongOrder) :
    q.after (e.cut n) ≠ .wrongOrder := by
  cases e with
  | opened ok =>
    cases q with
    | wrongOrder => exact h
    | quiet | streaming | broken => simp [SinkEvent.cut, SinkPhase.after]
  | wrote seq ok =>
    cases q with
    | streaming =>
      have hne : seq ≠ [] := fun he => h (by simp [SinkPhase.after, he])
      simp [SinkEvent.cut, SinkPhase.after, hne]
    | quiet | broken | wrongOrder => exact h
  | closed => exact h
  | openCut => exact h
  | writeCut seq kept => exact h

/-- Reset in the middle of a command keeps the order of its events (70_reset_and_hazards.md R231). -/
theorem sinkPhase_eventsBeforeReset {es new : List SinkEvent} (p : ResetPoint) (n : Nat)
    (h : sinkPhase (es ++ new) ≠ .wrongOrder) : sinkPhase (es ++ eventsBeforeReset p n new) ≠ .wrongOrder := by
  rcases eventsBeforeReset_cases p n new with ⟨hleft, -⟩ | ⟨e, -, he, hleft⟩ <;> rw [hleft]
  · rw [← List.take_append_drop p.after new, ← List.append_assoc] at h
    exact sinkPhase_of_append h
  · have hsplit : new = new.take p.after ++ [e] ++ new.drop (p.after + 1) := by
      obtain ⟨hlt, rfl⟩ := List.getElem?_eq_some_iff.1 he
      simp
    rw [hsplit, ← List.append_assoc, ← List.append_assoc] at h
    rw [← List.append_assoc, sinkPhase_concat]
    refine after_cut _ ?_
    rw [← sinkPhase_concat]
    exact sinkPhase_of_append h

/-- The invariant between two statements of a command of a session. -/
structure StreamOrder (s : State) : Prop where
  active : s.phase = .active
  capacity : 1 ≤ s.params.capacity
  streaming : sinkPhase s.events = .streaming
  opened : s.sinkOpen = true
  record : s.sinkData = recordOf s.events

/-- In IDLE and in FAULT the order alone is left to claim. -/
theorem sinkOrderInv_of_ordered {s : State} (h : sinkPhase s.events ≠ .wrongOrder)
    (hp : s.phase = .idle ∨ s.phase = .fault) : SinkOrderInv s where
  ordered := h
  active_streaming ha := by simp [ha] at hp
  done_quiet hd := by simp [hd] at hp
  record hr := by rcases hr with hr | hr <;> simp [hr] at hp

theorem SinkOrderInv.with_host {s : State} (h : SinkOrderInv s) (is : List Input) (x : Option FaultCode) :
    SinkOrderInv { s with inputs := is, rsp := x } :=
  ⟨h.ordered, h.active_streaming, h.done_quiet, h.record⟩

theorem SinkOrderInv.stream {s : State} (h : SinkOrderInv s) (hc : 1 ≤ s.params.capacity) (hp : s.phase = .active) :
    StreamOrder s where
  active := hp
  capacity := hc
  streaming := (h.active_streaming hp).left
  opened := (h.active_streaming hp).right
  record := h.record (.inl hp)

namespace StreamOrder
variable {s t : State}

theorem sinkOrderInv (h : StreamOrder s) : SinkOrderInv s where
  ordered := by simp [h.streaming]
  active_streaming _ := ⟨h.streaming, h.opened⟩
  done_quiet hd := by simp [h.active] at hd
  record _ := h.record

theorem with_regs (h : StreamOrder s) {a : BitVec 8} {n : BitVec 3} {r w : Nat} {is : List Input} :
    StreamOrder { s with acc := a, bitCount := n, totalBytesRead := r, totalUnitsWritten := w, inputs := is } :=
  ⟨h.active, h.capacity, h.streaming, h.opened, h.record⟩

/-- A full buffer is not empty, so its Write is in order (20_memory.md R68). -/
theorem buf_ne_nil (h : StreamOrder s) (hfull : s.buf.length = s.params.capacity) : s.buf ≠ [] :=
  List.ne_nil_of_length_pos (hfull ▸ h.capacity)

theorem phase_wrote (h : StreamOrder s) (hne : s.buf ≠ []) (ok : Bool) :
    sinkPhase (s.events ++ [.wrote s.buf ok]) = if ok then .streaming else .broken := by
  rw [sinkPhase_concat, h.streaming, streaming_after_wrote hne]

theorem record_wrote (h : StreamOrder s) : s.sinkData ++ s.buf = recordOf (s.events ++ [.wrote s.buf true]) := by
  rw [recordOf_concat, ← h.record]
  rfl

theorem stored (h : StreamOrder s) (x : Byte) : StreamOrder (stored s x) := by
  unfold Machine.stored
  split
  · next hfull => exact ⟨h.active, h.capacity, h.phase_wrote (h.buf_ne_nil hfull) true, h.opened, h.record_wrote⟩
  · exact ⟨h.active, h.capacity, h.streaming, h.opened, h.record⟩

/-- A failed Write is the last event of its session (60_exceptions.md R210). -/
theorem writeFailed (h : StreamOrder s) (hne : s.buf ≠ []) (ha : s.nextAnswer = false) :
    SinkOrderInv (writeFailed s) := by
  have hp : sinkPhase (s.events ++ [.wrote s.buf s.nextAnswer]) = .broken := by rw [h.phase_wrote hne, ha]; rfl
  exact sinkOrderInv_of_ordered (s := Machine.writeFailed s) (by simp [Machine.writeFailed, hp]) (.inr rfl)

/-- A Close follows what has been written (42_buffer_flush.md R163). -/
theorem done (h : sinkPhase s.events = .streaming) (hr : s.sinkData = recordOf s.events) :
    SinkOrderInv { close s with phase := .done } := by
  have hp : sinkPhase (s.events ++ [.closed]) = .quiet := by rw [sinkPhase_concat, h]; rfl
  have hd : s.sinkData = recordOf (s.events ++ [.closed]) := by rw [recordOf_concat, ← hr]; rfl
  exact ⟨by simp [hp], by simp, fun _ => ⟨hp, rfl⟩, fun _ => hd⟩

theorem finalize (h : StreamOrder s) : (finalize s).Ends SinkOrderInv SinkOrderInv :=
  finalize_ends (fun _ => done h.streaming h.record)
    (fun hne ha => done (by simp [ha, h.phase_wrote hne]) (by simp [ha, h.record_wrote]))
    fun hne ha => h.writeFailed hne ha

end StreamOrder

/-- Every command of a session keeps the order. -/
theorem sinkOrder_rule {s : State} (hc : 1 ≤ s.params.capacity) (h : SinkOrderInv s) :
    SessionRule s StreamOrder SinkOrderInv where
  idle := h
  host is x hu := hu.with_host is x
  raise _ hu := sinkOrderInv_of_ordered hu.ordered (.inr rfl)
  start hp _ := (h.stream hc hp).with_regs
  regs _ _ _ _ hu := hu.with_regs
  stored x _ hu := hu.stored x
  failed hfull ha hu := hu.writeFailed (hu.buf_ne_nil hfull) ha
  put hu := hu.sinkOrderInv
  fin _ _ hu := hu.finalize

/-- OPEN starts an order of its own, whatever session it abandons (43_session_control.md R182). -/
theorem openSession_sinkOrder {s : State} (h : SinkOrderInv s) (m : Mode) (rest : List Input) :
    SinkOrderInv (openSession m (s.took rest)) := by
  have hp (ok : Bool) : sinkPhase (s.events ++ [.opened ok]) = if ok then .streaming else .broken := by
    rw [sinkPhase_concat, after_opened h.ordered]
  cases ha : (s.took rest).nextAnswer with
  | false => exact sinkOrderInv_of_ordered (by simp [ha, hp]) (.inr (by simp [ha]))
  | true =>
    refine ⟨by simp [ha, hp], fun _ => by simp [ha, hp], fun hd => by simp [ha] at hd, fun _ => ?_⟩
    simp [recordOf_concat, recordAfter]

theorem step_keeps_sinkOrder {s t : State} (hr : s.resets = false) (hc : 1 ≤ s.params.capacity) (hi : SinkOrderInv s)
    (h : step s = .next t) : SinkOrderInv t := by
  rcases step_opens_or_continues hr h with ⟨m, rest, rfl⟩ | ⟨-, hcont⟩
  · exact openSession_sinkOrder hi m rest
  · exact (sinkOrder_rule hc hi).continues hcont

/-- Settles O42: a step without reset keeps the order statement by statement, and reset leaves a first part of the
events of such a step, the last one perhaps cut short. -/
theorem stepKeepsSinkOrder : Obligations.StepKeepsSinkOrder := by
  intro s t hwf hi h
  cases hr : s.resets with
  | false => exact step_keeps_sinkOrder hr hwf.1 hi h
  | true =>
    obtain ⟨w, p, rest, u, new, hu, rfl, -, hasks, hnew⟩ := step_resets_events hr h
    have hordered : sinkPhase (s.events ++ new) ≠ .wrongOrder := by
      rw [← hasks.events]
      exact (step_keeps_sinkOrder (s := s.given w rest) rfl hwf.1 (hi.with_host _ s.rsp) hu).ordered
    refine sinkOrderInv_of_ordered ?_ (.inl rfl)
    rw [resetInside_events, hnew]
    exact sinkPhase_eventsBeforeReset p _ hordered

end Sys2Proof.Machine

namespace Sys2Proof.Machine

/-! ### The sizes of Writes -/

/-- What is claimed of the Write that an event is, if it is one, of a command from `s` (20_memory.md R68). -/
def WriteFits (s : State) (e : SinkEvent) : Prop :=
  ∀ seq, e.payload = some seq → 1 ≤ seq.length ∧ seq.length ≤ s.params.capacity ∧
    (s.finsIn .enc = false → s.finsIn .dec = false → seq.length = s.params.capacity) ∧
    ∀ kept, e = .writeCut seq kept → kept.length ≤ seq.length

theorem writeFits_of_no_payload {s : State} {e : SinkEvent} (h : e.payload = none) : WriteFits s e :=
  fun seq he => by simp [h] at he

/-- A Write of the whole capacity fits any command. -/
theorem writeFits_full {s : State} {seq : List Byte} (ok : Bool) (hc : 1 ≤ s.params.capacity)
    (h : seq.length = s.params.capacity) : WriteFits s (.wrote seq ok) := by
  rintro _ ⟨⟩
  exact ⟨h ▸ hc, h.le, fun _ _ => h, by simp⟩

/-- A smaller one fits a FIN. -/
theorem writeFits_fin {s : State} {seq : List Byte} (ok : Bool) (hfin : s.finsIn .enc = true ∨ s.finsIn .dec = true)
    (hne : seq ≠ []) (h : seq.length ≤ s.params.capacity) : WriteFits s (.wrote seq ok) := by
  rintro _ ⟨⟩
  exact ⟨List.length_pos_of_ne_nil hne, h, fun henc hdec => by simp [henc, hdec] at hfin, by simp⟩

/-- Of a Write cut short the sink keeps no more than its length (93_implementation_defined.md U4). -/
theorem writeFits_cut {s : State} {e : SinkEvent} (n : Nat) (h : WriteFits s e) : WriteFits s (e.cut n) := by
  intro seq he
  rw [cut_payload] at he
  obtain ⟨hpos, hle, hfull, hkept⟩ := h seq he
  refine ⟨hpos, hle, hfull, fun kept hcut => ?_⟩
  cases e with
  | wrote seq' ok =>
    cases hcut
    exact length_landed_le n _ false
  | writeCut seq' kept' => exact hkept kept hcut
  | opened ok => cases he
  | closed => cases he
  | openCut => cases he

/-- From `s` to `t` every Write fits. -/
def WritesFit (s t : State) : Prop := ∃ new, t.events = s.events ++ new ∧ ∀ e ∈ new, WriteFits s e

theorem writesFit_nothing {s t : State} (h : t.events = s.events) : WritesFit s t := ⟨[], by simp [h], by simp⟩

theorem WritesFit.concat {s t u : State} (h : WritesFit s t) {e : SinkEvent} (he : u.events = t.events ++ [e])
    (hfit : WriteFits s e) : WritesFit s u := by
  obtain ⟨new, hnew, hall⟩ := h
  exact ⟨new ++ [e], by simp [he, hnew],
    fun f hf => (List.mem_append.1 hf).elim (hall f) fun hf => List.mem_singleton.1 hf ▸ hfit⟩

theorem WritesFit.close {s t u : State} (h : WritesFit s t) (he : u.events = t.events ++ [.closed]) : WritesFit s u :=
  h.concat he (writeFits_of_no_payload rfl)

/-- Between the statements of a command from `s`: the Writes so far fit, and so does the buffer. -/
structure FitStream (s t : State) : Prop where
  fits : WritesFit s t
  stream : StreamInv t
  params : t.params = s.params

namespace FitStream
variable {s u : State}

/-- A full buffer goes out whole. -/
theorem write_full (h : FitStream s u) (hfull : u.buf.length = u.params.capacity) (ok : Bool) :
    WriteFits s (.wrote u.buf ok) :=
  writeFits_full ok (h.params ▸ h.stream.capacity) (hfull.trans (by rw [h.params]))

/-- The drain writes what there is. -/
theorem write_fin (h : FitStream s u) (hfin : s.finsIn .enc = true ∨ s.finsIn .dec = true) (hne : u.buf ≠ [])
    (ok : Bool) : WriteFits s (.wrote u.buf ok) :=
  writeFits_fin ok hfin hne (h.params ▸ h.stream.len_le)

theorem stored (h : FitStream s u) (x : Byte) : FitStream s (stored u x) := by
  refine ⟨?_, h.stream.stored x, (stored_params u x).trans h.params⟩
  unfold Machine.stored
  split
  · next hfull => exact h.fits.concat rfl (h.write_full hfull true)
  · exact h.fits

theorem finalize (h : FitStream s u) (hfin : s.finsIn .enc = true ∨ s.finsIn .dec = true) :
    (finalize u).Ends (WritesFit s) (WritesFit s) :=
  finalize_ends (fun _ => h.fits.close rfl)
    (fun hne _ => (h.fits.concat (u := sinkWrite u.buf u) rfl (h.write_fin hfin hne _)).close rfl)
    fun hne _ => h.fits.concat rfl (h.write_fin hfin hne _)

end FitStream

/-- The Writes of every command of a session fit. -/
theorem writesFit_rule {s : State} (hc : 1 ≤ s.params.capacity) (h : BufferInv s) :
    SessionRule s (FitStream s) (WritesFit s) where
  idle := writesFit_nothing rfl
  host _ _ hu := hu
  raise _ hu := hu
  start hp _ := ⟨writesFit_nothing rfl, (h.with_host _ s.rsp).stream hc hp, rfl⟩
  regs _ _ _ _ hu := ⟨hu.fits, hu.stream.with_regs, hu.params⟩
  stored x _ hu := hu.stored x
  failed hfull _ hu := hu.fits.concat rfl (hu.write_full hfull _)
  put hu := hu.fits
  fin hfin _ hu := hu.finalize hfin

theorem step_writesFit {s t : State} (hr : s.resets = false) (hc : 1 ≤ s.params.capacity) (hi : BufferInv s)
    (h : step s = .next t) : WritesFit s t := by
  rcases step_opens_or_continues hr h with ⟨m, rest, rfl⟩ | ⟨-, hcont⟩
  · exact (writesFit_nothing (t := s) rfl).concat rfl (writeFits_of_no_payload rfl)
  · exact (writesFit_rule hc hi).continues hcont

/-- A step that resets leaves events of the command it cuts short, the last one perhaps cut short itself. -/
theorem step_resets_writesFit {s t : State} (hr : s.resets = true) (hc : 1 ≤ s.params.capacity) (hi : BufferInv s)
    (h : step s = .next t) : WritesFit s t := by
  obtain ⟨w, p, rest, u, new, hu, rfl, hfin, hasks, hnew⟩ := step_resets_events hr h
  obtain ⟨new', hevents, hall⟩ := step_writesFit (s := s.given w rest) rfl hc (hi.with_host _ s.rsp) hu
  have hfits (e : SinkEvent) (he : e ∈ new) : WriteFits s e := by
    have heq : new' = new := List.append_cancel_left (hevents.symm.trans hasks.events)
    simpa only [WriteFits, hfin] using hall e (heq ▸ he)
  refine ⟨_, resetInside_events p _ u, fun e he => ?_⟩
  rw [hnew] at he
  rcases mem_eventsBeforeReset he with he | ⟨f, k, hf, rfl⟩
  · exact hfits e he
  · exact writeFits_cut k (hfits f hf)

/-- Settles O49: the events of a step are those `WritesFit` speaks of. -/
theorem writeSizesAreCapacityOrRemainder : Obligations.WriteSizesAreCapacityOrRemainder := by
  intro s t new e seq hwf hi h hnew he hseq
  have hfit : WritesFit s t := by
    cases hr : s.resets with
    | false => exact step_writesFit hr hwf.1 hi h
    | true => exact step_resets_writesFit hr hwf.1 hi h
  obtain ⟨new', hevents, hall⟩ := hfit
  have heq : new' = new := List.append_cancel_left (hevents.symm.trans hnew)
  exact hall e (heq ▸ he) seq hseq

end Sys2Proof.Machine

namespace Sys2Proof.Machine

/-! ### The tail -/

theorem tail_of_lt {s : State} {i : Nat} (h : i < s.buf.length) : s.tail i = s.buf[i] := by
  simp [State.tail, h]

/-- Settles O57: in DONE the buffer is the end of the record, behind what the capacity flushes have put there. -/
theorem tailIsTheWholeOutputUnlessOverflowed : Obligations.TailIsTheWholeOutputUnlessOverflowed := by
  refine ⟨fun s hi hp => ?_, fun s i h => tail_of_lt h⟩
  obtain ⟨flushed, hdata, -, hover⟩ := hi.done_tail hp
  refine ⟨if_pos hp, fun ho => ?_, fun ho => ?_⟩
  · have hnil : flushed = [] := by simpa [ho] using hover
    simp [hdata, hnil]
  · have hpos : 0 < flushed.length := List.length_pos_of_ne_nil (hover.1 ho)
    rw [hdata, List.length_append]
    exact ⟨List.suffix_append _ _, by omega⟩

end Sys2Proof.Machine

namespace Sys2Proof.Machine

/-! ### Two blocks that differ in their capacity -/

/-- The fields compared, where a command has written some of them. -/
theorem SameButCapacity.with_regs {s t : State} (h : SameButCapacity s t) {a a' : BitVec 8} {n n' : BitVec 3}
    {r r' w w' : Nat} (ha : a = a') (hn : n = n') (hr : r = r') (hw : w = w') :
    SameButCapacity { s with acc := a, bitCount := n, totalBytesRead := r, totalUnitsWritten := w }
      { t with acc := a', bitCount := n', totalBytesRead := r', totalUnitsWritten := w' } :=
  ⟨h.cntW_eq, ha, hn, hr, hw, h.mode_eq, h.phase_eq, h.fault_eq, h.rsp_eq, h.inputs_eq, h.output_eq⟩

namespace SameButCapacity
variable {s t : State}

theorem with_rsp (h : SameButCapacity s t) (x : Option FaultCode) :
    SameButCapacity { s with rsp := x } { t with rsp := x } :=
  ⟨h.cntW_eq, h.acc_eq, h.bits_eq, h.bytes_eq, h.units_eq, h.mode_eq, h.phase_eq, h.fault_eq, rfl, h.inputs_eq,
    h.output_eq⟩

theorem took (h : SameButCapacity s t) (rest : List Input) : SameButCapacity (s.took rest) (t.took rest) :=
  ⟨h.cntW_eq, h.acc_eq, h.bits_eq, h.bytes_eq, h.units_eq, h.mode_eq, h.phase_eq, h.fault_eq, h.rsp_eq, rfl,
    h.output_eq⟩

theorem raise (h : SameButCapacity s t) (x : FaultCode) : SameButCapacity (raise x s) (raise x t) where
  cntW_eq := h.cntW_eq
  acc_eq := h.acc_eq
  bits_eq := h.bits_eq
  bytes_eq := h.bytes_eq
  units_eq := h.units_eq
  mode_eq := h.mode_eq
  phase_eq := rfl
  fault_eq := by simp [h.phase_eq, h.fault_eq]
  rsp_eq := rfl
  inputs_eq := h.inputs_eq
  output_eq hp := by simp at hp

/-- The limit of the counts is that of `CNT_W` alone (60_exceptions.md R207). -/
theorem maxN_eq (h : SameButCapacity s t) : s.params.maxN = t.params.maxN := by
  simp only [Params.maxN, Params.maxCount, h.cntW_eq]

end SameButCapacity

/-- Two such states in a session, where the output is what the sink and the buffer have together. -/
structure SameSession (s t : State) : Prop extends SameButCapacity s t where
  active : s.phase = .active

namespace SameSession
variable {s t : State}

theorem with_regs (h : SameSession s t) {a a' : BitVec 8} {n n' : BitVec 3} {r r' w w' : Nat} (ha : a = a')
    (hn : n = n') (hr : r = r') (hw : w = w') :
    SameSession { s with acc := a, bitCount := n, totalBytesRead := r, totalUnitsWritten := w }
      { t with acc := a', bitCount := n', totalBytesRead := r', totalUnitsWritten := w' } :=
  ⟨h.toSameButCapacity.with_regs ha hn hr hw, h.active⟩

theorem active_right (h : SameSession s t) : t.phase = .active := h.phase_eq.symm.trans h.active

theorem output (h : SameSession s t) : s.sinkData ++ s.buf = t.sinkData ++ t.buf := by
  simpa [State.logicalOutput, h.active, h.active_right] using h.output_eq (.inl h.active)

/-- APPEND adds the element to the output, wherever either block has room for it (10_state.md R39). -/
theorem stored (h : SameSession s t) (x : Byte) : SameSession (stored s x) (stored t x) where
  cntW_eq := by simpa using h.cntW_eq
  acc_eq := by simpa using h.acc_eq
  bits_eq := by simpa using h.bits_eq
  bytes_eq := by simpa using h.bytes_eq
  units_eq := by simpa using h.units_eq
  mode_eq := by simpa using h.mode_eq
  phase_eq := by simpa using h.phase_eq
  fault_eq := by simpa using h.fault_eq
  rsp_eq := by simpa using h.rsp_eq
  inputs_eq := by simpa using h.inputs_eq
  output_eq _ := by simp [State.logicalOutput, h.active, h.active_right, stored_output, h.output]
  active := by simpa using h.active

end SameSession

/-! ### Two runs of one command -/

/-- A Write of the command has been answered fail. -/
abbrev State.writeFails (s : State) : Prop := s.rsp = some .sinkWriteFailure

/-- Two runs go on from states related by `S`, or the same raise has ended both, or a Write of one of them has
failed. -/
inductive RunsAgree (S : State → State → Prop) : Run → Run → Prop
  | ok {u v : State} (h : S u v) : RunsAgree S (.ok u) (.ok v)
  | raised {u v : State} (h : SameButCapacity u v) : RunsAgree S (.raised u) (.raised v)
  | leftFails {u : State} {r : Run} (h : u.writeFails) : RunsAgree S (.raised u) r
  | rightFails {v : State} {r : Run} (h : v.writeFails) : RunsAgree S r (.raised v)

/-- Two ends of a command agree unless the sink has failed one of them. -/
def AgreeUnlessSinkFails (u v : State) : Prop :=
  u.rsp ≠ some .sinkWriteFailure → v.rsp ≠ some .sinkWriteFailure →
    u.rsp ≠ some .sinkOpenFailure → v.rsp ≠ some .sinkOpenFailure → SameButCapacity u v

theorem SameButCapacity.agree {u v : State} (h : SameButCapacity u v) : AgreeUnlessSinkFails u v := fun _ _ _ _ => h

namespace RunsAgree
variable {S S' : State → State → Prop} {r r' : Run} {f g : State → Run}

theorem andThen (h : RunsAgree S r r') (hf : ∀ u v, S u v → RunsAgree S' (f u) (g v)) :
    RunsAgree S' (r.andThen f) (r'.andThen g) := by
  cases h with
  | ok h => exact hf _ _ h
  | raised h => exact .raised h
  | leftFails h => exact .leftFails h
  | rightFails h => exact .rightFails h

/-- Two runs that a failed Write alone can end. -/
theorem of_ends {P P' : State → Prop} (h : r.Ends P State.writeFails) (h' : r'.Ends P' State.writeFails)
    (hS : ∀ u v, P u → P' v → S u v) : RunsAgree S r r' := by
  cases r with
  | raised u => exact .leftFails h
  | ok u =>
    cases r' with
    | raised v => exact .rightFails h'
    | ok v => exact .ok (hS u v h h')

theorem finish (h : RunsAgree S r r') (hS : ∀ u v, S u v → SameButCapacity u v) :
    AgreeUnlessSinkFails r.finish r'.finish := by
  intro hu hv _ _
  cases h with
  | ok h => exact (hS _ _ h).with_rsp _
  | raised h => exact h
  | leftFails h => exact absurd h hu
  | rightFails h => exact absurd h hv

end RunsAgree

section Commands
variable {s t : State}

theorem append_agree (h : SameSession s t) (x : Byte) : RunsAgree SameSession (append x s) (append x t) :=
  .of_ends (P := fun u => u = stored s x) (P' := fun v => v = stored t x) (append_ends rfl fun _ _ => rfl)
    (append_ends rfl fun _ _ => rfl) fun _ _ hu hv => hu ▸ hv ▸ h.stored x

theorem forBits_agree {body : Bool → State → Run}
    (hbody : ∀ b u v, SameSession u v → RunsAgree SameSession (body b u) (body b v)) (bs : List Bool)
    (h : SameSession s t) : RunsAgree SameSession (forBits body bs s) (forBits body bs t) := by
  induction bs generalizing s t with
  | nil => exact .ok h
  | cons b bs ih => exact (hbody b s t h).andThen fun u v huv => ih huv

theorem encodeBit_agree (b : Bool) (h : SameSession s t) :
    RunsAgree SameSession (encodeBit b s) (encodeBit b t) := by
  have hacc : shiftIn s.acc b = shiftIn t.acc b := by rw [h.acc_eq]
  simp only [encodeBit, ← hacc, ← h.bits_eq]
  split
  · refine (append_agree (h.with_regs rfl rfl h.bytes_eq h.units_eq) _).andThen fun u v huv => .ok ?_
    exact huv.with_regs rfl rfl huv.bytes_eq (by rw [huv.units_eq])
  · exact .ok (h.with_regs rfl rfl h.bytes_eq h.units_eq)

theorem encPut_agree (b : Byte) (h : SameSession s t) : RunsAgree SameSession (encPutBody b s) (encPutBody b t) := by
  simp only [encPutBody, ← h.maxN_eq, ← h.bytes_eq]
  split
  · exact .raised (h.toSameButCapacity.raise _)
  · exact forBits_agree (fun b u v huv => encodeBit_agree b huv) _ (h.with_regs h.acc_eq h.bits_eq rfl h.units_eq)

theorem decodeBit_agree (b : Bool) (h : SameSession s t) :
    RunsAgree SameSession (decodeBit b s) (decodeBit b t) := by
  have hacc : shiftIn s.acc b = shiftIn t.acc b := by rw [h.acc_eq]
  simp only [decodeBit, ← hacc, ← h.bits_eq]
  split
  · refine (append_agree (h.with_regs rfl rfl h.bytes_eq h.units_eq) _).andThen fun u v huv => .ok ?_
    exact huv.with_regs rfl rfl huv.bytes_eq huv.units_eq
  · exact .ok (h.with_regs rfl rfl h.bytes_eq h.units_eq)

theorem decSym_agree (v : Sextet) (h : SameSession s t) : RunsAgree SameSession (decSymBody v s) (decSymBody v t) :=
  forBits_agree (fun b _ _ huv => decodeBit_agree b huv) _ h

theorem decPad_agree (h : SameSession s t) : RunsAgree SameSession (decPadBody s) (decPadBody t) :=
  .ok (h.with_regs (by rw [h.acc_eq]) (by rw [h.bits_eq]) h.bytes_eq h.units_eq)

theorem emitPartial_agree (h : SameSession s t) : RunsAgree SameSession (emitPartial s) (emitPartial t) := by
  have hacc : s.acc <<< (6 - s.bitCount.toNat) = t.acc <<< (6 - s.bitCount.toNat) := by rw [h.acc_eq]
  simp only [emitPartial, ← h.bits_eq, ← hacc]
  split
  · exact .ok h
  · refine (append_agree (h.with_regs rfl rfl h.bytes_eq h.units_eq) _).andThen fun u v huv => .ok ?_
    exact huv.with_regs rfl rfl huv.bytes_eq (by rw [huv.units_eq])

theorem emitPads_agree (k : Nat) (h : SameSession s t) : RunsAgree SameSession (emitPads k s) (emitPads k t) := by
  induction k generalizing s t with
  | zero => exact .ok h
  | succ k ih =>
    refine (append_agree h pad).andThen fun u v huv => ih ?_
    exact huv.with_regs huv.acc_eq huv.bits_eq huv.bytes_eq (by rw [huv.units_eq])

theorem emitPadding_agree (h : SameSession s t) : RunsAgree SameSession (emitPadding s) (emitPadding t) := by
  simp only [emitPadding, ← h.bytes_eq, ← h.units_eq]
  exact emitPads_agree _ h

/-- The session's output has been drained and its sink closed, whatever Write that took (42_buffer_flush.md R162,
R163). -/
def ClosedFrom (s u : State) : Prop :=
  ∃ es as n, u = { s with
    sinkData := s.sinkData ++ s.buf, events := es, answers := as, freeCount := n, sinkOpen := false, phase := .done }

theorem finalize_closes (s : State) : (finalize s).Ends (ClosedFrom s) State.writeFails :=
  finalize_ends (fun he => ⟨s.events ++ [.closed], s.answers, s.freeCount, by simp [close, he]⟩)
    (fun _ ha => ⟨s.events ++ [.wrote s.buf true, .closed], s.answers.tail, s.freeCount + 1, by
      simp [close, sinkWrite, State.takeAnswer, ha]⟩)
    fun _ _ => rfl

/-- After the drain the sink has what the sink and the buffer had. -/
theorem SameSession.closed {u v : State} (h : SameSession s t) (hu : ClosedFrom s u) (hv : ClosedFrom t v) :
    SameButCapacity u v := by
  obtain ⟨es, as, n, rfl⟩ := hu
  obtain ⟨es', as', n', rfl⟩ := hv
  exact ⟨h.cntW_eq, h.acc_eq, h.bits_eq, h.bytes_eq, h.units_eq, h.mode_eq, rfl, h.fault_eq, h.rsp_eq, h.inputs_eq,
    fun _ => h.output⟩

theorem finalize_agree (h : SameSession s t) : RunsAgree SameButCapacity (finalize s) (finalize t) :=
  .of_ends (finalize_closes s) (finalize_closes t) fun _ _ hu hv => h.closed hu hv

theorem encFin_agree (h : SameSession s t) : RunsAgree SameButCapacity (encFinBody s) (encFinBody t) :=
  ((emitPartial_agree h).andThen fun _ _ huv => emitPadding_agree huv).andThen fun _ _ huv => finalize_agree huv

/-! ### Dispatch -/

theorem inSession_agree {S : State → State → Prop} {selected : Mode → Bool} {body : State → Run} {u v : State}
    (h : SameButCapacity s t) (hS : ∀ a b, S a b → SameButCapacity a b)
    (hbody : selected s.mode = true → SameSession s t → RunsAgree S (body s) (body t))
    (hu : inSession (selected s.mode) body s = .next u) (hv : inSession (selected t.mode) body t = .next v) :
    AgreeUnlessSinkFails u v := by
  rcases inSession_cases hu with ⟨hp, rfl⟩ | ⟨hp, hsel, rfl⟩ <;>
    rcases inSession_cases hv with ⟨hp', rfl⟩ | ⟨hp', -, rfl⟩
  · exact (h.raise _).agree
  · exact absurd (h.phase_eq.trans hp') hp
  · exact absurd (h.phase_eq.symm.trans hp) hp'
  · exact (hbody hsel ⟨h, hp⟩).finish hS

/-- Two sessions opened alike, where the sink lets both (43_session_control.md R182). -/
theorem openSession_agree (h : SameButCapacity s t) (m : Mode) :
    AgreeUnlessSinkFails (openSession m s) (openSession m t) := by
  intro _ _ hs ht
  have hans : s.nextAnswer = true := by simpa using hs
  have hant : t.nextAnswer = true := by simpa using ht
  exact ⟨h.cntW_eq, rfl, rfl, rfl, rfl, rfl, by simp [hans, hant], by simp [hans, hant], by simp [hans, hant],
    h.inputs_eq, fun _ => by simp [State.logicalOutput]⟩

theorem outsideSession_agree {m : Mode} {u v : State} (h : SameButCapacity s t)
    (hu : outsideSession (openSession m) s = .next u) (hv : outsideSession (openSession m) t = .next v) :
    AgreeUnlessSinkFails u v := by
  by_cases hp : s.phase = .active
  · rw [outsideSession_active hp] at hu
    rw [outsideSession_active (h.phase_eq ▸ hp)] at hv
    cases hu
    cases hv
    exact (h.raise _).agree
  · rw [outsideSession_inactive hp] at hu
    rw [outsideSession_inactive (h.phase_eq ▸ hp)] at hv
    cases hu
    cases hv
    exact openSession_agree h m

theorem exec_agree {u v : State} (h : SameButCapacity s t) (i : Instr) (hu : exec i s = .next u)
    (hv : exec i t = .next v) : AgreeUnlessSinkFails u v := by
  have session (a b : State) (hab : SameSession a b) : SameButCapacity a b := hab.toSameButCapacity
  cases i with
  | nop =>
    cases hu
    cases hv
    exact (h.with_rsp _).agree
  | openE => exact outsideSession_agree h hu hv
  | openD => exact outsideSession_agree h hu hv
  | encPut b => exact inSession_agree (selected := (· == .enc)) h session (fun _ hst => encPut_agree b hst) hu hv
  | decSym c =>
    simp only [exec, execDecSym] at hu hv
    cases hr : rev c with
    | val x =>
      rw [hr] at hu hv
      exact inSession_agree (selected := (· == .dec)) h session (fun _ hst => decSym_agree x hst) hu hv
    | isPad =>
      rw [hr] at hu hv
      exact inSession_agree (selected := fun _ => false) h session (by simp) hu hv
    | bad =>
      rw [hr] at hu hv
      exact inSession_agree (selected := fun _ => false) h session (by simp) hu hv
  | decPad => exact inSession_agree (selected := (· == .dec)) h session (fun _ hst => decPad_agree hst) hu hv
  | decBad c =>
    exact inSession_agree (selected := fun m => m == .dec && rev c == .bad) (body := decBadBody) h session
      (fun _ hst => .raised (hst.toSameButCapacity.raise _)) hu hv
  | encFin =>
    exact inSession_agree (selected := (· == .enc)) h (fun _ _ hab => hab) (fun _ hst => encFin_agree hst) hu hv
  | decFin =>
    exact inSession_agree (selected := (· == .dec)) h (fun _ _ hab => hab) (fun _ hst => finalize_agree hst) hu hv

end Commands

/-- After reset nothing of the output is left to compare. -/
theorem resets_same {s t s' t' : State} (h : SameButCapacity s t) (hr : s.resets = true) (hs : step s = .next s')
    (ht : step t = .next t') : SameButCapacity s' t' := by
  have hr' : t.resets = true := by simpa [State.resets, h.inputs_eq] using hr
  have hinputs : s'.inputs = t'.inputs := by rw [step_inputs hs, step_inputs ht, h.inputs_eq]
  obtain ⟨es, is, as, n, rfl⟩ := step_resets hr hs
  obtain ⟨es', is', as', n', rfl⟩ := step_resets hr' ht
  exact ⟨h.cntW_eq, rfl, rfl, rfl, rfl, rfl, rfl, rfl, rfl, hinputs, by simp⟩

/-- Settles O51: the same input is next in both blocks; it resets both, or it is classified alike, and each instruction
agrees APPEND by APPEND. -/
theorem capacityDoesNotChangeTheOutput : Obligations.CapacityDoesNotChangeTheOutput := by
  intro s s' t t' h hs ht
  show AgreeUnlessSinkFails s' t'
  have hi := h.inputs_eq
  rcases hin : s.inputs with _ | ⟨w | _ | ⟨w, p⟩, rest⟩ <;> rw [hin] at hi
  · rw [step_waits hin] at hs
    rw [step_waits hi.symm] at ht
    cases hs
    cases ht
    exact h.agree
  · cases hd : decode s.mode w with
    | instr i =>
      rw [step_instr hin hd] at hs
      rw [step_instr hi.symm (h.mode_eq ▸ hd)] at ht
      exact exec_agree (h.took rest) i hs ht
    | illegal r =>
      rw [step_illegal hin hd] at hs
      rw [step_illegal hi.symm (h.mode_eq ▸ hd)] at ht
      cases hs
      cases ht
      exact ((h.took rest).raise _).agree
  · exact (resets_same h (by simp [State.resets, hin]) hs ht).agree
  · exact (resets_same h (by simp [State.resets, hin]) hs ht).agree

end Sys2Proof.Machine

namespace Sys2Proof

/-! ### Encoding and decoding (30_encoding.md R91 to R97) -/

/-- A PUT word in an encode session (30_encoding.md R95). -/
theorem decode_put_enc (b : Byte) : decode .enc (cmdWord 0b10#2 b) = .instr (.encPut b) := by simp [decode]

/-- A PUT word in a decode session (30_encoding.md R95, R96). -/
theorem decode_put_dec (c : Byte) : decode .dec (cmdWord 0b10#2 c) = .instr (decodeSymbol c) := by simp [decode]

theorem decodeSymbol_of_isVal {c : Byte} (h : (rev c).isVal = true) : decodeSymbol c = .decSym c := by
  unfold decodeSymbol
  cases hr : rev c with
  | val v => rfl
  | isPad => simp [hr, SymClass.isVal] at h
  | bad => simp [hr, SymClass.isVal] at h

theorem decodeSymbol_of_bad {c : Byte} (h : rev c = .bad) : decodeSymbol c = .decBad c := by
  simp [decodeSymbol, h]

@[simp] theorem decodeSymbol_pad : decodeSymbol pad = .decPad := by simp [decodeSymbol]

/-- A decode PUT selects an instruction of its own word, with an operand of the instruction's class (30_encoding.md
R96). -/
theorem decodeSymbol_spec (c : Byte) :
    encode (decodeSymbol c) = cmdWord 0b10#2 c ∧ (decodeSymbol c).wf = true ∧
      (decodeSymbol c).selectedIn .dec = true := by
  unfold decodeSymbol
  cases hr : rev c with
  | val v => exact ⟨rfl, by simp [Instr.wf, hr, SymClass.isVal], rfl⟩
  | isPad => exact ⟨by rw [rev_isPad c hr]; rfl, rfl, rfl⟩
  | bad => exact ⟨rfl, by simp [Instr.wf, hr], rfl⟩

end Sys2Proof

namespace Sys2Proof.Machine

/-- Settles O4: the mode is the one that selects the instruction, and of a symbol its class is left to look up. -/
theorem decodeOfEncodeIsTheInstruction : Obligations.DecodeOfEncodeIsTheInstruction := by
  intro i m hwf hm
  cases i with
  | nop => rfl
  | openE => rfl
  | openD => rfl
  | encPut b =>
    obtain rfl : m = .enc := eq_of_beq hm
    exact decode_put_enc b
  | decSym c =>
    obtain rfl : m = .dec := eq_of_beq hm
    rw [encode, decode_put_dec, decodeSymbol_of_isVal hwf]
  | decPad =>
    obtain rfl : m = .dec := eq_of_beq hm
    rw [encode, decode_put_dec, decodeSymbol_pad]
  | decBad c =>
    obtain rfl : m = .dec := eq_of_beq hm
    rw [encode, decode_put_dec, decodeSymbol_of_bad (eq_of_beq hwf)]
  | encFin =>
    obtain rfl : m = .enc := eq_of_beq hm
    rfl
  | decFin =>
    obtain rfl : m = .dec := eq_of_beq hm
    rfl

/-- Settles O5, by the kinds of a word: each names one instruction but PUT, whose word is its two fields. -/
theorem encodeOfDecodeIsTheWord : Obligations.EncodeOfDecodeIsTheWord := by
  intro m w i h
  rcases decode_kinds m w with ⟨-, r, hd⟩ | ⟨rfl, hd⟩ | ⟨rfl, hd⟩ | ⟨rfl, hd⟩ | ⟨ho, hd⟩ | ⟨rfl, hd⟩ <;>
    cases hd.symm.trans h
  · exact ⟨rfl, rfl, rfl⟩
  · exact ⟨rfl, rfl, rfl⟩
  · exact ⟨rfl, rfl, rfl⟩
  · have hw : cmdWord 0b10#2 (dataField w) = w := ho ▸ cmdWord_fields w
    cases m with
    | enc => exact ⟨hw, rfl, rfl⟩
    | dec =>
      obtain ⟨he, hwf, hm⟩ := decodeSymbol_spec (dataField w)
      exact ⟨he.trans hw, hwf, hm⟩
  · cases m with
    | enc => exact ⟨rfl, rfl, rfl⟩
    | dec => exact ⟨rfl, rfl, rfl⟩

/-- Settles O3: the fields of each word pick its row of the classification. -/
theorem decodeOfSpecWords : Obligations.DecodeOfSpecWords :=
  ⟨fun _ => rfl, fun _ => rfl, fun _ => rfl, rfl, rfl, rfl, rfl, rfl, rfl, rfl⟩

/-- The decoder rejects the reserved words and no other, in either mode (30_encoding.md R95, R97). -/
theorem decode_illegal_iff (m : Mode) (w : CmdWord) : (∃ r, decode m w = .illegal r) ↔ reservedWord w := by
  constructor
  · rintro ⟨r, h⟩
    rcases decode_kinds m w with ⟨hw, -⟩ | ⟨-, hd⟩ | ⟨-, hd⟩ | ⟨-, hd⟩ | ⟨-, hd⟩ | ⟨-, hd⟩
    · exact hw
    all_goals cases hd.symm.trans h
  · intro hw
    obtain ⟨hput, hnop, hopen, hfin⟩ := reserved_excludes hw
    rcases decode_kinds m w with ⟨-, hd⟩ | ⟨h, -⟩ | ⟨h, -⟩ | ⟨h, -⟩ | ⟨h, -⟩ | ⟨h, -⟩
    · exact hd
    · exact absurd h hnop
    · exact absurd (.inl h) hopen
    · exact absurd (.inr h) hopen
    · exact absurd h hput
    · exact absurd h hfin

/-- Settles O6: the rejected words by their kinds, and their number by counting them. -/
theorem reservedWordsAreTheIllegalOnes : Obligations.ReservedWordsAreTheIllegalOnes :=
  ⟨decode_illegal_iff, by decide +kernel⟩

end Sys2Proof.Machine

namespace Sys2Proof.Machine

/-! ### The sink's beats (30_encoding.md R101) -/

@[simp] theorem length_writeBeats (seq : List Byte) : (writeBeats seq).length = seq.length := by
  induction seq using writeBeats.induct with
  | case1 => rfl
  | case2 x => rfl
  | case3 x y rest ih => simp [writeBeats, ih]

/-- The beat at a position carries the element there, and `last` on the final position only. -/
theorem getElem?_writeBeats (seq : List Byte) (j : Nat) :
    (writeBeats seq)[j]? = seq[j]?.map (beat 0b10#2 (decide (j + 1 = seq.length))) := by
  induction seq using writeBeats.induct generalizing j with
  | case1 => rfl
  | case2 x => cases j <;> rfl
  | case3 x y rest ih =>
    cases j with
    | zero => simp [writeBeats]
    | succ j => simpa [writeBeats] using ih j

/-- Settles O58, from the beat at each position. -/
theorem writeBeatsCarryTheElementsInOrder : Obligations.WriteBeatsCarryTheElementsInOrder := by
  refine ⟨fun seq ok => ⟨length_writeBeats seq, fun j h => ?_⟩, fun _ => rfl, rfl⟩
  exact (getElem?_writeBeats seq j).trans (by rw [List.getElem?_eq_getElem h]; rfl)

/-! ### The registers -/

/-- `LEN_W` is the least width that holds 0 to `C` (00_scope.md R6). -/
theorem lenW_bounds {p : Params} (h : 1 ≤ p.capacity) : p.capacity < 2 ^ p.lenW ∧ 2 ^ (p.lenW - 1) ≤ p.capacity := by
  have hne : p.capacity ≠ 0 := by omega
  rw [Params.lenW, if_neg hne, Nat.add_sub_cancel]
  exact ⟨Nat.lt_log2_self, Nat.log2_self_le hne⟩

theorem lenRegister_toNat {s : State} (hc : 1 ≤ s.params.capacity) (h : s.bufWf) :
    s.lenRegister.toNat = s.buf.length :=
  (BitVec.toNat_ofNat ..).trans (Nat.mod_eq_of_lt (Nat.lt_of_le_of_lt h (lenW_bounds hc).1))

/-- Both counts of the data path fit their registers: `MAXN` bytes make at most `2^CNT_W - 1` characters
(60_exceptions.md R207). -/
theorem DataPathInv.counts_lt {s : State} {w : Nat} (h : DataPathInv s) (hw : s.params.cntW = some w) :
    s.totalBytesRead < 2 ^ w ∧ s.totalUnitsWritten < 2 ^ w := by
  have hbytes : s.totalBytesRead ≤ 3 * ((2 ^ w - 1) / 4) :=
    h.bytes_le _ (by simp [Params.maxN, Params.maxCount, hw])
  have hunits : s.totalUnitsWritten ≤ (s.totalBytesRead + 2) / 3 * 4 := h.units_le
  have hpos : 0 < 2 ^ w := Nat.two_pow_pos w
  omega

/-- Settles O59, from the bounds of `LEN_W` and of the two counts. -/
theorem countRegistersHoldTheirCountsWhole : Obligations.CountRegistersHoldTheirCountsWhole :=
  ⟨fun _ hp => lenW_bounds hp.1, fun _ hp hi => lenRegister_toNat hp.1 hi.len_le, fun _ => ⟨rfl, rfl⟩,
    fun _ _ hi hw => hi.counts_lt hw⟩

end Sys2Proof.Machine

namespace Sys2Proof.Machine

/-! ### The status word (30_encoding.md R100) -/

/-- A bit above the low part of a word is a bit of the high part. -/
theorem getLsbD_append_of_le {v w i : Nat} (hi : BitVec v) (lo : BitVec w) (h : w ≤ i) :
    (hi ++ lo).getLsbD i = hi.getLsbD (i - w) := by
  rw [BitVec.getLsbD_append, if_neg (Nat.not_lt.2 h)]

theorem getLsbD_append_ofBool_zero {v : Nat} (hi : BitVec v) (b : Bool) : (hi ++ BitVec.ofBool b).getLsbD 0 = b := by
  rw [BitVec.getLsbD_append, if_pos Nat.one_pos]
  cases b <;> rfl

/-- Settles O55: below each field lie as many fields as are passed over before it is read. -/
theorem statusWordHoldsItsFields : Obligations.StatusWordHoldsItsFields := by
  refine ⟨fun s => ?_, rfl, rfl, rfl, rfl, rfl, rfl⟩
  unfold State.status
  refine ⟨BitVec.extractLsb'_append_eq_right, ?mode, ?overflowed, ?trailing, ?fault, ?bitCount, ?reserved, ?acc⟩
  case mode =>
    rw [getLsbD_append_of_le _ _ (by decide)]
    exact getLsbD_append_ofBool_zero _ _
  case overflowed =>
    iterate 2 rw [getLsbD_append_of_le _ _ (by decide)]
    exact getLsbD_append_ofBool_zero _ _
  case trailing =>
    iterate 3 rw [getLsbD_append_of_le _ _ (by decide)]
    exact getLsbD_append_ofBool_zero _ _
  case fault =>
    iterate 4 rw [BitVec.extractLsb'_append_eq_of_le (by decide)]
    exact BitVec.extractLsb'_append_eq_right
  case bitCount =>
    iterate 5 rw [BitVec.extractLsb'_append_eq_of_le (by decide)]
    exact BitVec.extractLsb'_append_eq_right
  case reserved =>
    iterate 6 rw [getLsbD_append_of_le _ _ (by decide)]
    exact getLsbD_append_ofBool_zero _ false
  case acc =>
    iterate 7 rw [BitVec.extractLsb'_append_eq_of_le (by decide)]
    exact BitVec.extractLsb'_eq_self

end Sys2Proof.Machine

namespace Sys2Proof.Machine

/-! ### The response to a command (30_encoding.md R99, 60_exceptions.md R200) -/

theorem code_eq_zero_iff (x : FaultCode) : x.code = 0#3 ↔ x = .ok := by cases x <;> decide

theorem code_ne_seven (x : FaultCode) : x.code ≠ 7#3 := by cases x <;> decide

/-- A command from `s` has ended in `t`: well and out of FAULT, or in FAULT with the code it raised, which the fault
register holds unless the block was in FAULT before (60_exceptions.md R210, R213). -/
def Answered (s t : State) : Prop :=
  (t.rsp = some .ok ∧ t.phase ≠ .fault) ∨
    ∃ x, x ≠ .ok ∧ t.rsp = some x ∧ t.phase = .fault ∧ (t.fault = x ∨ s.phase = .fault ∧ t.fault = s.fault)

section Commands
variable {s u : State}

/-- A raise in FAULT keeps the first fault, and any other one records its own (60_exceptions.md R210). -/
theorem raise_answered {x : FaultCode} (hx : x ≠ .ok) (h : u.phase = .fault → s.phase = .fault ∧ u.fault = s.fault) :
    Answered s (raise x u) := by
  refine .inr ⟨x, hx, rfl, rfl, ?_⟩
  by_cases hp : u.phase = .fault
  · exact .inr ⟨(h hp).1, (if_pos hp).trans (h hp).2⟩
  · exact .inl (if_neg hp)

/-- Dispatch raises in the state from which the command has been taken. -/
theorem raise_took_answered {x : FaultCode} (hx : x ≠ .ok) (rest : List Input) : Answered s (raise x (s.took rest)) :=
  raise_answered hx fun hp => ⟨hp, rfl⟩

/-- A command of a session raises in that session. -/
theorem raise_active_answered {x : FaultCode} (hx : x ≠ .ok) (h : u.phase = .active) : Answered s (raise x u) :=
  raise_answered hx fun hp => by simp [h] at hp

theorem openSession_answered (m : Mode) (u : State) : Answered s (openSession m u) := by
  cases ha : u.nextAnswer with
  | true => exact .inl (by simp [ha])
  | false => exact .inr ⟨.sinkOpenFailure, by simp [ha]⟩

theorem append_answered (x : Byte) (h : u.phase = .active) : (append x u).Ends (·.phase = .active) (Answered s) :=
  append_ends ((stored_phase u x).trans h) fun _ _ => raise_active_answered (by decide) h

theorem finalize_answered (h : u.phase = .active) : (finalize u).Ends (·.phase = .done) (Answered s) :=
  finalize_ends (fun _ => rfl) (fun _ _ => rfl) fun _ _ => raise_active_answered (by decide) h

/-- A run that goes on in a phase other than FAULT ends in the response OK. -/
theorem Run.Ends.answered {p : Phase} {r : Run} (h : r.Ends (·.phase = p) (Answered s)) (hp : p ≠ .fault) :
    Answered s r.finish :=
  h.finish (fun _ ht => .inl ⟨rfl, ht ▸ hp⟩) fun _ ht => ht

theorem encPut_answered (b : Byte) (h : u.phase = .active) : Answered s (encPutBody b u).finish :=
  Run.Ends.answered (p := .active) (encPutBody_ends (fun _ _ _ hu => hu) (fun _ _ _ hu => hu)
    (fun x _ hu => append_answered x hu) (fun _ => raise_active_answered (by decide) h) fun _ => h) (by decide)

theorem decSym_answered (v : Sextet) (h : u.phase = .active) : Answered s (decSymBody v u).finish :=
  Run.Ends.answered (p := .active) (decSymBody_ends (fun _ _ _ hu => hu) (fun x _ hu => append_answered x hu) h)
    (by decide)

theorem encFin_answered (h : u.phase = .active) : Answered s (encFinBody u).finish :=
  Run.Ends.answered (p := .done) ((encFinAppends_ends (P := (·.phase = .active)) (fun _ _ _ hu => hu)
    (fun _ hu => hu) (fun x _ hu => append_answered x hu) h).andThen fun _ hu => finalize_answered hu) (by decide)

theorem decFin_answered (h : u.phase = .active) : Answered s (finalize u).finish :=
  (finalize_answered h).answered (by decide)

end Commands

/-- NOP answers OK in every phase, and every other command is `Answered`. -/
theorem step_answered {s t : State} {w : CmdWord} {rest : List Input} (hi : s.inputs = .cmd w :: rest)
    (h : step s = .next t) : (w = 0x000#10 ∧ t.rsp = some .ok) ∨ Answered s t := by
  cases step_cases h with
  | waits h' => simp [hi] at h'
  | resets _ h' => simp [hi] at h'
  | cut _ _ _ _ h' => simp [hi] at h'
  | nop _ h' =>
    cases hi.symm.trans h'
    exact .inl ⟨rfl, rfl⟩
  | illegal | openActive | outOfPhase | decBad => exact .inr (raise_took_answered (by decide) _)
  | openE | openD => exact .inr (openSession_answered _ _)
  | encPut _ _ _ _ hp => exact .inr (encPut_answered _ hp)
  | decSym _ _ _ _ _ hp => exact .inr (decSym_answered _ hp)
  | decPad _ _ _ _ hp => exact .inr (.inl ⟨rfl, hp ▸ by decide⟩)
  | encFin _ _ hp => exact .inr (encFin_answered hp)
  | decFin _ _ hp => exact .inr (decFin_answered hp)

/-- Settles O60: the code is that of the response `step_answered` tells of, and reset leaves none. -/
theorem everyCommandIsAnsweredWithOneCode : Obligations.EveryCommandIsAnsweredWithOneCode := by
  refine ⟨fun s t w rest hi h => ?_, fun s t hr h => ?_⟩
  · rcases step_answered hi h with ⟨hw, hrsp⟩ | ⟨hrsp, hp⟩ | ⟨x, hx, hrsp, hp, hf⟩
    · exact ⟨0#3, by simp [State.rspCode, hrsp, FaultCode.code], by decide, fun _ => .inl hw, fun hc => absurd rfl hc⟩
    · exact ⟨0#3, by simp [State.rspCode, hrsp, FaultCode.code], by decide, fun _ => .inr hp, fun hc => absurd rfl hc⟩
    · exact ⟨x.code, by simp [State.rspCode, hrsp], code_ne_seven x, fun hc => absurd ((code_eq_zero_iff x).1 hc) hx,
        fun _ => ⟨hp, hf.imp_left (congrArg FaultCode.code)⟩⟩
  · obtain ⟨es, inputs, answers, n, rfl⟩ := step_resets hr h
    rfl

end Sys2Proof.Machine

namespace Sys2Proof.Machine

/-! ### The encoder's commands where every question is answered ok (40_encoder.md R121, R122) -/

section Commands
variable {s t : State}

/-- Dispatch runs the pseudocode of ENC.PUT in an active encode session. -/
theorem exec_encPut_active (hp : s.phase = .active) (hm : s.mode = .enc) (b : Byte) :
    exec (.encPut b) s = .next (encPutBody b s).finish := by
  simpa [exec, execEncPut, hm] using inSession_active (body := encPutBody b) hp

/-- Dispatch runs the pseudocode of ENC.FIN in an active encode session. -/
theorem exec_encFin_active (hp : s.phase = .active) (hm : s.mode = .enc) :
    exec .encFin s = .next (encFinBody s).finish := by
  simpa [exec, execEncFin, hm] using inSession_active (body := encFinBody) hp

/-- Dispatch runs the pseudocode of DEC.FIN in an active decode session. -/
theorem exec_decFin_active (hp : s.phase = .active) (hm : s.mode = .dec) :
    exec .decFin s = .next (finalize s).finish := by
  simpa [exec, execDecFin, hm] using inSession_active (body := finalize) hp

/-- The last group of two bits, padded with zeros on the right (40_encoder.md R122). -/
theorem lowSextet_shift_two (a : BitVec 8) : lowSextet (a <<< 4) = a.extractLsb' 0 2 ++ 0#4 := by
  apply BitVec.eq_of_getLsbD_eq; intro i hi
  interval_cases i <;>
    simp only [lowSextet, BitVec.getLsbD_append, BitVec.getLsbD_extractLsb', BitVec.getLsbD_shiftLeft] <;> simp

/-- The last group of four bits, padded with zeros on the right (40_encoder.md R122). -/
theorem lowSextet_shift_four (a : BitVec 8) : lowSextet (a <<< 2) = a.extractLsb' 0 4 ++ 0#2 := by
  apply BitVec.eq_of_getLsbD_eq; intro i hi
  interval_cases i <;>
    simp only [lowSextet, BitVec.getLsbD_append, BitVec.getLsbD_extractLsb', BitVec.getLsbD_shiftLeft] <;> simp

/-- Step 1 of ENC.FIN with bits held: the last group is stored (40_encoder.md R122). -/
theorem emitPartial_answersOk {x : Byte} (hbits : s.bitCount ≠ 0#3)
    (hx : x = alphabet (lowSextet (s.acc <<< (6 - s.bitCount.toNat)))) (hok : s.answersOkTo (stored s x)) :
    emitPartial s = .ok { stored s x with
      acc := 0#8, bitCount := 0#3, totalUnitsWritten := s.totalUnitsWritten + 1 } := by
  subst hx
  simp only [emitPartial]
  rw [if_neg hbits, append_with_answersOk _ _ _ _ _ hok, andThen_ok]
  simp

/-- Step 2 of ENC.FIN with `k` pads to come: they are stored (40_encoder.md R122). -/
theorem emitPadding_answersOk {k : Nat} (hk : encodedLength s.totalBytesRead = s.totalUnitsWritten + k)
    (hok : s.answersOkTo (storedAll s (List.replicate k pad))) :
    emitPadding s = .ok { storedAll s (List.replicate k pad) with
      totalUnitsWritten := encodedLength s.totalBytesRead } := by
  rw [emitPadding, hk, Nat.add_sub_cancel_left]
  exact emitPads_answersOk k 0 hok

/-- Steps 1 and 2 of ENC.FIN with bits held and `k` pads to come after the last group. -/
theorem encFinAppends_answersOk {x : Byte} {k : Nat} (hbits : s.bitCount ≠ 0#3)
    (hx : x = alphabet (lowSextet (s.acc <<< (6 - s.bitCount.toNat))))
    (hk : encodedLength s.totalBytesRead = s.totalUnitsWritten + 1 + k)
    (hok : s.answersOkTo (storedAll s (x :: List.replicate k pad))) :
    (emitPartial s).andThen emitPadding = .ok { storedAll s (x :: List.replicate k pad) with
      acc := 0#8, bitCount := 0#3, totalUnitsWritten := encodedLength s.totalBytesRead } := by
  rw [storedAll_cons] at hok ⊢
  have hgroup := answersOkTo_le hok (storedAll_freeCount_le _ _)
  have hwith := storedAll_with (stored s x) (List.replicate k pad) 0#8 0#3 (stored s x).totalBytesRead
    (s.totalUnitsWritten + 1)
  rw [emitPartial_answersOk hbits hx hgroup, andThen_ok, emitPadding_answersOk (k := k) (by simpa using hk), hwith]
  · simp [storedAll_totalBytesRead]
  · rw [hwith]
    exact stored_answersOkTo x hok

/-- ENC.FIN with bits held: the last group, `k` pads, the drain and the Close, where every question is answered ok. -/
theorem encFinBody_answersOk {x : Byte} {k : Nat} (hbits : s.bitCount ≠ 0#3)
    (hx : x = alphabet (lowSextet (s.acc <<< (6 - s.bitCount.toNat))))
    (hk : encodedLength s.totalBytesRead = s.totalUnitsWritten + 1 + k)
    (ht : t = drained { storedAll s (x :: List.replicate k pad) with
      acc := 0#8, bitCount := 0#3, totalUnitsWritten := encodedLength s.totalBytesRead })
    (hok : s.answersOkTo t) : (encFinBody s).finish = t := by
  subst ht
  have happends := answersOkTo_le hok (drained_freeCount_le _)
  rw [encFinBody, encFinAppends_answersOk hbits hx hk happends, andThen_ok]
  exact finalize_answersOk (storedAll_answersOkTo _ hok)

end Commands

/-- Settles O29: by the remainder of the count of bytes by 3. -/
theorem encodedLengthCountsWholeGroups : Obligations.EncodedLengthCountsWholeGroups := by
  intro n
  simp only [encodedLength]
  omega

/-- Settles O23: at each count of bits ENC.PUT is one APPEND or two, and each of them stores. -/
theorem encPutAbsorbsOneByte : Obligations.EncPutAbsorbsOneByte := by
  intro s b hp hm hn
  rw [exec_encPut_active hp hm]
  refine ⟨fun hbits hok => ?_, fun hbits hok => ?_, ?_⟩
  · rw [encPutBody_at0 hbits hn, append_with_answersOk _ _ _ _ _ hok]
    simp [Run.finish]
  · rw [encPutBody_at2 hbits hn, append_with_answersOk _ _ _ _ _ hok]
    simp [Run.finish]
  · rintro _ rfl hbits hok
    have hfirst := answersOkTo_le hok (stored_freeCount_le _ _)
    rw [encPutBody_at4 hbits hn, append_with_answersOk _ _ _ _ _ hfirst, andThen_ok,
      append_with_answersOk _ _ _ _ _ (stored_answersOkTo _ hok)]
    simp [Run.finish]

/-- Settles O27: by the remainder, with no APPEND, with three and with two, and then the drain. -/
theorem encFinPadsDrainsAndCloses : Obligations.EncFinPadsDrainsAndCloses := by
  intro s hp hm hunits
  rw [exec_encFin_active hp hm]
  refine ⟨fun hr hbits hok => ?_, fun t ht hr hbits hok => ?_, fun t ht hr hbits hok => ?_⟩
  · have hnone : encodedLength s.totalBytesRead - s.totalUnitsWritten = 0 := by rw [hunits, encodedLength]; omega
    rw [encFinBody, emitPartial, if_pos hbits, andThen_ok, emitPadding, hnone, emitPads, andThen_ok,
      finalize_answersOk hok]
  · have hgroup : alphabet (s.acc.extractLsb' 0 2 ++ 0#4) =
        alphabet (lowSextet (s.acc <<< (6 - s.bitCount.toNat))) := by
      rw [hbits]
      exact congrArg alphabet (lowSextet_shift_two s.acc).symm
    have hpads : encodedLength s.totalBytesRead = s.totalUnitsWritten + 1 + 2 := by rw [hunits, encodedLength]; omega
    rw [encFinBody_answersOk (by simp [hbits]) hgroup hpads ht hok]
  · have hgroup : alphabet (s.acc.extractLsb' 0 4 ++ 0#2) =
        alphabet (lowSextet (s.acc <<< (6 - s.bitCount.toNat))) := by
      rw [hbits]
      exact congrArg alphabet (lowSextet_shift_four s.acc).symm
    have hpads : encodedLength s.totalBytesRead = s.totalUnitsWritten + 1 + 1 := by rw [hunits, encodedLength]; omega
    rw [encFinBody_answersOk (by simp [hbits]) hgroup hpads ht hok]

end Sys2Proof.Machine

namespace Sys2Proof.Machine

/-! ### Frames: what a command of a session leaves unchanged -/

/-- The sink has been asked and given nothing from `s` to `t`, and the elements the buffer held stand where they
stood. -/
def Unwritten (s t : State) : Prop :=
  t.overflowed = s.overflowed ∧ t.sinkData = s.sinkData ∧ t.answers = s.answers ∧ t.freeCount = s.freeCount ∧
    s.buf <+: t.buf

/-- Between two statements of a command that began in `s`, before its drain: its events are flushes, and while there is
none the sink is as it was. -/
structure Ongoing (s u : State) : Prop where
  inputs : u.inputs = s.inputs
  sinkOpen : u.sinkOpen = s.sinkOpen
  phase : u.phase = s.phase
  fault : u.fault = s.fault
  flushed : FlushedSince s u
  record : s.sinkData <+: u.sinkData
  unwritten : u.events = s.events → Unwritten s u

/-- How ENC.PUT and DEC.SYM leave a session, but for the data path and the parameters. -/
def PutFrame (s t : State) : Prop :=
  t.sinkOpen = s.sinkOpen ∧ t.inputs = s.inputs ∧ (s.overflowed = true → t.overflowed = true) ∧
    (t.phase = .fault ∨ t.phase = s.phase ∧ t.fault = s.fault) ∧ (t.events = s.events → Unwritten s t)

/-- The two ends of a FIN: DONE with the sink closed, or a failed Write and no Close (42_buffer_flush.md R162, R163). -/
def FinOutcome (s t : State) : Prop :=
  t.phase = .done ∧ t.fault = s.fault ∧ t.sinkOpen = false ∨
    t.phase = .fault ∧ t.fault = .sinkWriteFailure ∧ t.sinkOpen = s.sinkOpen ∧
      ∃ new, t.events = s.events ++ new ∧ .closed ∉ new

/-- What a FIN adds to the record: with one Write at most it has flushed nothing, so that it is the buffer, or no more
than that where the Write fails. -/
def FinWrites (s t : State) : Prop :=
  ∃ new part, t.events = s.events ++ new ∧ t.sinkData = s.sinkData ++ part ∧
    ((answersIn new).length ≤ 1 →
      t.overflowed = s.overflowed ∧ part.length ≤ t.buf.length ∧ (t.phase = .done → part = t.buf) ∧ s.buf <+: t.buf)

/-- How a FIN leaves a session, but for the data path and the parameters. -/
def FinEnd (s t : State) : Prop :=
  t.inputs = s.inputs ∧ (s.overflowed = true → t.overflowed = true) ∧ FinOutcome s t ∧ FinWrites s t

/-- Position by position, what `<+:` says. -/
theorem getElem?_of_isPrefix {xs ys : List Byte} (h : xs <+: ys) (i : Nat) (hi : i < xs.length) : ys[i]? = xs[i]? :=
  (List.prefix_iff_getElem?.1 h i hi).trans (List.getElem?_eq_getElem hi).symm

/-- Each flush has had its answer. -/
theorem AllFlushes.length_answersIn {c : Nat} {es : List SinkEvent} (h : AllFlushes c es) :
    (answersIn es).length = es.length := by
  rw [answersIn, List.length_filterMap_eq_countP, List.countP_eq_length]
  intro e he
  obtain ⟨seq, rfl, -⟩ := h e he
  rfl

theorem AllFlushes.closed_notMem {c : Nat} {es : List SinkEvent} (h : AllFlushes c es) : .closed ∉ es := fun he => by
  obtain ⟨seq, hc, -⟩ := h _ he
  cases hc

theorem FlushedSince.overflowed_stays {s u : State} (h : FlushedSince s u) :
    s.overflowed = true → u.overflowed = true := by
  obtain ⟨es, -, -, -, hover, -⟩ := h
  exact fun ho => hover.2 (.inl ho)

namespace Ongoing
variable {s t u : State}

theorem start (s : State) : Ongoing s s :=
  ⟨rfl, rfl, rfl, rfl, .start rfl rfl rfl, List.prefix_refl _, fun _ => ⟨rfl, rfl, rfl, rfl, List.prefix_refl _⟩⟩

/-- The registers of the data path are no part of it. -/
theorem with_regs (h : Ongoing s u) {a : BitVec 8} {n : BitVec 3} {r w : Nat} :
    Ongoing s { u with acc := a, bitCount := n, totalBytesRead := r, totalUnitsWritten := w } :=
  ⟨h.inputs, h.sinkOpen, h.phase, h.fault, h.flushed, h.record, h.unwritten⟩

/-- Events once issued are not taken back. -/
theorem events_ne (h : Ongoing s u) (e : SinkEvent) : u.events ++ [e] ≠ s.events := by
  obtain ⟨es, -, he, -⟩ := h.flushed
  simp [he]

theorem stored (h : Ongoing s u) (x : Byte) : Ongoing s (stored u x) := by
  have hflushed := h.flushed.stored x
  unfold Machine.stored at hflushed ⊢
  split
  · next hfull =>
    rw [if_pos hfull] at hflushed
    exact ⟨h.inputs, h.sinkOpen, h.phase, h.fault, hflushed, h.record.trans (List.prefix_append _ _),
      fun he => absurd he (h.events_ne _)⟩
  · next hfree =>
    rw [if_neg hfree] at hflushed
    refine ⟨h.inputs, h.sinkOpen, h.phase, h.fault, hflushed, h.record, fun he => ?_⟩
    obtain ⟨hover, hdata, hanswers, hcount, hbuf⟩ := h.unwritten he
    exact ⟨hover, hdata, hanswers, hcount, hbuf.trans (List.prefix_append _ _)⟩

theorem putFrame (h : Ongoing s u) : PutFrame s u :=
  ⟨h.sinkOpen, h.inputs, h.flushed.overflowed_stays, .inr ⟨h.phase, h.fault⟩, h.unwritten⟩

theorem append_put (h : Ongoing s u) (x : Byte) : (append x u).Ends (Ongoing s) (PutFrame s) :=
  append_ends (h.stored x) fun _ _ =>
    ⟨h.sinkOpen, h.inputs, h.flushed.overflowed_stays, .inl rfl, fun he => absurd he (h.events_ne _)⟩

/-- After a flush the buffer is not empty, so a FIN that has flushed issues a Write more. -/
theorem finWrites (h : Ongoing s u) {tail : List SinkEvent} {part : List Byte} (he : t.events = u.events ++ tail)
    (hd : t.sinkData = u.sinkData ++ part) (hb : t.buf = u.buf) (ho : t.overflowed = u.overflowed)
    (hwrite : u.buf ≠ [] → 1 ≤ (answersIn tail).length) (hlen : part.length ≤ u.buf.length)
    (hdone : t.phase = .done → part = u.buf) : FinWrites s t := by
  obtain ⟨es, -, hes, hall, -, hne⟩ := h.flushed
  obtain ⟨more, hmore⟩ := h.record
  refine ⟨es ++ tail, more ++ part, by simp [he, hes], by simp [hd, ← hmore], fun hone => ?_⟩
  have hnil : es = [] := by
    by_contra hflush
    have hlast := hwrite (hne hflush)
    have hfirst := List.length_pos_of_ne_nil hflush
    rw [answersIn_append, List.length_append, hall.length_answersIn] at hone
    omega
  obtain ⟨hover, hdata, -, -, hbuf⟩ := h.unwritten (by simp [hes, hnil])
  have hmore : more = [] := by simpa [hdata] using hmore
  rw [hmore, List.nil_append, hb, ho]
  exact ⟨hover, hlen, hdone, hbuf⟩

/-- A failed Write ends a FIN, whether it was a flush or the drain. -/
theorem finEnd_failed (h : Ongoing s u) (hp : s.phase = .active) : FinEnd s (writeFailed u) := by
  have hfault : (writeFailed u).fault = .sinkWriteFailure := if_neg (by simp [h.phase, hp])
  obtain ⟨es, -, hes, hall, -⟩ := h.flushed
  refine ⟨h.inputs, h.flushed.overflowed_stays, .inr ⟨rfl, hfault, h.sinkOpen, es ++ [.wrote u.buf u.nextAnswer], ?_, ?_⟩,
    h.finWrites rfl rfl rfl rfl (fun _ => Nat.le_refl 1) (length_landed_le _ _ _) (fun hd => by cases hd)⟩
  · simp [writeFailed, hes]
  · simp [hall.closed_notMem]

theorem append_fin (h : Ongoing s u) (hp : s.phase = .active) (x : Byte) :
    (append x u).Ends (Ongoing s) (FinEnd s) :=
  append_ends (h.stored x) fun _ _ => h.finEnd_failed hp

theorem finalize (h : Ongoing s u) (hp : s.phase = .active) : (finalize u).Ends (FinEnd s) (FinEnd s) :=
  finalize_ends
    (fun hb => ⟨h.inputs, h.flushed.overflowed_stays, .inl ⟨rfl, h.fault, rfl⟩,
      h.finWrites (tail := [.closed]) (part := []) rfl (by simp) rfl rfl (fun hne => absurd hb hne) (Nat.zero_le _)
        fun _ => hb.symm⟩)
    (fun _ ha => ⟨h.inputs, h.flushed.overflowed_stays, .inl ⟨rfl, h.fault, rfl⟩,
      h.finWrites (tail := [.wrote u.buf true, .closed]) (part := u.buf) (by simp [ha]) (by simp [ha]) rfl rfl
        (fun _ => Nat.le_refl 1) (Nat.le_refl _) fun _ => rfl⟩)
    fun _ _ => h.finEnd_failed hp

end Ongoing

section Commands
variable {s : State}

theorem encPut_frame (b : Byte) (s : State) : PutFrame s (encPutBody b s).finish :=
  (encPutBody_ends (P := Ongoing s) (Q := PutFrame s) (fun _ _ _ hu => hu.with_regs) (fun _ _ _ hu => hu.with_regs)
    (fun x _ hu => hu.append_put x)
    (fun _ => ⟨rfl, rfl, id, .inl rfl, fun _ => (Ongoing.start s).unwritten rfl⟩)
    fun _ => (Ongoing.start s).with_regs).finish (R := PutFrame s) (fun _ hu => hu.putFrame) fun _ hu => hu

theorem encFin_end (hp : s.phase = .active) : FinEnd s (encFinBody s).finish :=
  ((encFinAppends_ends (P := Ongoing s) (Q := FinEnd s) (fun _ _ _ hu => hu.with_regs) (fun _ hu => hu.with_regs)
    (fun x _ hu => hu.append_fin hp x) (.start s)).andThen fun _ hu => hu.finalize hp).finish (R := FinEnd s)
    (fun _ hu => hu) fun _ hu => hu

theorem decFin_end (hp : s.phase = .active) : FinEnd s (finalize s).finish :=
  ((Ongoing.start s).finalize hp).finish (R := FinEnd s) (fun _ hu => hu) fun _ hu => hu

/-- The end of a FIN with no APPEND before it: no register of the data path and no element of the buffer moves
(41_decoder.md R144, R145), and the drain is all that is added to the record. -/
def OnlyDrains (s t : State) : Prop :=
  t.totalBytesRead = s.totalBytesRead ∧ t.totalUnitsWritten = s.totalUnitsWritten ∧ t.acc = s.acc ∧
    t.bitCount = s.bitCount ∧ t.buf = s.buf ∧ t.overflowed = s.overflowed ∧
    ∃ part, t.sinkData = s.sinkData ++ part ∧ part.length ≤ s.buf.length ∧ (t.phase = .done → part = s.buf)

theorem decFin_onlyDrains (s : State) : OnlyDrains s (finalize s).finish :=
  (finalize_ends (P := OnlyDrains s) (Q := OnlyDrains s)
    (fun hb => ⟨rfl, rfl, rfl, rfl, rfl, rfl, [], by simp, Nat.zero_le _, fun _ => hb.symm⟩)
    (fun _ ha => ⟨rfl, rfl, rfl, rfl, rfl, rfl, s.buf, by simp [ha], Nat.le_refl _, fun _ => rfl⟩)
    fun _ _ => ⟨rfl, rfl, rfl, rfl, rfl, rfl, _, rfl, length_landed_le _ _ _, fun hd => by cases hd⟩).finish
    (R := OnlyDrains s) (fun _ hu => hu) fun _ hu => hu

end Commands

/-- Settles O35: `PutFrame`, which each APPEND keeps, and the parameters and the mode. -/
theorem encPutFrame : Obligations.EncPutFrame := by
  intro s t b hp hm h
  cases h.symm.trans (exec_encPut_active hp hm b)
  have hfixed := encPut_fixed b (rfl : s.fixed = s.fixed)
  obtain ⟨hopen, hinputs, hover, hphase, hquiet⟩ := encPut_frame b s
  refine ⟨congrArg Prod.fst hfixed, congrArg Prod.snd hfixed, hopen, hinputs, hover, hphase, fun he => ?_⟩
  obtain ⟨hover, hdata, hanswers, hcount, hbuf⟩ := hquiet he
  exact ⟨hover, hdata, hanswers, hcount, getElem?_of_isPrefix hbuf⟩

/-- Settles O37: both FINs end as `FinEnd` says, ENC.FIN after its APPENDs and DEC.FIN with the drain alone. -/
theorem finFrame : Obligations.FinFrame := by
  refine ⟨fun s t hp hm h => ?_, fun s t hp hm h => ?_⟩
  · cases h.symm.trans (exec_encFin_active hp hm)
    have hfixed := encFin_fixed (rfl : s.fixed = s.fixed)
    obtain ⟨hbytes, -⟩ := encFin_counts s
    obtain ⟨hinputs, hover, houtcome, new, part, hevents, hdata, hone⟩ := encFin_end hp
    refine ⟨congrArg Prod.fst hfixed, congrArg Prod.snd hfixed, hinputs, hbytes, hover, houtcome, new, part, hevents,
      hdata, fun hle => ?_⟩
    obtain ⟨hover, hlen, hdone, hbuf⟩ := hone hle
    exact ⟨hover, hlen, hdone, getElem?_of_isPrefix hbuf⟩
  · cases h.symm.trans (exec_decFin_active hp hm)
    have hfixed := decFin_fixed (rfl : s.fixed = s.fixed)
    obtain ⟨hinputs, -, houtcome, -⟩ := decFin_end hp
    obtain ⟨hbytes, hunits, hacc, hbits, hbuf, hover, hpart⟩ := decFin_onlyDrains s
    exact ⟨congrArg Prod.fst hfixed, congrArg Prod.snd hfixed, hinputs, hbytes, hunits, hacc, hbits, hbuf, hover,
      houtcome, hpart⟩

end Sys2Proof.Machine

namespace Sys2Proof

/-! ### Groups of six bits (40_encoder.md R126) -/

theorem length_bitsMsbFirst (msg : List Byte) : (msg.flatMap Byte.bitsMsbFirst).length = 8 * msg.length := by
  induction msg with
  | nil => rfl
  | cons b msg ih =>
    rw [List.flatMap_cons, List.length_append, ih]
    simp only [Byte.bitsMsbFirst, List.length_cons, List.length_nil]
    omega

theorem ofBits_replicate_false (k : Nat) : ofBits (List.replicate k false) = 0 := by
  induction k with
  | zero => rfl
  | succ k ih => rw [List.replicate_succ', ofBits_snoc, ih, Bool.toNat_false]

/-- The bits of a string that its full groups of six leave over. -/
def bitsLeft (bits : List Bool) : List Bool := bits.drop (bits.length / 6 * 6)

theorem length_bitsLeft (bits : List Bool) : (bitsLeft bits).length = bits.length % 6 := by
  rw [bitsLeft, List.length_drop]; omega

/-- The groups of a string, extended by bits, are those before the bits left over and those of what follows. -/
theorem sextets_extend (bits more : List Bool) :
    sextets (bits ++ more) = sextets bits ++ sextets (bitsLeft bits ++ more) := by
  have hsplit (ys : List Bool) : sextets (bits.take (bits.length / 6 * 6) ++ ys) =
      sextets (bits.take (bits.length / 6 * 6)) ++ sextets ys :=
    sextets_append _ _ (by rw [List.length_take, Nat.min_eq_left (Nat.div_mul_le_self _ _)]; exact Nat.dvd_mul_left _ _)
  have hfull : sextets bits = sextets (bits.take (bits.length / 6 * 6)) := by
    have hnone : sextets (bitsLeft bits) = [] := by
      rw [← List.length_eq_zero_iff, sextets_length, length_bitsLeft]; omega
    have := hsplit (bitsLeft bits)
    rwa [hnone, List.append_nil, bitsLeft, List.take_append_drop] at this
  rw [hfull, ← hsplit, ← List.append_assoc, bitsLeft, List.take_append_drop]

/-- Bits that do not fill a group. -/
theorem sextets_partial {bits more : List Bool} (h : bits.length % 6 + more.length < 6) :
    sextets (bits ++ more) = sextets bits := by
  have hnone : sextets (bitsLeft bits ++ more) = [] := by
    rw [← List.length_eq_zero_iff, sextets_length, List.length_append, length_bitsLeft]; omega
  rw [sextets_extend, hnone, List.append_nil]

/-- Bits that fill a group exactly. -/
theorem sextets_group {bits more : List Bool} (h : bits.length % 6 + more.length = 6) :
    sextets (bits ++ more) = sextets bits ++ [BitVec.ofNat 6 (ofBits (bitsLeft bits ++ more))] := by
  rw [sextets_extend, sextets_six (xs := bitsLeft bits ++ more) (by rw [List.length_append, length_bitsLeft, h])]

theorem bitsLeft_partial {bits more : List Bool} (h : bits.length % 6 + more.length < 6) :
    bitsLeft (bits ++ more) = bitsLeft bits ++ more := by
  have hsame : (bits ++ more).length / 6 * 6 = bits.length / 6 * 6 := by rw [List.length_append]; omega
  rw [bitsLeft, hsame, List.drop_append_of_le_length (Nat.div_mul_le_self _ _), bitsLeft]

theorem bitsLeft_group {bits : List Bool} (h : 6 ∣ bits.length) : bitsLeft bits = [] := by
  rw [← List.length_eq_zero_iff, length_bitsLeft, Nat.mod_eq_zero_of_dvd h]

/-- The zeros that fill the last group of a string (40_encoder.md R122, R126). -/
def fillZeros (bs : List Bool) : List Bool := List.replicate ((6 - bs.length % 6) % 6) false

theorem length_sextets_fillZeros (bs : List Bool) : (sextets (bs ++ fillZeros bs)).length = (bs.length + 5) / 6 := by
  rw [sextets_length, List.length_append, fillZeros, List.length_replicate]; omega

theorem encMessage_eq (msg : List Byte) : encMessage msg =
    (sextets (msg.flatMap Byte.bitsMsbFirst ++ fillZeros (msg.flatMap Byte.bitsMsbFirst))).map alphabet ++
      List.replicate ((3 - msg.length % 3) % 3) pad := by
  rw [fillZeros, length_bitsMsbFirst]; rfl

end Sys2Proof

namespace Sys2Proof.Machine

/-! ### The steps of a session (30_encoding.md R104) -/

section Steps
variable {s t u : State} {rest : List Input}

theorem step_open {m : Mode} (hi : s.inputs = .cmd (openWord m) :: rest) (hp : s.phase ≠ .active) :
    step s = .next (openSession m (s.took rest)) := by
  cases m with
  | enc => exact (step_instr (i := .openE) hi rfl).trans (outsideSession_inactive hp)
  | dec => exact (step_instr (i := .openD) hi rfl).trans (outsideSession_inactive hp)

theorem step_encPut {b : Byte} (hi : s.inputs = .cmd (putWord b) :: rest) (hp : s.phase = .active) (hm : s.mode = .enc) :
    step s = .next (encPutBody b (s.took rest)).finish :=
  (step_instr hi (hm ▸ decode_put_enc b)).trans (exec_encPut_active (s := s.took rest) hp hm b)

theorem step_encFin (hi : s.inputs = .cmd finWord :: rest) (hp : s.phase = .active) (hm : s.mode = .enc) :
    step s = .next (encFinBody (s.took rest)).finish :=
  (step_instr (i := .encFin) hi (hm ▸ rfl)).trans (exec_encFin_active (s := s.took rest) hp hm)

/-- FAULT is left by a step that starts anew only (60_exceptions.md R212). -/
theorem Continues.phase_fault (h : Continues s t) (hp : s.phase = .fault) : t.phase = .fault := by
  cases h with
  | keeps inputs rsp => exact hp
  | raises x rest => rfl
  | encPut _ _ _ _ ha | decSym _ _ _ _ ha | decPad _ _ _ ha | encFin _ _ _ ha | decFin _ _ _ ha => simp [hp] at ha

theorem step_put_fault {b : Byte} (hi : s.inputs = .cmd (putWord b) :: rest) (hp : s.phase = .fault)
    (h : step s = .next t) : t.phase = .fault :=
  (step_continues h (startsAnew_of_put hi (opField_cmdWord _ _))).phase_fault hp

theorem step_fin_fault (hi : s.inputs = .cmd finWord :: rest) (hp : s.phase = .fault) (h : step s = .next t) :
    t.phase = .fault :=
  (step_continues h (startsAnew_of_not_open hi (by decide))).phase_fault hp

/-- What every PUT takes from `I` of the symbols before it to `I` with its symbol behind them, the PUTs of a message take
to `I` of the message. -/
theorem run_puts {I : List Byte → State → Prop} {msg : List Byte}
    (hput : ∀ pre b post u t rest, msg = pre ++ b :: post → I pre u → u.inputs = .cmd (putWord b) :: rest →
      step u = .next t → I (pre ++ [b]) t)
    {pre post : List Byte} (hmsg : msg = pre ++ post) (hu : I pre u)
    (hi : u.inputs = (updateWords post).map Input.cmd ++ rest) :
    ∃ t, core.run post.length u = .next t ∧ t.inputs = rest ∧ I msg t := by
  induction post generalizing pre u with
  | nil => exact ⟨u, rfl, hi, by simpa [hmsg] using hu⟩
  | cons b post ih =>
    obtain ⟨t, ht, -⟩ := step_spec u
    have hrest : t.inputs = (updateWords post).map Input.cmd ++ rest := by rw [step_inputs ht, hi]; rfl
    rw [List.length_cons, run_succ ht]
    exact ih (pre := pre ++ [b]) (by simp [hmsg]) (hput pre b post u t _ hmsg hu hi ht) hrest

/-- A whole session, from what its OPEN, each of its PUTs and its FIN do. -/
theorem run_session {m : Mode} {msg : List Byte} {I : List Byte → State → Prop} {R : State → Prop}
    (hp : s.phase ≠ .active) (hi : s.inputs = (sessionWords m msg).map Input.cmd ++ rest)
    (hopen : ∀ rest, I [] (openSession m (s.took rest)))
    (hput : ∀ pre b post u t rest, msg = pre ++ b :: post → I pre u → u.inputs = .cmd (putWord b) :: rest →
      step u = .next t → I (pre ++ [b]) t)
    (hfin : ∀ u t rest, I msg u → u.inputs = .cmd finWord :: rest → step u = .next t → R t) :
    ∃ t, core.run (msg.length + 2) s = .next t ∧ t.inputs = rest ∧ R t := by
  simp only [sessionWords, List.map_cons, List.map_append, List.map_nil, List.cons_append, List.append_assoc,
    List.nil_append] at hi
  obtain ⟨u, hu, hiu, hIu⟩ := run_puts hput (List.nil_append msg).symm (hopen _) rfl
  obtain ⟨t, ht, -⟩ := step_spec u
  refine ⟨t, ?_, by rw [step_inputs ht, hiu]; rfl, hfin u t rest hIu hiu ht⟩
  rw [run_succ (step_open hi hp), run_add hu, run_succ ht]
  rfl

end Steps

end Sys2Proof.Machine

namespace Sys2Proof.Machine

/-! ### The output of a session and the questions it has asked -/

theorem Run.Ends.and {P P' Q Q' : State → Prop} {r : Run} (h : r.Ends P Q) (h' : r.Ends P' Q') :
    r.Ends (fun t => P t ∧ P' t) fun t => Q t ∧ Q' t := by
  cases r with
  | ok t => exact ⟨h, h'⟩
  | raised t => exact ⟨h, h'⟩

/-- One of the sink's next `n` answers is fail. -/
def State.sinkFailsWithin (s : State) (n : Nat) : Prop := ∃ j, j < n ∧ s.answerAt j = false

/-- A session whose OPEN was given in `s` has put out `out`. Of the questions asked since, one was the Open, and each
other was a flush, of a buffer that then held an element at least. -/
structure Emits (s u : State) (out : List Byte) : Prop where
  params : u.params = s.params
  output : u.sinkData ++ u.buf = out
  asked : ∃ k, u.answers = s.answers.drop k ∧ u.freeCount = s.freeCount + k ∧ k + u.buf.length ≤ 1 + out.length

/-- The block is in FAULT, and `why`, which says what can have led there, holds. -/
def Faulted (why : Prop) (t : State) : Prop := t.phase = .fault ∧ why

namespace Emits
variable {s u : State} {out : List Byte} {why : Prop} {n : Nat}

/-- The data path, the response and the inputs are no part of it. -/
theorem with_regs (h : Emits s u out) {a : BitVec 8} {k : BitVec 3} {r w : Nat} {x : Option FaultCode}
    {is : List Input} :
    Emits s { u with acc := a, bitCount := k, totalBytesRead := r, totalUnitsWritten := w, rsp := x, inputs := is } out :=
  ⟨h.params, h.output, h.asked⟩

theorem openSession (s : State) (m : Mode) (rest : List Input) : Emits s (openSession m (s.took rest)) [] :=
  ⟨rfl, rfl, 1, by simp, rfl, Nat.le_refl 1⟩

theorem stored (h : Emits s u out) (hc : 1 ≤ s.params.capacity) (x : Byte) : Emits s (stored u x) (out ++ [x]) := by
  refine ⟨(stored_params u x).trans h.params, by rw [stored_output, h.output], ?_⟩
  obtain ⟨k, hanswers, hcount, hk⟩ := h.asked
  unfold Machine.stored
  split
  · next hfull =>
    rw [hfull, h.params] at hk
    exact ⟨k + 1, by simp [hanswers], by simp [hcount, Nat.add_assoc], by simp; omega⟩
  · exact ⟨k, hanswers, hcount, by simp; omega⟩

/-- A Write of a buffer that is not empty is one of the first questions, the output so far counting them. -/
theorem faulted_of_write (h : Emits s u out) (hn : out.length < n) (hwhy : s.sinkFailsWithin n → why)
    (hne : 1 ≤ u.buf.length) (ha : u.nextAnswer = false) : Faulted why (writeFailed u) := by
  obtain ⟨k, hanswers, hcount, hk⟩ := h.asked
  refine ⟨rfl, hwhy ⟨k, by omega, ?_⟩⟩
  rw [← ha, ← answerAt_zero, answerAt_shift hanswers hcount, Nat.add_zero]

theorem append (h : Emits s u out) (hc : 1 ≤ s.params.capacity) (hn : out.length < n)
    (hwhy : s.sinkFailsWithin n → why) (x : Byte) :
    (append x u).Ends (Emits s · (out ++ [x])) (Faulted why) :=
  append_ends (h.stored hc x) fun hfull => h.faulted_of_write hn hwhy (by rw [hfull, h.params]; exact hc)

/-- After the drain the sink has the whole output. -/
theorem finalize (h : Emits s u out) (hn : out.length < n) (hwhy : s.sinkFailsWithin n → why) :
    (finalize u).Ends (fun t => t.phase = .done ∧ t.sinkData = out) (Faulted why) :=
  finalize_ends (fun hb => ⟨rfl, by simpa [hb] using h.output⟩) (fun _ ha => ⟨rfl, by simpa [ha] using h.output⟩)
    fun hb => h.faulted_of_write hn hwhy (List.length_pos_of_ne_nil hb)

/-- The pads of ENC.FIN. -/
theorem emitPads (h : Emits s u out) (hc : 1 ≤ s.params.capacity) (k : Nat) (hn : out.length + k < n)
    (hwhy : s.sinkFailsWithin n → why) :
    (emitPads k u).Ends (Emits s · (out ++ List.replicate k pad)) (Faulted why) := by
  induction k generalizing u out with
  | zero => rw [List.replicate_zero, List.append_nil]; exact h
  | succ k ih =>
    rw [List.replicate_succ, List.append_cons]
    exact (h.append hc (by omega) hwhy pad).andThen fun t ht => ih ht.with_regs (by simp; omega)

end Emits

/-! ### The encoder's loop, bit by bit -/

/-- The bits `bs` have entered an encode session that began in `s` and has read `n` bytes: their full groups are out,
and the accumulator holds the others. -/
structure Encoding (s : State) (n : Nat) (bs : List Bool) (u : State) : Prop extends EncBits n bs.length u where
  emits : Emits s u ((sextets bs).map alphabet)
  acc : u.acc.toNat = ofBits (bitsLeft bs)

namespace Encoding
variable {s u : State} {n N : Nat} {bs : List Bool} {why : Prop}

theorem with_host (h : Encoding s n bs u) (is : List Input) (x : Option FaultCode) :
    Encoding s n bs { u with inputs := is, rsp := x } :=
  ⟨⟨⟨h.phase, h.mode, h.fault, h.bytes, h.limit⟩, h.bits, h.units, h.acc_lt⟩, h.emits.with_regs, h.acc⟩

/-- One turn of the loop of ENC.PUT puts the bit behind the others (40_encoder.md R120, R126). -/
theorem encodeBit (h : Encoding s n bs u) (hc : 1 ≤ s.params.capacity) (hk : bs.length < 8 * n)
    (hn : encodedLength n < N) (hwhy : s.sinkFailsWithin N → why) (b : Bool) :
    (encodeBit b u).Ends (Encoding s n (bs ++ [b])) (Faulted why) := by
  have hbits := h.bits
  have hacc : (shiftIn u.acc b).toNat = ofBits (bitsLeft bs ++ [b]) := by
    have hlt : u.acc.toNat < 2 ^ 7 := h.acc_lt.trans_le (Nat.pow_le_pow_right (by decide) (by omega))
    rw [ofBits_snoc, ← h.acc, toNat_shiftIn b hlt]
  have hout : (Machine.encodeBit b u).Ends (fun t => Emits s t ((sextets (bs ++ [b])).map alphabet) ∧
      t.acc.toNat = ofBits (bitsLeft (bs ++ [b]))) (Faulted why) := by
    simp only [Machine.encodeBit]
    split
    · next hfull =>
      have hlength : ((sextets bs).map alphabet).length < N := by
        rw [List.length_map, sextets_length]
        exact Nat.lt_of_le_of_lt (by rw [encodedLength]; omega) hn
      rw [sextets_group (bits := bs) (more := [b]) (by rw [List.length_singleton]; omega), ← hacc, ← lowSextet_eq,
        List.map_append, bitsLeft_group (by rw [List.length_append, List.length_singleton]; omega)]
      exact (h.emits.with_regs.append hc hlength hwhy _).andThen fun t ht => ⟨ht.with_regs, rfl⟩
    · next hfree =>
      have hroom : bs.length % 6 + [b].length < 6 := by rw [List.length_singleton]; omega
      rw [sextets_partial hroom, bitsLeft_partial hroom]
      exact ⟨h.emits.with_regs, hacc⟩
  refine ((h.toEncBits.encodeBit hk b).and hout).mono (fun t ht => ?_) fun t ht => ht.2
  obtain ⟨hbits, hemits, hacc⟩ := ht
  exact ⟨by simpa using hbits, hemits, hacc⟩

end Encoding

end Sys2Proof.Machine

namespace Sys2Proof.Machine

/-! ### An encode session writes the encoding (40_encoder.md R126) -/

/-- What each turn of a loop takes from `P` of the bits before it to `P` with its bit behind them, the loop takes to `P`
with all of its bits behind them. -/
theorem forBits_ends_bits {P : List Bool → State → Prop} {Q : State → Prop} {body : Bool → State → Run} {m : Nat}
    (h : ∀ pre b t, pre.length < m → P pre t → (body b t).Ends (P (pre ++ [b])) Q) (bs : List Bool) {pre : List Bool}
    {s : State} (hm : pre.length + bs.length ≤ m) (hs : P pre s) : (forBits body bs s).Ends (P (pre ++ bs)) Q := by
  induction bs generalizing pre s with
  | nil => rw [List.append_nil]; exact hs
  | cons b bs ih =>
    rw [List.length_cons] at hm
    rw [List.append_cons]
    exact (h pre b s (by omega) hs).andThen fun t ht => ih (by rw [List.length_append, List.length_singleton]; omega) ht

namespace Encoding
variable {s u : State} {n N : Nat} {bs : List Bool} {why : Prop}

/-- ENC.PUT puts its eight bits behind the others, unless the count is at its limit. -/
theorem encPut (h : Encoding s n bs u) (hc : 1 ≤ s.params.capacity) (hlen : bs.length = 8 * n)
    (hn : encodedLength (n + 1) < N) (hwhy : s.sinkFailsWithin N → why) (hlimit : s.params.maxN = some n → why)
    (b : Byte) : (encPutBody b u).Ends (Encoding s (n + 1) (bs ++ b.bitsMsbFirst)) (Faulted why) := by
  unfold encPutBody
  split
  · next hmax => exact ⟨rfl, hlimit (by rw [← h.emits.params, hmax, h.bytes])⟩
  · next hmax =>
    have hroom : ∀ m, u.params.maxN = some m → n + 1 ≤ m := fun m hm =>
      Nat.lt_of_le_of_ne (h.limit m hm) fun e => hmax (by rw [hm, h.bytes, e])
    have hstart : Encoding s (n + 1) bs { u with totalBytesRead := u.totalBytesRead + 1 } :=
      ⟨⟨⟨h.phase, h.mode, h.fault, congrArg (· + 1) h.bytes, hroom⟩, h.bits, h.units, h.acc_lt⟩, h.emits.with_regs,
        h.acc⟩
    have height : bs.length + b.bitsMsbFirst.length ≤ 8 * (n + 1) := by rw [hlen]; rfl
    exact forBits_ends_bits (fun pre c t hlt ht => ht.encodeBit hc hlt hn hwhy c) b.bitsMsbFirst height hstart

/-- The held bits, shifted up, are the last group filled with zeros. -/
theorem lowSextet_shift (h : Encoding s n bs u) (hne : u.bitCount ≠ 0#3) :
    sextets (bs ++ fillZeros bs) = sextets bs ++ [lowSextet (u.acc <<< (6 - u.bitCount.toNat))] := by
  have hbits := h.bits
  have hpos : u.bitCount.toNat ≠ 0 := fun e => hne (BitVec.eq_of_toNat_eq e)
  have hzeros : fillZeros bs = List.replicate (6 - u.bitCount.toNat) false := by
    rw [fillZeros, ← hbits, Nat.mod_eq_of_lt (by omega)]
  have hlt : u.acc.toNat * 2 ^ (6 - u.bitCount.toNat) < 2 ^ 8 :=
    calc u.acc.toNat * 2 ^ (6 - u.bitCount.toNat)
        < 2 ^ u.bitCount.toNat * 2 ^ (6 - u.bitCount.toNat) := Nat.mul_lt_mul_of_pos_right h.acc_lt (Nat.two_pow_pos _)
      _ = 2 ^ 6 := by rw [← Nat.pow_add, Nat.add_sub_cancel' (by omega)]
      _ < 2 ^ 8 := by decide
  rw [hzeros, sextets_group (by rw [List.length_replicate]; omega), ofBits_append, ofBits_replicate_false, ← h.acc,
    List.length_replicate, lowSextet_eq, BitVec.toNat_shiftLeft, Nat.shiftLeft_eq, Nat.mod_eq_of_lt hlt, Nat.add_zero]

/-- Step 1 of ENC.FIN puts out the last group, if there is one (40_encoder.md R122). -/
theorem emitPartial (h : Encoding s n bs u) (hc : 1 ≤ s.params.capacity) (hn : bs.length / 6 < N)
    (hwhy : s.sinkFailsWithin N → why) :
    (emitPartial u).Ends (Emits s · ((sextets (bs ++ fillZeros bs)).map alphabet)) (Faulted why) := by
  unfold Machine.emitPartial
  split
  · next h0 =>
    have hwhole : bs.length % 6 = 0 := by rw [← h.bits, h0]; rfl
    have hnone : fillZeros bs = [] := by rw [fillZeros, hwhole]; rfl
    rw [hnone, List.append_nil]
    exact h.emits
  · next hne =>
    rw [h.lowSextet_shift hne, List.map_append]
    exact (h.emits.with_regs.append hc (by rwa [List.length_map, sextets_length]) hwhy _).andThen fun t ht => ht.with_regs

/-- ENC.FIN fills the last group, puts out the pads, drains and closes (40_encoder.md R122, R126). -/
theorem encFin (h : Encoding s n bs u) (hc : 1 ≤ s.params.capacity) (hlen : bs.length = 8 * n)
    (hn : encodedLength n < N) (hwhy : s.sinkFailsWithin N → why) :
    (encFinBody u).Ends (fun t => t.phase = .done ∧ t.sinkData =
      (sextets (bs ++ fillZeros bs)).map alphabet ++ List.replicate ((3 - n % 3) % 3) pad) (Faulted why) := by
  obtain ⟨-, -, -, hlength⟩ := encodedLengthCountsWholeGroups n
  have hgroups : ((sextets (bs ++ fillZeros bs)).map alphabet).length = (8 * n + 5) / 6 := by
    rw [List.length_map, length_sextets_fillZeros, hlen]
  have hfirst : (Machine.emitPartial u).Ends (fun t => EncChars n ((bs.length + 5) / 6) t ∧
      Emits s t ((sextets (bs ++ fillZeros bs)).map alphabet)) (Faulted why) :=
    ((h.toEncBits.emitPartial hlen.le).and (h.emitPartial hc (by omega) hwhy)).mono (fun _ ht => ht) fun _ ht => ht.2
  refine Run.Ends.andThen (P := (Emits s · ((sextets (bs ++ fillZeros bs)).map alphabet ++ _)))
    (hfirst.andThen fun t ht => ?_) fun t ht => ht.finalize ?_ hwhy
  · obtain ⟨hchars, hemits⟩ := ht
    have hpads : encodedLength n - (bs.length + 5) / 6 = (3 - n % 3) % 3 := by omega
    rw [emitPadding, hchars.bytes, hchars.units, hpads]
    exact hemits.emitPads hc _ (by omega) hwhy
  · rw [List.length_append, List.length_replicate]; omega

end Encoding

section Session
variable {s t u : State} {msg pre post : List Byte} {b : Byte} {rest : List Input}

/-- Why an encode session of the message that begins in `s` fails: the count does not bear the message, or the sink
fails one of its questions, which are no more than a character each and one (60_exceptions.md R202, R207). -/
def State.encodeFails (s : State) (msg : List Byte) : Prop :=
  (∃ n, s.params.maxN = some n ∧ n < msg.length) ∨ s.sinkFailsWithin (encodedLength msg.length + 1)

/-- The session goes on with the bytes `pre` read, or it has failed. -/
def EncodesOrFails (s : State) (msg pre : List Byte) (u : State) : Prop :=
  Encoding s pre.length (pre.flatMap Byte.bitsMsbFirst) u ∨ Faulted (s.encodeFails msg) u

/-- The session has written the encoding, or it has failed. -/
def EncodedOrFailed (s : State) (msg : List Byte) (t : State) : Prop :=
  (t.phase = .done ∧ t.sinkData = encMessage msg ∧ t.totalBytesRead = msg.length ∧
      t.totalUnitsWritten = encodedLength msg.length) ∨ Faulted (s.encodeFails msg) t

theorem openSession_encodes (s : State) (msg : List Byte) (rest : List Input) :
    EncodesOrFails s msg [] (openSession .enc (s.took rest)) := by
  cases ha : (s.took rest).nextAnswer with
  | true =>
    exact .inl ⟨⟨⟨by simp [ha], rfl, by simp [ha], rfl, fun _ _ => Nat.zero_le _⟩, rfl, rfl, Nat.one_pos⟩,
      .openSession s .enc rest, rfl⟩
  | false => exact .inr ⟨by simp [ha], .inr ⟨0, Nat.succ_pos _, (answerAt_zero s).trans ha⟩⟩

theorem step_put_encodes (hc : 1 ≤ s.params.capacity) (hmsg : msg = pre ++ b :: post)
    (hu : EncodesOrFails s msg pre u) (hi : u.inputs = .cmd (putWord b) :: rest) (h : step u = .next t) :
    EncodesOrFails s msg (pre ++ [b]) t := by
  rcases hu with hu | ⟨hp, hwhy⟩
  · cases h.symm.trans (step_encPut hi hu.phase hu.mode)
    have hlt : pre.length < msg.length := by simp [hmsg]
    have hroom : encodedLength (pre.length + 1) < encodedLength msg.length + 1 := by
      simp only [encodedLength]; omega
    have hput := (hu.with_host rest u.rsp).encPut hc (length_bitsMsbFirst pre) hroom (why := s.encodeFails msg) .inr
      (fun hmax => .inl ⟨_, hmax, hlt⟩) b
    refine hput.finish (fun v hv => .inl ?_) fun v hv => .inr hv
    simpa using hv.with_host v.inputs (some .ok)
  · exact .inr ⟨step_put_fault hi hp h, hwhy⟩

theorem step_fin_encodes (hc : 1 ≤ s.params.capacity) (hu : EncodesOrFails s msg msg u)
    (hi : u.inputs = .cmd finWord :: rest) (h : step u = .next t) : EncodedOrFailed s msg t := by
  rcases hu with hu | ⟨hp, hwhy⟩
  · cases h.symm.trans (step_encFin hi hu.phase hu.mode)
    have hu := hu.with_host rest u.rsp
    have hlen := length_bitsMsbFirst msg
    have hend := (hu.encFin hc hlen (Nat.lt_succ_self _) (why := s.encodeFails msg) .inr).finish
      (R := fun v => (v.phase = .done ∧ v.sinkData = encMessage msg) ∨ Faulted (s.encodeFails msg) v)
      (fun _ hv => .inl (encMessage_eq msg ▸ hv)) fun _ hv => .inr hv
    refine hend.imp_left fun hdone => ?_
    obtain ⟨hp, hdata⟩ := hdone
    obtain ⟨hbytes, -⟩ := encFin_counts (u.took rest)
    have hmode := congrArg Prod.snd (encFin_fixed (rfl : (u.took rest).fixed = _))
    have hinv := encFin_dataPathInv (hlen ▸ hu.toEncBits).dataPathInv hu.phase hu.mode
    obtain ⟨-, hunits⟩ := hinv.enc_done (hmode.trans hu.mode) hp
    have hbytes := hbytes.trans hu.bytes
    exact ⟨hp, hdata, hbytes, by rw [hunits, hbytes]⟩
  · exact .inr ⟨step_fin_fault hi hp h, hwhy⟩

end Session

/-- Settles O52: OPEN, each PUT and FIN go on as the encoding asks, or the session fails for a reason that the premises
exclude. -/
theorem encodeSessionWritesTheEncoding : Obligations.EncodeSessionWritesTheEncoding := by
  intro s msg rest hwf hp hi
  obtain ⟨t, hrun, hrest, hend⟩ := run_session (I := EncodesOrFails s msg) (R := EncodedOrFailed s msg) hp hi
    (openSession_encodes s msg) (fun _ _ _ _ _ _ hmsg hu hiu h => step_put_encodes hwf.1 hmsg hu hiu h)
    fun _ _ _ hu hiu h => step_fin_encodes hwf.1 hu hiu h
  refine ⟨t, hrun, hrest, fun hdone => ?_, fun hcount hsink => ?_⟩
  · rcases hend with ⟨-, hwritten⟩ | ⟨hfault, -⟩
    · exact hwritten
    · simp [hdone] at hfault
  · rcases hend with ⟨hdone, -⟩ | ⟨-, ⟨n, hmax, hlt⟩ | ⟨j, hj, hno⟩⟩
    · exact hdone
    · exact absurd (hcount n hmax) (Nat.not_le_of_lt hlt)
    · simp [hsink j hj] at hno

end Sys2Proof.Machine

namespace Sys2Proof.Machine

/-! ### The decoder's commands (41_decoder.md R140 to R144) -/

section Commands
variable {s t : State} {c : Byte} {v : Sextet}

/-- Dispatch runs the pseudocode of DEC.SYM in an active decode session. -/
theorem exec_decSym_active (hp : s.phase = .active) (hm : s.mode = .dec) (hr : rev c = .val v) :
    exec (.decSym c) s = .next (decSymBody v s).finish := by
  simpa [exec, execDecSym, hr, hm] using inSession_active (body := decSymBody v) hp

/-- Dispatch runs the pseudocode of DEC.PAD in an active decode session. -/
theorem exec_decPad_active (hp : s.phase = .active) (hm : s.mode = .dec) :
    exec .decPad s = .next (decPadBody s).finish := by
  simpa [exec, execDecPad, hm] using inSession_active (body := decPadBody) hp

/-- Dispatch runs the pseudocode of DEC.BAD in an active decode session. -/
theorem exec_decBad_active (hp : s.phase = .active) (hm : s.mode = .dec) (hr : rev c = .bad) :
    exec (.decBad c) s = .next (decBadBody s).finish := by
  simpa [exec, execDecBad, hr, hm] using inSession_active (body := decBadBody) hp

/-- In an active session DEC.SYM answers a next state for an alphabet code only. -/
theorem exec_decSym_cases (hp : s.phase = .active) (h : exec (.decSym c) s = .next t) :
    ∃ v, rev c = .val v ∧ t = (decSymBody v s).finish := by
  simp only [exec, execDecSym] at h
  cases hr : rev c with
  | val v =>
    rw [hr] at h
    obtain ⟨hne, -⟩ | ⟨-, -, ht⟩ := inSession_cases h
    · exact absurd hp hne
    · exact ⟨v, rfl, ht⟩
  | isPad | bad => simp [hr, inSession, hp] at h

/-- The subtraction of DEC.PAD, floored at 0, in the three-bit register. -/
theorem bitCount_sub_two : ∀ n : BitVec 3, BitVec.ofNat 3 (n.toNat - 2) = if n.toNat < 2 then 0#3 else n - 2#3 := by
  decide

theorem decSym_frame (v : Sextet) (s : State) : PutFrame s (decSymBody v s).finish :=
  (decSymBody_ends (P := Ongoing s) (Q := PutFrame s) (fun _ _ _ hu => hu.with_regs)
    (fun x _ hu => hu.append_put x) (.start s)).finish (R := PutFrame s) (fun _ hu => hu.putFrame) fun _ hu => hu

/-- A FIN whose drain fails closes nothing (42_buffer_flush.md R162). -/
theorem finalize_failed (hb : s.buf ≠ []) (ha : s.nextAnswer = false) : finalize s = .raised (writeFailed s) := by
  rw [finalize, drain_eq, if_neg hb, if_neg (by simp [ha]), andThen_raised]

theorem drained_trailing_iff (hm : s.mode = .dec) : (drained s).trailing = true ↔ s.bitCount ≠ 0#3 := by
  unfold drained
  split <;> simp [State.trailing, hm]

end Commands

/-- Settles O30: at each count of bits DEC.SYM is one APPEND or none, and the APPEND stores. -/
theorem decSymAbsorbsOneSymbol : Obligations.DecSymAbsorbsOneSymbol := by
  intro s c v hp hm hr
  rw [exec_decSym_active hp hm hr]
  refine ⟨fun hbits hacc => ?_, fun hbits hok => ?_, fun hbits hok => ?_, fun hbits hok => ?_⟩
  · rw [decSymBody_at0 hbits hacc]
    rfl
  · rw [decSymBody_at2 hbits, append_with_answersOk _ _ _ _ _ hok]
    simp [Run.finish]
  · rw [decSymBody_at4 hbits, append_with_answersOk _ _ _ _ _ hok]
    simp [Run.finish]
  · rw [decSymBody_at6 hbits, append_with_answersOk _ _ _ _ _ hok]
    simp [Run.finish]

/-- Settles O36: `PutFrame`, which each APPEND keeps, and the parameters, the mode and the counts. -/
theorem decSymFrame : Obligations.DecSymFrame := by
  intro s t c hp hm h
  obtain ⟨v, -, rfl⟩ := exec_decSym_cases hp h
  have hfixed := decSym_fixed v (rfl : s.fixed = s.fixed)
  obtain ⟨hbytes, hunits⟩ := decSym_counts v s
  obtain ⟨hopen, hinputs, hover, hphase, hquiet⟩ := decSym_frame v s
  refine ⟨congrArg Prod.fst hfixed, congrArg Prod.snd hfixed, hopen, hinputs, hbytes, hunits, hover, hphase,
    fun he => ?_⟩
  obtain ⟨hover, hdata, hanswers, hcount, hbuf⟩ := hquiet he
  exact ⟨hover, hdata, hanswers, hcount, getElem?_of_isPrefix hbuf⟩

/-- Settles O32, with the floored subtraction in the register. -/
theorem decPadTakesTwoBitsBack : Obligations.DecPadTakesTwoBitsBack := by
  intro s hp hm
  rw [exec_decPad_active hp hm, ← bitCount_sub_two]
  rfl

/-- Settles O33: the raise is the whole of it, and the session was not in FAULT before. -/
theorem decBadRaisesInvalidSymbol : Obligations.DecBadRaisesInvalidSymbol := by
  intro s c hp hm hr
  rw [exec_decBad_active hp hm hr]
  simp [decBadBody, Run.finish, raise, hp]

/-- Settles O34: the drain's Write is answered ok or is not asked for, or it fails. -/
theorem decFinDrainsAndCloses : Obligations.DecFinDrainsAndCloses := by
  intro s hp hm
  rw [exec_decFin_active hp hm]
  refine ⟨fun hok => by rw [finalize_answersOk hok], fun hb ha => ?_, drained_trailing_iff hm⟩
  rw [answerAt_zero] at ha
  rw [finalize_failed hb ha]
  exact ⟨s.sinkData ++ landed s.freeCount s.buf false,
    by simp [Run.finish, writeFailed, raise, sinkWrite, State.takeAnswer, hp, ha]⟩

end Sys2Proof.Machine

namespace Sys2Proof

/-! ### Bit strings and bytes (20_memory.md R65) -/

/-- The newest bits are the low ones: dropping `k` of them, or what there is, divides (41_decoder.md R142). -/
theorem ofBits_take_sub (bs : List Bool) (k : Nat) : ofBits (bs.take (bs.length - k)) = ofBits bs / 2 ^ k := by
  rcases Nat.le_total k bs.length with hk | hk
  · have hdrop : (bs.drop (bs.length - k)).length = k := by rw [List.length_drop]; omega
    have hlow : ofBits (bs.drop (bs.length - k)) < 2 ^ k := (Machine.ofBits_lt _).trans_eq (congrArg (2 ^ ·) hdrop)
    have hsplit := Machine.ofBits_append (bs.take (bs.length - k)) (bs.drop (bs.length - k))
    rw [List.take_append_drop, hdrop] at hsplit
    rw [hsplit, Nat.mul_comm, Nat.mul_add_div (Nat.two_pow_pos k), Nat.div_eq_of_lt hlow, Nat.add_zero]
  · have hlt : ofBits bs < 2 ^ k := (Machine.ofBits_lt bs).trans_le (Nat.pow_le_pow_right (by decide) hk)
    rw [Nat.sub_eq_zero_of_le hk, List.take_zero, Nat.div_eq_of_lt hlt]
    rfl

/-- The bits of the byte that eight bits make are those bits (00_scope.md R12). -/
theorem bitsMsbFirst_byte {bs : List Bool} (h : bs.length = 8) :
    Byte.bitsMsbFirst (BitVec.ofNat 8 (ofBits bs)) = bs := by
  have hall : ∀ a b c d e f g h : Bool,
      Byte.bitsMsbFirst (BitVec.ofNat 8 (ofBits [a, b, c, d, e, f, g, h])) = [a, b, c, d, e, f, g, h] := by
    decide +kernel
  match bs, h with
  | [a, b, c, d, e, f, g, h], _ => exact hall a b c d e f g h

/-- The groups of whole sextets carry all of the bits. -/
theorem flatMap_sextets : ∀ bs : List Bool, 6 ∣ bs.length → (sextets bs).flatMap Sextet.bitsMsbFirst = bs
  | [], _ => rfl
  | [_], h | [_, _], h | [_, _, _], h | [_, _, _, _], h | [_, _, _, _, _], h => by simp at h
  | a :: b :: c :: d :: e :: f :: bs, h => by
    have hrest : 6 ∣ bs.length := by simp only [List.length_cons] at h; omega
    rw [sextets, List.flatMap_cons, bitsMsbFirst_sextet, flatMap_sextets bs hrest]
    rfl

theorem flatMap_bitsMsbFirst_injective : Function.Injective (List.flatMap Byte.bitsMsbFirst) := by
  intro xs ys h
  induction xs generalizing ys with
  | nil => cases ys with
    | nil => rfl
    | cons y ys => simp [Byte.bitsMsbFirst] at h
  | cons x xs ih => cases ys with
    | nil => simp [Byte.bitsMsbFirst] at h
    | cons y ys =>
      obtain ⟨hbits, hrest⟩ := List.append_inj h rfl
      rw [← ofBits_bitsMsbFirst x, hbits, ofBits_bitsMsbFirst, ih hrest]

/-- A bit string is whole bytes and fewer than eight bits in one way only. -/
theorem bytes_unique {xs ys : List Byte} {bs cs : List Bool}
    (h : xs.flatMap Byte.bitsMsbFirst ++ bs = ys.flatMap Byte.bitsMsbFirst ++ cs) (hbs : bs.length < 8)
    (hcs : cs.length < 8) : xs = ys ∧ bs = cs := by
  have hlength := congrArg List.length h
  simp only [List.length_append, length_bitsMsbFirst] at hlength
  obtain ⟨hbytes, hrest⟩ := List.append_inj h (by simp only [length_bitsMsbFirst]; omega)
  exact ⟨flatMap_bitsMsbFirst_injective hbytes, hrest⟩

/-! ### The fold of `dec` (41_decoder.md R148) -/

section Fold
variable {st : List Bool × List Byte} {c : Byte} {v : Sextet}

/-- A data symbol that does not fill a byte. -/
theorem decSymbol_val_partial (hr : rev c = .val v) (h : st.1.length + 6 < 8) :
    decSymbol st c = (st.1 ++ v.bitsMsbFirst, st.2) := by
  have hlength : ¬ 8 ≤ (st.1 ++ v.bitsMsbFirst).length := by
    rw [List.length_append]; exact Nat.not_le_of_lt h
  simp only [decSymbol, hr]
  rw [if_neg hlength]

/-- A data symbol that fills a byte. -/
theorem decSymbol_val_byte (hr : rev c = .val v) (h : 8 ≤ st.1.length + 6) :
    decSymbol st c = ((st.1 ++ v.bitsMsbFirst).drop 8,
      st.2 ++ [BitVec.ofNat 8 (ofBits ((st.1 ++ v.bitsMsbFirst).take 8))]) := by
  have hlength : 8 ≤ (st.1 ++ v.bitsMsbFirst).length := by rw [List.length_append]; exact h
  simp only [decSymbol, hr]
  rw [if_pos hlength]

theorem decSymbol_isPad (hr : rev c = .isPad) : decSymbol st c = (st.1.take (st.1.length - 2), st.2) := by
  simp only [decSymbol, hr]

theorem decSymbol_bad (hr : rev c = .bad) : decSymbol st c = st := by simp only [decSymbol, hr]

/-- Bytes that have left stay. -/
theorem decSymbol_output_grows (st : List Bool × List Byte) (c : Byte) : st.2 <+: (decSymbol st c).2 := by
  cases hr : rev c with
  | val v =>
    rcases Nat.lt_or_ge (st.1.length + 6) 8 with h | h
    · rw [decSymbol_val_partial hr h]
    · rw [decSymbol_val_byte hr h]; exact List.prefix_append _ _
  | isPad => rw [decSymbol_isPad hr]
  | bad => rw [decSymbol_bad hr]

theorem decFold_append (syms more : List Byte) : decFold (syms ++ more) = more.foldl decSymbol (decFold syms) :=
  List.foldl_append

theorem decFold_concat (syms : List Byte) (c : Byte) : decFold (syms ++ [c]) = decSymbol (decFold syms) c :=
  decFold_append syms [c]

/-- The fold of more symbols has put out no less. -/
theorem length_decFold_le (pre post : List Byte) : (decFold pre).2.length ≤ (decMessage (pre ++ post)).length := by
  induction post generalizing pre with
  | nil => rw [List.append_nil]; exact Nat.le_refl _
  | cons c post ih =>
    rw [List.append_cons]
    refine Nat.le_trans ?_ (ih (pre ++ [c]))
    rw [decFold_concat]
    exact (decSymbol_output_grows _ c).length_le

end Fold

/-! ### `dec` of `enc` (40_encoder.md R126, 41_decoder.md R148) -/

/-- The bits `bs` have come in: whole bytes of them have left, and the rest, which fills no byte, is held. -/
structure Absorbed (bs : List Bool) (st : List Bool × List Byte) : Prop where
  all : st.2.flatMap Byte.bitsMsbFirst ++ st.1 = bs
  held : st.1.length < 8

namespace Absorbed
variable {bs : List Bool} {st : List Bool × List Byte}

theorem decSymbol_alphabet (h : Absorbed bs st) (v : Sextet) :
    Absorbed (bs ++ v.bitsMsbFirst) (decSymbol st (alphabet v)) := by
  have hlength : (st.1 ++ v.bitsMsbFirst).length = st.1.length + 6 := List.length_append
  have hheld := h.held
  rcases Nat.lt_or_ge (st.1.length + 6) 8 with hroom | hfull
  · rw [decSymbol_val_partial (rev_alphabet v) hroom]
    exact ⟨by rw [← h.all, List.append_assoc], by rw [hlength]; exact hroom⟩
  · rw [decSymbol_val_byte (rev_alphabet v) hfull]
    refine ⟨?_, by rw [List.length_drop, hlength]; omega⟩
    have hbyte := bitsMsbFirst_byte (bs := (st.1 ++ v.bitsMsbFirst).take 8)
      (by rw [List.length_take, hlength]; omega)
    simp only [List.flatMap_append, List.flatMap_singleton]
    rw [hbyte, List.append_assoc, List.take_append_drop, ← h.all, List.append_assoc]

theorem foldl_alphabet (h : Absorbed bs st) (vs : List Sextet) :
    Absorbed (bs ++ vs.flatMap Sextet.bitsMsbFirst) ((vs.map alphabet).foldl decSymbol st) := by
  induction vs generalizing bs st with
  | nil => rw [List.flatMap_nil, List.append_nil]; exact h
  | cons v vs ih =>
    rw [List.flatMap_cons, ← List.append_assoc]
    exact ih (h.decSymbol_alphabet v)

/-- What has come in tells what has left and what is held. -/
theorem eq {msg : List Byte} {zeros : List Bool} (h : Absorbed (msg.flatMap Byte.bitsMsbFirst ++ zeros) st)
    (hz : zeros.length < 8) : st = (zeros, msg) := by
  obtain ⟨hout, hheld⟩ := bytes_unique h.all h.held hz
  exact Prod.ext hheld hout

end Absorbed

/-- The characters of whole sextets bring their bits in. -/
theorem absorbed_sextets {bs : List Bool} (h : 6 ∣ bs.length) :
    Absorbed bs (decFold ((sextets bs).map alphabet)) := by
  have hfold := (⟨rfl, by decide⟩ : Absorbed [] ([], [])).foldl_alphabet (sextets bs)
  rwa [flatMap_sextets bs h] at hfold

/-- Each pad takes two bits back. -/
theorem foldl_pads (bits : List Bool) (out : List Byte) (k : Nat) :
    (List.replicate k pad).foldl decSymbol (bits, out) = (bits.take (bits.length - 2 * k), out) := by
  induction k generalizing bits with
  | zero => simp
  | succ k ih =>
    rw [List.replicate_succ, List.foldl_cons, decSymbol_isPad rev_pad, ih, List.take_take, List.length_take]
    congr 2
    dsimp only
    omega

theorem rev_ne_bad_of_mem_encMessage {msg : List Byte} {c : Byte} (h : c ∈ encMessage msg) : rev c ≠ .bad := by
  rw [encMessage_eq, List.mem_append, List.mem_map, List.mem_replicate] at h
  rcases h with ⟨v, -, rfl⟩ | ⟨-, rfl⟩ <;> simp

theorem decFold_encMessage (msg : List Byte) : decFold (encMessage msg) = ([], msg) := by
  have hlength := length_bitsMsbFirst msg
  have hzeros : (fillZeros (msg.flatMap Byte.bitsMsbFirst)).length = 2 * ((3 - msg.length % 3) % 3) := by
    rw [fillZeros, List.length_replicate]; omega
  have hchars := absorbed_sextets (bs := msg.flatMap Byte.bitsMsbFirst ++ fillZeros (msg.flatMap Byte.bitsMsbFirst))
    (by rw [List.length_append]; omega)
  rw [encMessage_eq, decFold_append, hchars.eq (by omega), foldl_pads, hzeros, Nat.sub_self, List.take_zero]

end Sys2Proof

namespace Sys2Proof.Machine

/-- Settles O54: the characters bring the message's bits and the zeros that fill the last group, and the pads take the
zeros back. -/
theorem decodingInvertsEncoding : Obligations.DecodingInvertsEncoding := fun msg =>
  ⟨decFold_encMessage msg, fun _ hc => rev_ne_bad_of_mem_encMessage hc⟩

end Sys2Proof.Machine

namespace Sys2Proof.Machine

/-! ### A decode session writes the decoding (41_decoder.md R148) -/

section Steps
variable {s : State} {c : Byte} {v : Sextet} {rest : List Input}

theorem step_decSym (hi : s.inputs = .cmd (putWord c) :: rest) (hp : s.phase = .active) (hm : s.mode = .dec)
    (hr : rev c = .val v) : step s = .next (decSymBody v (s.took rest)).finish := by
  have hsym : decodeSymbol c = .decSym c := decodeSymbol_of_isVal (by rw [hr]; rfl)
  exact (step_instr hi (hm ▸ hsym ▸ decode_put_dec c)).trans (exec_decSym_active (s := s.took rest) hp hm hr)

theorem step_decPad (hi : s.inputs = .cmd (putWord c) :: rest) (hp : s.phase = .active) (hm : s.mode = .dec)
    (hr : rev c = .isPad) : step s = .next (decPadBody (s.took rest)).finish := by
  have hsym : decodeSymbol c = .decPad := by rw [rev_isPad c hr, decodeSymbol_pad]
  exact (step_instr hi (hm ▸ hsym ▸ decode_put_dec c)).trans (exec_decPad_active (s := s.took rest) hp hm)

theorem step_decFin (hi : s.inputs = .cmd finWord :: rest) (hp : s.phase = .active) (hm : s.mode = .dec) :
    step s = .next (finalize (s.took rest)).finish :=
  (step_instr (i := .decFin) hi (hm ▸ rfl)).trans (exec_decFin_active (s := s.took rest) hp hm)

end Steps

/-- A decode session that began in `s` stands where the fold of `dec` stands: its bytes are out, and the accumulator
holds its bits. -/
structure Decoding (s : State) (st : List Bool × List Byte) (u : State) : Prop extends DecSession u where
  emits : Emits s u st.2
  bits : u.bitCount.toNat = st.1.length
  acc : u.acc.toNat = ofBits st.1

namespace Decoding
variable {s u : State} {st : List Bool × List Byte} {out : List Byte} {N : Nat} {why : Prop}
  {c : Byte} {v : Sextet}

theorem with_host (h : Decoding s st u) (is : List Input) (x : Option FaultCode) :
    Decoding s st { u with inputs := is, rsp := x } :=
  ⟨⟨h.phase, h.mode, h.fault, h.bytes, h.units⟩, h.emits.with_regs, h.bits, h.acc⟩

/-- Bits shifted in stand behind those held. -/
theorem toNat_foldl (h : Decoding s st u) {bs : List Bool} (hroom : st.1.length + bs.length ≤ 8) :
    (bs.foldl shiftIn u.acc).toNat = ofBits (st.1 ++ bs) := by
  rw [toNat_foldl_shiftIn (h.acc ▸ ofBits_lt st.1) hroom, h.acc, ofBits_append]

/-- Bits that do not fill the byte are held (41_decoder.md R140). -/
theorem bits_partial (h : Decoding s st u) {bs : List Bool} (hroom : st.1.length + bs.length < 8) :
    (forBits decodeBit bs u).Ends (Decoding s (st.1 ++ bs, st.2)) (Faulted why) := by
  have hbits := h.bits
  rw [decode_partial (by omega)]
  refine ⟨h.with_regs, h.emits.with_regs, ?_, h.toNat_foldl hroom.le⟩
  rw [List.length_append, hbits]
  exact (BitVec.toNat_ofNat ..).trans (Nat.mod_eq_of_lt hroom)

/-- APPEND in a decode session puts its element out, or it fails. -/
theorem append_emits (hu : DecSession u) (he : Emits s u out) (hc : 1 ≤ s.params.capacity) (hn : out.length < N)
    (hwhy : s.sinkFailsWithin N → why) (x : Byte) :
    (append x u).Ends (fun t => DecSession t ∧ Emits s t (out ++ [x])) (Faulted why) :=
  append_ends ⟨hu.stored x, he.stored hc x⟩ fun hfull =>
    he.faulted_of_write hn hwhy (by rw [hfull, he.params]; exact hc)

/-- Bits that fill the byte send it out (41_decoder.md R140). -/
theorem bits_byte (h : Decoding s st u) (hc : 1 ≤ s.params.capacity) (hn : st.2.length < N)
    (hwhy : s.sinkFailsWithin N → why) {bs : List Bool} (hne : bs ≠ []) (hfull : st.1.length + bs.length = 8) :
    (forBits decodeBit bs u).Ends (Decoding s ([], st.2 ++ [BitVec.ofNat 8 (ofBits (st.1 ++ bs))]))
      (Faulted why) := by
  have hbits := h.bits
  have hbyte : bs.foldl shiftIn u.acc = BitVec.ofNat 8 (ofBits (st.1 ++ bs)) := by
    rw [← h.toNat_foldl hfull.le, BitVec.ofNat_toNat, BitVec.setWidth_eq]
  rw [decode_byte hne (by omega), hbyte]
  refine (append_emits h.with_regs h.emits.with_regs hc hn hwhy _).andThen fun t ht => ?_
  obtain ⟨hsession, hemits⟩ := ht
  exact ⟨hsession.with_regs, hemits.with_regs, rfl, rfl⟩

/-- DEC.SYM does what the fold does (41_decoder.md R140, R148): where its bits fill the byte held, the first of them do,
and the others begin the next. -/
theorem decSym (h : Decoding s st u) (hc : 1 ≤ s.params.capacity) (hr : rev c = .val v)
    (hn : (decSymbol st c).2.length ≤ N) (hwhy : s.sinkFailsWithin N → why) :
    (decSymBody v u).Ends (Decoding s (decSymbol st c)) (Faulted why) := by
  have hheld : st.1.length < 8 := h.bits ▸ u.bitCount.isLt
  have hsix : v.bitsMsbFirst.length = 6 := rfl
  rcases Nat.lt_or_ge (st.1.length + 6) 8 with hroom | hfull
  · rw [decSymbol_val_partial hr hroom]
    exact h.bits_partial hroom
  · have hbody : decSymBody v u = (forBits decodeBit (v.bitsMsbFirst.take (8 - st.1.length)) u).andThen
        (forBits decodeBit (v.bitsMsbFirst.drop (8 - st.1.length))) := by
      rw [← forBits_append, List.take_append_drop, decSymBody]
    have hfirst : (v.bitsMsbFirst.take (8 - st.1.length)).length = 8 - st.1.length := by
      rw [List.length_take, hsix]; omega
    have hrest : (v.bitsMsbFirst.drop (8 - st.1.length)).length < 8 := by rw [List.length_drop, hsix]; omega
    rw [decSymbol_val_byte hr hfull, List.length_append, List.length_singleton] at hn
    rw [decSymbol_val_byte hr hfull, hbody, List.take_append, List.take_of_length_le hheld.le, List.drop_append,
      List.drop_of_length_le hheld.le]
    exact (h.bits_byte hc hn hwhy (List.ne_nil_of_length_pos (by omega)) (by omega)).andThen fun t ht =>
      ht.bits_partial (by simpa using hrest)

/-- DEC.PAD does what the fold does (41_decoder.md R142, R148). -/
theorem decPad (h : Decoding s st u) (hr : rev c = .isPad) : Decoding s (decSymbol st c) (decPadBody u).finish := by
  rw [decSymbol_isPad hr]
  refine ⟨⟨h.phase, h.mode, h.fault, h.bytes, h.units⟩, h.emits.with_regs, ?_, ?_⟩
  · have hlt := u.bitCount.isLt
    rw [List.length_take, Nat.min_eq_left (Nat.sub_le _ _), ← h.bits]
    exact (BitVec.toNat_ofNat ..).trans (Nat.mod_eq_of_lt (by omega))
  · rw [ofBits_take_sub, ← h.acc, ← Nat.shiftRight_eq_div_pow]
    exact BitVec.toNat_ushiftRight ..

end Decoding

section Session
variable {s t u : State} {syms pre post : List Byte} {c : Byte} {rest : List Input}

/-- Why a decode session of the symbols that begins in `s` fails: the sink fails one of its questions, which are no more
than a byte each and one (60_exceptions.md R202). -/
def State.decodeFails (s : State) (syms : List Byte) : Prop := s.sinkFailsWithin ((decMessage syms).length + 1)

/-- The session goes on with the symbols `pre` taken in, or it has failed. -/
def DecodesOrFails (s : State) (syms pre : List Byte) (u : State) : Prop :=
  Decoding s (decFold pre) u ∨ Faulted (s.decodeFails syms) u

/-- The session has written the decoding, or it has failed. -/
def DecodedOrFailed (s : State) (syms : List Byte) (t : State) : Prop :=
  (t.phase = .done ∧ t.sinkData = decMessage syms ∧ t.bitCount.toNat = (decFold syms).1.length ∧
      t.acc.toNat = ofBits (decFold syms).1) ∨ Faulted (s.decodeFails syms) t

theorem openSession_decodes (s : State) (syms : List Byte) (rest : List Input) :
    DecodesOrFails s syms [] (openSession .dec (s.took rest)) := by
  cases ha : (s.took rest).nextAnswer with
  | true => exact .inl ⟨⟨by simp [ha], rfl, by simp [ha], rfl, rfl⟩, .openSession s .dec rest, rfl, rfl⟩
  | false => exact .inr ⟨by simp [ha], 0, Nat.succ_pos _, (answerAt_zero s).trans ha⟩

theorem step_put_decodes (hc : 1 ≤ s.params.capacity) (hsyms : syms = pre ++ c :: post) (hr : rev c ≠ .bad)
    (hu : DecodesOrFails s syms pre u) (hi : u.inputs = .cmd (putWord c) :: rest) (h : step u = .next t) :
    DecodesOrFails s syms (pre ++ [c]) t := by
  rcases hu with hu | ⟨hp, hwhy⟩
  · have htook := hu.with_host rest u.rsp
    cases hclass : rev c with
    | val v =>
      cases h.symm.trans (step_decSym hi hu.phase hu.mode hclass)
      have hroom : (decSymbol (decFold pre) c).2.length ≤ (decMessage syms).length + 1 := by
        have hle := length_decFold_le (pre ++ [c]) post
        rw [decFold_concat, ← List.append_cons, ← hsyms] at hle
        exact Nat.le_succ_of_le hle
      refine (htook.decSym hc hclass hroom (why := s.decodeFails syms) id).finish (fun w hw => .inl ?_)
        fun w hw => .inr hw
      rw [decFold_concat]
      exact hw.with_host w.inputs (some .ok)
    | isPad =>
      cases h.symm.trans (step_decPad hi hu.phase hu.mode hclass)
      exact .inl (decFold_concat pre c ▸ htook.decPad hclass)
    | bad => exact absurd hclass hr
  · exact .inr ⟨step_put_fault hi hp h, hwhy⟩

theorem step_fin_decodes (hu : DecodesOrFails s syms syms u) (hi : u.inputs = .cmd finWord :: rest)
    (h : step u = .next t) : DecodedOrFailed s syms t := by
  rcases hu with hu | ⟨hp, hwhy⟩
  · cases h.symm.trans (step_decFin hi hu.phase hu.mode)
    have htook := hu.with_host rest u.rsp
    have hend := (htook.emits.finalize (Nat.lt_succ_self _) (why := s.decodeFails syms) id).finish
      (R := fun w => (w.phase = .done ∧ w.sinkData = decMessage syms) ∨ Faulted (s.decodeFails syms) w)
      (fun _ hw => .inl hw) fun _ hw => .inr hw
    obtain ⟨-, -, hacc, hbits, -⟩ := decFin_onlyDrains (u.took rest)
    refine hend.imp_left fun ⟨hp, hdata⟩ => ⟨hp, hdata, ?_, ?_⟩
    · rw [hbits, htook.bits]
    · rw [hacc, htook.acc]
  · exact .inr ⟨step_fin_fault hi hp h, hwhy⟩

end Session

/-- Settles O53: OPEN, each PUT and FIN go on as the fold of `dec` does, or the session fails for a reason that the
premises exclude. -/
theorem decodeSessionWritesTheDecoding : Obligations.DecodeSessionWritesTheDecoding := by
  intro s syms rest hwf hp hi hsyms
  obtain ⟨t, hrun, hrest, hend⟩ := run_session (I := DecodesOrFails s syms) (R := DecodedOrFailed s syms) hp hi
    (openSession_decodes s syms)
    (fun pre c post _ _ _ hmsg hu hiu h => step_put_decodes hwf.1 hmsg (hsyms c (by simp [hmsg])) hu hiu h)
    fun _ _ _ hu hiu h => step_fin_decodes hu hiu h
  refine ⟨t, hrun, hrest, fun hdone => ?_, fun hsink => ?_⟩
  · rcases hend with ⟨-, hwritten⟩ | ⟨hfault, -⟩
    · exact hwritten
    · simp [hdone] at hfault
  · rcases hend with ⟨hdone, -⟩ | ⟨-, j, hj, hno⟩
    · exact hdone
    · simp [hsink j hj] at hno

end Sys2Proof.Machine

namespace Sys2Proof.Machine

/-! ### The buffer-flush unit (42_buffer_flush.md R160 to R162) -/

section Buffer
variable {s : State} {x : Byte}

/-- A Write answered ok lands whole. -/
theorem sinkWrite_eq_of_ok (seq : List Byte) (ha : s.nextAnswer = true) :
    sinkWrite seq s = { s with
      sinkData := s.sinkData ++ seq
      events := s.events ++ [.wrote seq true], answers := s.answers.tail, freeCount := s.freeCount + 1 } := by
  simp [sinkWrite, State.takeAnswer, ha]

/-- A failed Write of the buffer moves the sink's side and the fault registers; what has landed of it is free
(93_implementation_defined.md U4). -/
theorem writeFailed_eq_of_fail (ha : s.nextAnswer = false) :
    writeFailed s = { s with
      phase := .fault, rsp := some .sinkWriteFailure
      fault := if s.phase = .fault then s.fault else .sinkWriteFailure
      sinkData := s.sinkData ++ landed s.freeCount s.buf false
      events := s.events ++ [.wrote s.buf false], answers := s.answers.tail, freeCount := s.freeCount + 1 } := by
  simp [writeFailed, raise, sinkWrite, State.takeAnswer, ha]

theorem append_of_room (hroom : s.buf.length ≠ s.params.capacity) : append x s = .ok (stored s x) := by
  rw [append_eq, if_neg fun ⟨hfull, _⟩ => hroom hfull]

theorem append_of_ok (ha : s.nextAnswer = true) : append x s = .ok (stored s x) := by
  rw [append_eq, if_neg (by simp [ha])]

theorem append_of_fail (hfull : s.buf.length = s.params.capacity) (ha : s.nextAnswer = false) :
    append x s = .raised (writeFailed s) := by
  rw [append_eq, if_pos ⟨hfull, ha⟩]

end Buffer

/-- Settles O21: APPEND stores unless the buffer is full and its Write fails, and `stored` asks once more whether it is
full. -/
theorem appendStoresAfterMakingRoom : Obligations.AppendStoresAfterMakingRoom := by
  intro s x
  rw [answerAt_zero]
  refine ⟨fun hroom => ?_, fun hfull ha => ?_, fun hfull ha => ?_⟩
  · rw [append_of_room hroom, stored, if_neg hroom]
  · rw [append_of_ok ha, stored, if_pos hfull]
  · exact ⟨_, (append_of_fail hfull ha).trans (congrArg _ (writeFailed_eq_of_fail ha))⟩

/-- Settles O22: the three branches of DRAIN, each Write as its answer has it. -/
theorem drainWritesWhatRemains : Obligations.DrainWritesWhatRemains := by
  intro s
  rw [answerAt_zero, drain_eq]
  refine ⟨fun hempty => if_pos hempty, fun hne ha => ?_, fun hne ha => ?_⟩
  · rw [if_neg hne, if_pos ha, sinkWrite_eq_of_ok _ ha]
  · rw [if_neg hne, if_neg (by simp [ha]), writeFailed_eq_of_fail ha]
    exact ⟨_, rfl⟩

end Sys2Proof.Machine

namespace Sys2Proof.Machine

/-! ### Where an instruction runs (43_session_control.md R180) -/

/-- Fault entry out of FAULT. -/
theorem raise_of_not_fault {s : State} (h : s.phase ≠ .fault) (x : FaultCode) :
    raise x s = { s with rsp := some x, phase := .fault, fault := x } := by
  rw [raise, if_neg h]

/-- In FAULT a raise changes the response only (60_exceptions.md R210, 43_session_control.md R186). -/
theorem raise_of_fault {s : State} (h : s.phase = .fault) (x : FaultCode) :
    raise x s = { s with rsp := some x } := by
  rw [raise, if_pos h, ← h]

/-- Every PUT or FIN instruction stands behind the same checks: the phase, then whether dispatch selects it. -/
theorem exec_putOrFin {i : Instr} (h : isPutOrFin i = true) (s : State) :
    ∃ body, exec i s = inSession (i.wf && i.selectedIn s.mode) body s := by
  cases i with
  | nop | openE | openD => simp [isPutOrFin] at h
  | encPut _ | decPad | encFin | decFin => exact ⟨_, rfl⟩
  | decSym c =>
    simp only [exec, execDecSym, Instr.wf]
    cases rev c <;> exact ⟨_, rfl⟩
  | decBad c => exact ⟨decBadBody, congrArg (inSession · decBadBody s) (Bool.and_comm _ _)⟩

theorem exec_outOfPhase {i : Instr} {s : State} (h : isPutOrFin i = true) (hp : s.phase ≠ .active) :
    exec i s = .next (raise .protocolError s) := by
  obtain ⟨body, e⟩ := exec_putOrFin h s
  rw [e, inSession_inactive hp]

theorem inSession_notSelected {body : State → Run} {s : State} (hp : s.phase = .active) :
    inSession false body s = .refused .notSelected := by
  simp [inSession, hp]

/-- Where the phase is not ACTIVE or dispatch selects the instruction, there is a next state. -/
theorem inSession_answers {selected : Bool} (body : State → Run) {s : State}
    (h : s.phase = .active → selected = true) : ∃ t, inSession selected body s = .next t := by
  by_cases hp : s.phase = .active
  · rw [h hp]
    exact ⟨_, inSession_active hp⟩
  · exact ⟨_, inSession_inactive hp⟩

theorem outsideSession_answers (body : State → State) (s : State) : ∃ t, outsideSession body s = .next t := by
  by_cases hp : s.phase = .active
  · exact ⟨_, outsideSession_active hp⟩
  · exact ⟨_, outsideSession_inactive hp⟩

/-- NOP and the OPENs answer a next state everywhere. -/
theorem exec_answers_of_not_putOrFin {i : Instr} (h : isPutOrFin i = false) (s : State) :
    ∃ t, exec i s = .next t := by
  cases i with
  | nop => exact ⟨_, rfl⟩
  | openE => exact outsideSession_answers (openSession .enc) s
  | openD => exact outsideSession_answers (openSession .dec) s
  | encPut _ | decSym _ | decPad | decBad _ | encFin | decFin => simp [isPutOrFin] at h

/-- OPEN, whole (43_session_control.md R182, 10_state.md R42). -/
theorem openSession_eq (m : Mode) (s : State) : openSession m s = { s with
    mode := m, acc := 0#8, bitCount := 0#3, totalBytesRead := 0, totalUnitsWritten := 0, buf := []
    overflowed := false, sinkData := [], sinkOpen := s.answerAt 0
    phase := if s.answerAt 0 = true then .active else .fault
    fault := if s.answerAt 0 = true then .ok else .sinkOpenFailure
    rsp := some (if s.answerAt 0 = true then .ok else .sinkOpenFailure)
    events := s.events ++ [.opened (s.answerAt 0)], answers := s.answers.tail, freeCount := s.freeCount + 1 } := by
  rw [answerAt_zero]
  rfl

/-- Settles O12: each case of a step has its next state. -/
theorem stepAlwaysAnswersNext : Obligations.StepAlwaysAnswersNext := fun s =>
  (step_spec s).imp fun _ => And.left

/-- Settles O13: the checks in front of PUT and FIN refuse where the phase passes and the selection does not, and the
other instructions have no such check. -/
theorem execRefusesOnlyWhereDispatchSelectsAnother : Obligations.ExecRefusesOnlyWhereDispatchSelectsAnother := by
  refine fun i s => ⟨fun ⟨hp, hput, hsel⟩ => ?_, fun h => ?_⟩
  · obtain ⟨body, e⟩ := exec_putOrFin hput s
    rw [e, Bool.eq_false_iff.2 fun hs => hsel (Bool.and_eq_true_iff.1 hs), inSession_notSelected hp]
  · cases hput : isPutOrFin i with
    | false => exact exec_answers_of_not_putOrFin hput s
    | true =>
      obtain ⟨body, e⟩ := exec_putOrFin hput s
      rw [e]
      refine inSession_answers body fun hp => ?_
      by_contra hs
      exact h ⟨hp, hput, fun hsel => hs (Bool.and_eq_true_iff.2 hsel)⟩

/-- Settles O7: no reset cuts the command short, so the step is its instruction. -/
theorem stepRunsDecodedInstruction : Obligations.StepRunsDecodedInstruction := fun _ _ _ _ hi hd => step_instr hi hd

/-- Settles O14: dispatch puts no check in front of NOP. -/
theorem nopAnswersOkAndChangesNothing : Obligations.NopAnswersOkAndChangesNothing := fun _ => rfl

/-- An OPEN in a session (43_session_control.md R185). -/
theorem outsideSession_active_eq {body : State → State} {s : State} (hp : s.phase = .active) :
    outsideSession body s = .next { s with rsp := some .protocolError, phase := .fault, fault := .protocolError } := by
  rw [outsideSession_active hp, raise_of_not_fault (by simp [hp])]

/-- Settles O15: the phase check, and `openSession` written out. -/
theorem openEStartsAnEncodeSession : Obligations.OpenEStartsAnEncodeSession := fun s =>
  ⟨fun hp => (outsideSession_inactive hp).trans (congrArg _ (openSession_eq .enc s)), outsideSession_active_eq⟩

/-- Settles O16: as OPEN.E. -/
theorem openDStartsADecodeSession : Obligations.OpenDStartsADecodeSession := fun s =>
  ⟨fun hp => (outsideSession_inactive hp).trans (congrArg _ (openSession_eq .dec s)), outsideSession_active_eq⟩

/-- Settles O17: PUT and FIN stand behind one phase check, the OPENs behind the other. -/
theorem outOfPhaseCommandRaisesProtocolError : Obligations.OutOfPhaseCommandRaisesProtocolError := by
  refine ⟨fun s i hput hp => exec_outOfPhase hput hp, ?_⟩
  rintro s i (rfl | rfl) hp
  · exact outsideSession_active_eq hp
  · exact outsideSession_active_eq hp

end Sys2Proof.Machine

namespace Sys2Proof.Machine

/-! ### A step, by the kind of its command word (30_encoding.md R95) -/

section Words
variable {s : State} {w : CmdWord} {c : Byte} {rest : List Input}

theorem step_reserved (hi : s.inputs = .cmd w :: rest) (hw : reservedWord w) :
    step s = .next (raise .illegalCommand (s.took rest)) := by
  obtain ⟨r, hd⟩ := (decode_illegal_iff s.mode w).2 hw
  exact step_illegal hi hd

theorem step_nop (hi : s.inputs = .cmd 0x000#10 :: rest) : step s = .next { s.took rest with rsp := some .ok } :=
  step_instr (i := .nop) hi rfl

/-- The OPEN words are those of the two modes. -/
theorem openCommand_iff : openCommand w ↔ ∃ m, w = openWord m := by
  constructor
  · rintro (rfl | rfl)
    · exact ⟨.enc, rfl⟩
    · exact ⟨.dec, rfl⟩
  · rintro ⟨m, rfl⟩
    cases m with
    | enc => exact .inl rfl
    | dec => exact .inr rfl

theorem step_open_active (hi : s.inputs = .cmd w :: rest) (hw : openCommand w) (hp : s.phase = .active) :
    step s = .next (raise .protocolError (s.took rest)) := by
  rcases hw with rfl | rfl
  · exact (step_instr (i := .openE) hi rfl).trans (outsideSession_active hp)
  · exact (step_instr (i := .openD) hi rfl).trans (outsideSession_active hp)

theorem eq_putWord (hw : opField w = 0b10#2) : w = putWord (dataField w) := by
  rw [putWord, ← hw, cmdWord_fields]

theorem isPutOrFin_decodeSymbol (c : Byte) : isPutOrFin (decodeSymbol c) = true := by
  unfold decodeSymbol
  cases rev c <;> rfl

/-- A PUT or FIN word names a PUT or FIN instruction, in either mode. -/
theorem decode_putOrFin (m : Mode) (hw : opField w = 0b10#2 ∨ w = 0x300#10) :
    ∃ i, decode m w = .instr i ∧ isPutOrFin i = true := by
  rcases hw with hw | rfl
  · rw [eq_putWord hw]
    cases m with
    | enc => exact ⟨_, decode_put_enc _, rfl⟩
    | dec => exact ⟨_, decode_put_dec _, isPutOrFin_decodeSymbol _⟩
  · cases m with
    | enc => exact ⟨.encFin, rfl, rfl⟩
    | dec => exact ⟨.decFin, rfl, rfl⟩

theorem step_outOfPhase (hi : s.inputs = .cmd w :: rest) (hw : opField w = 0b10#2 ∨ w = 0x300#10)
    (hp : s.phase ≠ .active) : step s = .next (raise .protocolError (s.took rest)) := by
  obtain ⟨i, hd, hput⟩ := decode_putOrFin s.mode hw
  exact (step_instr hi hd).trans (exec_outOfPhase hput hp)

/-- What is of no other kind is a PUT or FIN word. -/
theorem putOrFin_of_no_other (hr : ¬ reservedWord w) (hn : w ≠ 0x000#10) (ho : ¬ openCommand w) :
    opField w = 0b10#2 ∨ w = 0x300#10 := by
  rcases decode_kinds .enc w with ⟨h, -⟩ | ⟨h, -⟩ | ⟨h, -⟩ | ⟨h, -⟩ | ⟨h, -⟩ | ⟨h, -⟩
  · exact absurd h hr
  · exact absurd h hn
  · exact absurd (.inl h) ho
  · exact absurd (.inr h) ho
  · exact .inl h
  · exact .inr h

/-- Outside a session no command but OPEN does more than answer or raise (43_session_control.md R184). -/
theorem step_out_of_session (hi : s.inputs = .cmd w :: rest) (hp : s.phase ≠ .active) (ho : ¬ openCommand w) :
    step s = .next (
      if w = 0x000#10 then { s.took rest with rsp := some .ok }
      else if reservedWord w then raise .illegalCommand (s.took rest)
      else raise .protocolError (s.took rest)) := by
  split
  · next hn => exact step_nop (hn ▸ hi)
  · next hn =>
    split
    · next hr => exact step_reserved hi hr
    · next hr => exact step_outOfPhase hi (putOrFin_of_no_other hr hn ho) hp

theorem step_decBad (hi : s.inputs = .cmd (putWord c) :: rest) (hp : s.phase = .active) (hm : s.mode = .dec)
    (hr : rev c = .bad) : step s = .next (raise .invalidSymbol (s.took rest)) :=
  (step_instr hi (hm ▸ decodeSymbol_of_bad hr ▸ decode_put_dec c)).trans
    (exec_decBad_active (s := s.took rest) hp hm hr)

theorem step_encPut_limit (hi : s.inputs = .cmd (putWord c) :: rest) (hp : s.phase = .active) (hm : s.mode = .enc)
    (hn : s.params.maxN = some s.totalBytesRead) : step s = .next (raise .counterOverflow (s.took rest)) := by
  rw [step_encPut hi hp hm, encPutBody, if_pos hn]
  rfl

end Words

/-- Settles O18: outside a session a command answers or raises, and in FAULT a raise is an answer. -/
theorem faultPhaseKeepsAllButResponse : Obligations.FaultPhaseKeepsAllButResponse := by
  intro s w rest hp hi hw
  rw [step_out_of_session hi (by simp [hp]) hw, raise_of_fault (s := s.took rest) hp,
    raise_of_fault (s := s.took rest) hp]
  split_ifs <;> rfl

/-- Settles O19: outside a session a command answers or raises, and in DONE a raise enters FAULT. -/
theorem donePhaseKeepsTheResult : Obligations.DonePhaseKeepsTheResult := by
  intro s w rest hp hi hw
  have hf : (s.took rest).phase ≠ .fault := by simp [hp]
  rw [step_out_of_session hi (by simp [hp]) hw, raise_of_not_fault hf, raise_of_not_fault hf]

end Sys2Proof.Machine

namespace Sys2Proof.Machine

/-! ### The arcs of `phase` out of ACTIVE (43_session_control.md R184) -/

/-- From `s`, phase `p` has been reached with no fault and no failed Write. -/
def Reaches (p : Phase) (s t : State) : Prop := t.phase = p ∧ t.fault = s.fault ∧ noWriteFails s t

/-- A failed Write has ended the command. -/
def EndsInFailedWrite (s t : State) : Prop :=
  t.phase = .fault ∧ t.fault = .sinkWriteFailure ∧ t.rsp = some .sinkWriteFailure ∧ aWriteFails s t

/-- The two arcs of a PUT or a FIN that is not refused: to `p` with the response OK, or to FAULT. -/
def MovesTo (p : Phase) (s t : State) : Prop :=
  (t.phase = p ∧ t.fault = s.fault ∧ t.rsp = some .ok ∧ noWriteFails s t) ∨ EndsInFailedWrite s t

theorem Run.Ends.movesTo {p : Phase} {s : State} {r : Run} (h : r.Ends (Reaches p s) (EndsInFailedWrite s)) :
    MovesTo p s r.finish :=
  h.finish (R := MovesTo p s) (fun _ ⟨hp, hf, hw⟩ => .inl ⟨hp, hf, rfl, hw⟩) fun _ ht => .inr ht

namespace Ongoing
variable {s t u : State}

/-- The Writes of a command so far are flushes, and each has been answered ok. -/
theorem noWriteFails (h : Ongoing s u) {tail : List SinkEvent} (he : t.events = u.events ++ tail)
    (htail : ∀ seq, .wrote seq false ∉ tail) : noWriteFails s t := by
  obtain ⟨es, -, hes, hall, -⟩ := h.flushed
  refine ⟨es ++ tail, by simp [he, hes], fun seq hmem => ?_⟩
  rcases List.mem_append.1 hmem with hmem | hmem
  · obtain ⟨seq', heq, -⟩ := hall _ hmem
    simp at heq
  · exact htail seq hmem

theorem reaches (h : Ongoing s u) (hp : s.phase = .active) : Reaches .active s u :=
  ⟨h.phase.trans hp, h.fault, h.noWriteFails (tail := []) (by simp) (by simp)⟩

theorem endsInFailedWrite (h : Ongoing s u) (hp : s.phase = .active) (ha : u.nextAnswer = false) :
    EndsInFailedWrite s (writeFailed u) := by
  obtain ⟨es, -, hes, -⟩ := h.flushed
  exact ⟨rfl, if_neg (by simp [h.phase, hp]), rfl, es, u.buf, by simp [writeFailed, ha, hes]⟩

theorem append_arcs (h : Ongoing s u) (hp : s.phase = .active) (x : Byte) :
    (append x u).Ends (Ongoing s) (EndsInFailedWrite s) :=
  append_ends (h.stored x) fun _ ha => h.endsInFailedWrite hp ha

theorem finalize_arcs (h : Ongoing s u) (hp : s.phase = .active) :
    (Machine.finalize u).Ends (Reaches .done s) (EndsInFailedWrite s) :=
  finalize_ends (fun _ => ⟨rfl, h.fault, h.noWriteFails (tail := [.closed]) rfl (by simp)⟩)
    (fun _ ha => ⟨rfl, h.fault, h.noWriteFails (tail := [.wrote u.buf true, .closed]) (by simp [ha]) (by simp)⟩)
    fun _ ha => h.endsInFailedWrite hp ha

end Ongoing

section Commands
variable {s t : State} {w : CmdWord} {c : Byte} {rest : List Input}

theorem encPut_movesTo (hp : s.phase = .active) (hn : s.params.maxN ≠ some s.totalBytesRead) (b : Byte) :
    MovesTo .active s (encPutBody b s).finish :=
  ((encPutBody_ends (P := Ongoing s) (fun _ _ _ hu => hu.with_regs) (fun _ _ _ hu => hu.with_regs)
    (fun x _ hu => hu.append_arcs hp x) (fun hlim => absurd hlim hn) fun _ => (Ongoing.start s).with_regs).mono
    (fun _ hu => hu.reaches hp) fun _ hu => hu).movesTo

theorem decSym_movesTo (hp : s.phase = .active) (v : Sextet) : MovesTo .active s (decSymBody v s).finish :=
  ((decSymBody_ends (P := Ongoing s) (fun _ _ _ hu => hu.with_regs) (fun x _ hu => hu.append_arcs hp x)
    (.start s)).mono (fun _ hu => hu.reaches hp) fun _ hu => hu).movesTo

theorem decPad_movesTo (hp : s.phase = .active) : MovesTo .active s (decPadBody s).finish :=
  Run.Ends.movesTo (r := decPadBody s) ((Ongoing.start s).with_regs.reaches hp)

theorem encFin_movesTo (hp : s.phase = .active) : MovesTo .done s (encFinBody s).finish :=
  ((encFinAppends_ends (P := Ongoing s) (fun _ _ _ hu => hu.with_regs) (fun _ hu => hu.with_regs)
    (fun x _ hu => hu.append_arcs hp x) (.start s)).andThen fun _ hu => hu.finalize_arcs hp).movesTo

theorem decFin_movesTo (hp : s.phase = .active) : MovesTo .done s (finalize s).finish :=
  ((Ongoing.start s).finalize_arcs hp).movesTo

/-- A PUT that no check of its own ends (43_session_control.md R184). -/
theorem step_put_movesTo (hi : s.inputs = .cmd (putWord c) :: rest) (hp : s.phase = .active)
    (hbad : ¬ (s.mode = .dec ∧ rev c = .bad)) (hlim : ¬ (s.mode = .enc ∧ s.params.maxN = some s.totalBytesRead))
    (h : step s = .next t) : MovesTo .active s t := by
  cases hm : s.mode with
  | enc =>
    cases h.symm.trans (step_encPut hi hp hm)
    exact encPut_movesTo (s := s.took rest) hp (fun hn => hlim ⟨hm, hn⟩) c
  | dec =>
    cases hr : rev c with
    | val v =>
      cases h.symm.trans (step_decSym hi hp hm hr)
      exact decSym_movesTo (s := s.took rest) hp v
    | isPad =>
      cases h.symm.trans (step_decPad hi hp hm hr)
      exact decPad_movesTo (s := s.took rest) hp
    | bad => exact absurd ⟨hm, hr⟩ hbad

theorem step_fin_movesTo (hi : s.inputs = .cmd finWord :: rest) (hp : s.phase = .active) (h : step s = .next t) :
    MovesTo .done s t := by
  cases hm : s.mode with
  | enc =>
    cases h.symm.trans (step_encFin hi hp hm)
    exact encFin_movesTo (s := s.took rest) hp
  | dec =>
    cases h.symm.trans (step_decFin hi hp hm)
    exact decFin_movesTo (s := s.took rest) hp

/-- OPEN outside a session goes where the sink's answer sends it (43_session_control.md R182). -/
theorem step_open_arcs (hi : s.inputs = .cmd w :: rest) (hw : openCommand w) (hp : s.phase ≠ .active)
    (h : step s = .next t) :
    (s.answerAt 0 = true ∧ t.phase = .active ∧ t.fault = .ok ∧ t.rsp = some .ok) ∨
      (s.answerAt 0 = false ∧ t.phase = .fault ∧ t.fault = .sinkOpenFailure ∧ t.rsp = some .sinkOpenFailure) := by
  obtain ⟨m, rfl⟩ := openCommand_iff.1 hw
  cases h.symm.trans (step_open hi hp)
  have ha : (s.took rest).answerAt 0 = s.answerAt 0 := rfl
  rw [openSession_eq, ha]
  cases s.answerAt 0 with
  | true => exact .inl ⟨rfl, rfl, rfl, rfl⟩
  | false => exact .inr ⟨rfl, rfl, rfl, rfl⟩

end Commands

/-- Settles O20: each clause from the equation of the step for its kind of word, and reset from what every reset
leaves. -/
theorem phaseMovesAlongTheArcs : Obligations.PhaseMovesAlongTheArcs := by
  refine ⟨fun s t w rest hi h => ?_, fun s t hr h => ?_⟩
  · have put (hw : opField w = 0b10#2) : s.inputs = .cmd (putWord (dataField w)) :: rest := by
      rw [← eq_putWord hw, hi]
    refine ⟨fun hw => ?_, fun hw => ?_, fun hw hp => ?_, fun hw hp => step_open_arcs hi hw hp h, fun hw hp => ?_,
      fun hw hp hm hr => ?_, fun hw hp hm hn => ?_, fun hw hp hbad hlim => step_put_movesTo (put hw) hp hbad hlim h,
      fun hw hp => step_fin_movesTo (hw ▸ hi) hp h⟩
    · cases h.symm.trans (step_reserved hi hw)
      exact ⟨rfl, rfl, rfl⟩
    · cases h.symm.trans (step_nop (hw ▸ hi))
      exact ⟨rfl, rfl, rfl⟩
    · cases h.symm.trans (step_open_active hi hw hp)
      exact ⟨rfl, if_neg (by simp [hp]), rfl⟩
    · cases h.symm.trans (step_outOfPhase hi hw hp)
      exact ⟨rfl, rfl, rfl⟩
    · cases h.symm.trans (step_decBad (put hw) hp hm hr)
      exact ⟨rfl, if_neg (by simp [hp]), rfl⟩
    · cases h.symm.trans (step_encPut_limit (put hw) hp hm hn)
      exact ⟨rfl, if_neg (by simp [hp]), rfl⟩
  · obtain ⟨es, inputs, answers, n, rfl⟩ := step_resets hr h
    exact ⟨rfl, rfl, rfl⟩

end Sys2Proof.Machine

namespace Sys2Proof.Machine

/-! ### The numbers of 60_exceptions.md and what a fault leaves of the control registers -/

/-- Settles O56, with the number that no code has. -/
theorem faultCodesAreTheSpecNumbers : Obligations.FaultCodesAreTheSpecNumbers :=
  ⟨rfl, rfl, rfl, rfl, rfl, rfl, rfl, code_ne_seven⟩

/-- Settles O24: `M` is any number here, and the final length of `3 * (M / 4)` bytes is the greatest multiple of 4 up
to `M`. -/
theorem counterLimitIsTheLargestThatFits : Obligations.CounterLimitIsTheLargestThatFits := by
  refine ⟨fun p w hw => ?_, fun p hp => by simp [Params.maxN, Params.maxCount, hp]⟩
  refine ⟨3 * ((2 ^ w - 1) / 4), by simp [Params.maxN, Params.maxCount, hw], ?_⟩
  generalize 2 ^ w - 1 = maxCount
  simp only [encodedLength]
  exact ⟨by omega, by omega, fun k hk => by omega⟩

/-- Settles O11: a step without an input is settled where it stands. -/
theorem waitingBlockKeepsItsState : Obligations.WaitingBlockKeepsItsState := fun _ hi => step_waits hi

/-- Settles O8: the word is settled by the raise, which `raise` writes out, before the phase is looked at. -/
theorem reservedWordRaisesIllegalCommand : Obligations.ReservedWordRaisesIllegalCommand :=
  fun _ _ _ hi hw => step_reserved hi hw

/-- Settles O25: the limit is checked before any statement that writes. -/
theorem encPutRefusesTheByteAtTheLimit : Obligations.EncPutRefusesTheByteAtTheLimit := by
  intro s b hp hm hn
  rw [exec_encPut_active hp hm, encPutBody, if_pos hn, raise_of_not_fault (by simp [hp])]
  rfl

/-- The first fault stays recorded until a step that starts anew (60_exceptions.md R212). -/
theorem Continues.fault_of_phase_fault {s t : State} (h : Continues s t) (hp : s.phase = .fault) :
    t.fault = s.fault := by
  cases h with
  | keeps inputs rsp => rfl
  | raises x rest => exact if_pos hp
  | encPut _ _ _ _ ha | decSym _ _ _ _ ha | decPad _ _ _ ha | encFin _ _ _ ha | decFin _ _ _ ha => simp [hp] at ha

/-- Settles O47: a step that starts nothing leaves both registers of a faulted session. -/
theorem faultIsStickyUntilOpenOrReset : Obligations.FaultIsStickyUntilOpenOrReset := by
  intro s t h hp hs
  have hc := step_continues h hs
  exact ⟨hc.phase_fault hp, hc.fault_of_phase_fault hp⟩

end Sys2Proof.Machine

namespace Sys2Proof.Machine

/-! ### The accumulator at a failed Write (60_exceptions.md R211) -/

/-- The first `k` bits of the `n`-bit value `x`, most significant first, shifted into the accumulator. -/
theorem foldl_shiftIn_take {bs : List Bool} {x : BitVec 8} {n : Nat} (hx : x.toNat < 2 ^ n)
    (hbs : ∀ j < n, bs[j]? = some (x.getLsbD (n - 1 - j))) (a : BitVec 8) {k : Nat} (hk : k ≤ n) :
    (bs.take k).foldl shiftIn a = (a <<< k) ||| (x >>> (n - k)) := by
  induction k with
  | zero =>
    have hnone : x >>> n = 0#8 := BitVec.eq_of_toNat_eq (by simp [Nat.shiftRight_eq_div_pow, Nat.div_eq_of_lt hx])
    simp [hnone]
  | succ k ih =>
    rw [List.take_add_one, hbs k hk, List.foldl_append, ih (by omega)]
    apply BitVec.eq_of_getLsbD_eq
    intro i hi
    simp only [Option.toList_some, List.foldl_cons, List.foldl_nil, getLsbD_shiftIn, BitVec.getLsbD_or,
      BitVec.getLsbD_shiftLeft, BitVec.getLsbD_ushiftRight]
    rcases i with _ | i
    · simp [show n - (k + 1) = n - 1 - k by omega]
    · simp [show n - (k + 1) + (i + 1) = n - k + i by omega, hi, show i < 8 by omega]

theorem foldl_byte_take (b : Byte) (a : BitVec 8) {k : Nat} (hk : k ≤ 8) :
    (b.bitsMsbFirst.take k).foldl shiftIn a = (a <<< k) ||| (b >>> (8 - k)) :=
  foldl_shiftIn_take b.isLt (fun j hj => by interval_cases j <;> rfl) a hk

theorem foldl_sextet_take (v : Sextet) (a : BitVec 8) {k : Nat} (hk : k ≤ 6) :
    (v.bitsMsbFirst.take k).foldl shiftIn a = (a <<< k) ||| (v.setWidth 8 >>> (6 - k)) := by
  refine foldl_shiftIn_take ?_ (fun j hj => ?_) a hk
  · rw [BitVec.toNat_setWidth_of_le (by decide)]
    exact v.isLt
  · interval_cases j <;> simp [Sextet.bitsMsbFirst]

/-! ### The commands a failed Write ends (60_exceptions.md R202, R211) -/

section Commands
variable {s : State} {b : Byte} {v : Sextet}

/-- A failed Write of the buffer in a session, whole. -/
theorem writeFailed_eq_of_active (hp : s.phase = .active) (ha : s.nextAnswer = false) :
    writeFailed s = { s with
      phase := .fault, fault := .sinkWriteFailure, rsp := some .sinkWriteFailure
      sinkData := s.sinkData ++ (Config.landed s.freeCount s.buf).take s.buf.length
      events := s.events ++ [.wrote s.buf false], answers := s.answers.tail, freeCount := s.freeCount + 1 } := by
  rw [writeFailed_eq_of_fail ha, if_neg (by simp [hp]), landed_false]

/-- APPEND on a full buffer whose Write fails, with the data-path registers written before it. -/
theorem append_with_fail (x : Byte) (a : BitVec 8) (n : BitVec 3) (r w : Nat)
    (hfull : s.buf.length = s.params.capacity) (ha : s.nextAnswer = false) :
    append x { s with acc := a, bitCount := n, totalBytesRead := r, totalUnitsWritten := w } =
      .raised (writeFailed { s with acc := a, bitCount := n, totalBytesRead := r, totalUnitsWritten := w }) :=
  append_of_fail hfull ha

/-- ENC.PUT whose first character finds the buffer full and its Write fails. -/
theorem encPutBody_of_fail (hn : s.params.maxN ≠ some s.totalBytesRead) (hbits : s.bitCount.toNat < 6)
    (hfull : s.buf.length = s.params.capacity) (ha : s.nextAnswer = false) :
    encPutBody b s = .raised (writeFailed { s with
      totalBytesRead := s.totalBytesRead + 1, bitCount := 5#3
      acc := (s.acc <<< (6 - s.bitCount.toNat)) ||| (b >>> (2 + s.bitCount.toNat)) }) := by
  have hlen : (b.bitsMsbFirst.take (6 - s.bitCount.toNat)).length = 6 - s.bitCount.toNat :=
    List.length_take_of_le (show _ ≤ 8 by omega)
  rw [encPutBody, if_neg hn, ← List.take_append_drop (6 - s.bitCount.toNat) b.bitsMsbFirst, forBits_append,
    encode_group (List.ne_nil_of_length_pos (by omega)) (by simp only [hlen]; omega), foldl_byte_take _ _ (by omega),
    append_with_fail _ _ _ _ _ hfull ha, show 8 - (6 - s.bitCount.toNat) = 2 + s.bitCount.toNat by omega]
  rfl

/-- DEC.SYM whose byte finds the buffer full and its Write fails. -/
theorem decSymBody_of_fail (hbits : 2 ≤ s.bitCount.toNat) (hfull : s.buf.length = s.params.capacity)
    (ha : s.nextAnswer = false) :
    decSymBody v s = .raised (writeFailed { s with
      acc := (s.acc <<< (8 - s.bitCount.toNat)) ||| (v.setWidth 8 >>> (s.bitCount.toNat - 2)), bitCount := 7#3 }) := by
  have hlt : s.bitCount.toNat < 8 := s.bitCount.isLt
  have hlen : (v.bitsMsbFirst.take (8 - s.bitCount.toNat)).length = 8 - s.bitCount.toNat :=
    List.length_take_of_le (show _ ≤ 6 by omega)
  rw [decSymBody, ← List.take_append_drop (8 - s.bitCount.toNat) v.bitsMsbFirst, forBits_append,
    decode_byte (List.ne_nil_of_length_pos (by omega)) (by omega), foldl_sextet_take _ _ (by omega),
    append_with_fail _ _ _ _ _ hfull ha, show 6 - (8 - s.bitCount.toNat) = s.bitCount.toNat - 2 by omega]
  rfl

/-- ENC.FIN whose last group finds the buffer full and its Write fails. -/
theorem encFinBody_of_group_fail (hbits : s.bitCount ≠ 0#3) (hfull : s.buf.length = s.params.capacity)
    (ha : s.nextAnswer = false) :
    encFinBody s = .raised (writeFailed { s with acc := s.acc <<< (6 - s.bitCount.toNat) }) := by
  simp only [encFinBody, emitPartial]
  rw [if_neg hbits, append_with_fail _ _ _ _ _ hfull ha]
  rfl

/-- With a partial group held, its character and the pads complete the final length (40_encoder.md R123, R124). -/
theorem encodedLength_of_partial {n : Nat} (h : n % 3 ≠ 0) : encodedLength n = 4 * n / 3 + 1 + (3 - n % 3) := by
  rw [encodedLength]
  obtain hr | hr : n % 3 = 1 ∨ n % 3 = 2 := by omega
  · omega
  · omega

/-- The character of the last group of ENC.FIN (40_encoder.md R122). -/
def lastGroup (s : State) : Byte := alphabet (lowSextet (s.acc <<< (6 - s.bitCount.toNat)))

/-- The state of ENC.FIN with its last group and `j` pads out, where no Write has failed (40_encoder.md R122). -/
def finStored (s : State) (j : Nat) : State :=
  { storedAll s (lastGroup s :: List.replicate j pad) with
    acc := 0#8, bitCount := 0#3, totalUnitsWritten := s.totalUnitsWritten + 1 + j }

theorem finStored_phase (s : State) (j : Nat) : (finStored s j).phase = s.phase := storedAll_phase s _

theorem finStored_buf_ne_nil (s : State) (j : Nat) : (finStored s j).buf ≠ [] := storedAll_cons_buf_ne_nil s _ _

/-- ENC.FIN with bits held, from its last group and `j` pads on, with `k` pads to come. -/
theorem encFinBody_eq_finStored {j k : Nat} (hbits : s.bitCount ≠ 0#3)
    (hpads : encodedLength s.totalBytesRead = s.totalUnitsWritten + 1 + (j + k)) (hok : s.answersOkTo (finStored s j)) :
    encFinBody s = (emitPads k (finStored s j)).andThen finalize := by
  have hgroup := answersOkTo_le hok (storedAll_freeCount_le (stored s _) (List.replicate j pad))
  have hwith := storedAll_with (stored s (lastGroup s)) (List.replicate j pad) 0#8 0#3
    (stored s (lastGroup s)).totalBytesRead (s.totalUnitsWritten + 1)
  rw [encFinBody, emitPartial_answersOk (x := lastGroup s) hbits rfl hgroup, andThen_ok, emitPadding,
    stored_totalBytesRead, hpads, Nat.add_sub_cancel_left, emitPads_answersOk j k, hwith]
  · simp [finStored, storedAll_totalBytesRead]
  · rw [hwith]
    exact stored_answersOkTo _ hok

/-- ENC.FIN whose flush for a pad or, after all its APPENDs, whose drain fails. -/
theorem encFinBody_of_later_fail {j k : Nat} (hbits : s.bitCount ≠ 0#3)
    (hpads : encodedLength s.totalBytesRead = s.totalUnitsWritten + 1 + (j + k)) (hok : s.answersOkTo (finStored s j))
    (hfull : k ≠ 0 → (finStored s j).buf.length = (finStored s j).params.capacity)
    (ha : (finStored s j).nextAnswer = false) : encFinBody s = .raised (writeFailed (finStored s j)) := by
  rw [encFinBody_eq_finStored hbits hpads hok]
  cases k with
  | zero => exact finalize_failed (finStored_buf_ne_nil s j) ha
  | succ k => rw [emitPads, append_of_fail (hfull (Nat.succ_ne_zero k)) ha, andThen_raised, andThen_raised]

/-- ENC.FIN with no bit held and no pad to come is its drain and Close. -/
theorem encFinBody_of_no_append (hbits : s.bitCount = 0#3)
    (hpads : encodedLength s.totalBytesRead - s.totalUnitsWritten = 0) : encFinBody s = finalize s := by
  rw [encFinBody, emitPartial, if_pos hbits, andThen_ok, emitPadding, hpads, emitPads, andThen_ok]

end Commands

/-- Settles O31: at each count of bits the byte is complete, and its APPEND finds the buffer full. -/
theorem decSymWriteFailureLeavesTheByte : Obligations.DecSymWriteFailureLeavesTheByte := by
  intro s c v hp hm hr hbits hfull ha
  rw [answerAt_zero] at ha
  have htwo : 2 ≤ s.bitCount.toNat := by rcases hbits with h | h | h <;> simp [h]
  rw [exec_decSym_active hp hm hr, decSymBody_of_fail htwo hfull ha]
  exact congrArg Host.Outcome.next (writeFailed_eq_of_active hp ha)

/-- Settles O26: the first character's APPEND finds the buffer full, at any count of bits, or the second one's does
after the first has stored. -/
theorem encPutWriteFailureLeavesTheGroup : Obligations.EncPutWriteFailureLeavesTheGroup := by
  intro s b hp hm hn
  rw [exec_encPut_active hp hm]
  refine ⟨fun hbits hfull ha => ?_, ?_⟩
  · rw [answerAt_zero] at ha
    have hsix : s.bitCount.toNat < 6 := by rcases hbits with h | h | h <;> simp [h]
    rw [encPutBody_of_fail hn hsix hfull ha]
    exact congrArg Host.Outcome.next (writeFailed_eq_of_active hp ha)
  · rintro u rfl hbits hok hfull ha
    rw [answerAt_zero] at ha
    rw [encPutBody_at4 hbits hn, append_with_answersOk _ _ _ _ _ hok, andThen_ok,
      append_with_fail _ _ _ _ _ hfull ha, andThen_raised]
    exact congrArg Host.Outcome.next (writeFailed_eq_of_active ((stored_phase s _).trans hp) ha)

/-- Settles O28: the Write that fails is the flush for the last group, one after some of the APPENDs, or the only one
that an ENC.FIN without APPENDs has, its drain. -/
theorem encFinWriteFailureKeepsTheAppendsMade : Obligations.EncFinWriteFailureKeepsTheAppendsMade := by
  intro s hp hm hunits hcount
  rw [exec_encFin_active hp hm]
  refine ⟨fun hbits hfull ha => ?_, ?_, fun hbits hbuf ha => ?_⟩
  · rw [answerAt_zero] at ha
    rw [encFinBody_of_group_fail hbits hfull ha]
    exact congrArg Host.Outcome.next (writeFailed_eq_of_active hp ha)
  · rintro j u hbits rfl hwhere hok ha
    rw [answerAt_zero] at ha
    have hrem : s.totalBytesRead % 3 ≠ 0 := fun h => hbits (BitVec.eq_of_toNat_eq (by simp [hcount, h]))
    have hpads := encodedLength_of_partial hrem
    obtain ⟨k, hk⟩ := Nat.exists_eq_add_of_le (hwhere.elim (fun h => h.1.le) fun h => h.le)
    have hfull : k ≠ 0 → (finStored s j).buf.length = (finStored s j).params.capacity := fun hk0 =>
      hwhere.elim And.right fun hj => absurd hj (by omega)
    rw [hk, ← hunits] at hpads
    rw [encFinBody_of_later_fail hbits hpads hok hfull ha]
    exact congrArg Host.Outcome.next (writeFailed_eq_of_active ((finStored_phase s j).trans hp) ha)
  · rw [answerAt_zero] at ha
    have hpads : encodedLength s.totalBytesRead - s.totalUnitsWritten = 0 := by
      have hrem : s.totalBytesRead % 3 = 0 := by simpa [hbits] using hcount
      rw [hunits, encodedLength]; omega
    rw [encFinBody_of_no_append hbits hpads, finalize_failed hbuf ha]
    exact congrArg Host.Outcome.next (writeFailed_eq_of_active hp ha)

end Sys2Proof.Machine

namespace Sys2Proof.Machine

/-! ### The reset state has the invariants -/

/-- Settles O39: reset clears the data path. -/
theorem resetHasDataPathInvariant : Obligations.ResetHasDataPathInvariant :=
  dataPathInv_of_clear (by decide) rfl rfl rfl rfl fun _ => rfl

/-- Settles O41: the default parameters are legal, and reset leaves no output. -/
theorem resetHasBufferInvariant : Obligations.ResetHasBufferInvariant :=
  ⟨by decide, bufferInv_of_empty rfl rfl rfl⟩

/-- Settles O43: the empty list of events is in order, and in IDLE there is no more to claim. -/
theorem resetHasSinkOrder : Obligations.ResetHasSinkOrder :=
  sinkOrderInv_of_ordered (by decide) (.inl rfl)

end Sys2Proof.Machine

namespace Sys2Proof.Machine

/-! ### The state after reset inside a command (70_reset_and_hazards.md R230, R231) -/

/-- A step that reset cuts short, by the events of the whole command: `new.take p.after` are over, and `cut` is left of
the next one. -/
theorem step_rstDuring_leaves {s u : State} {w : CmdWord} {p : ResetPoint} {rest : List Input}
    {new cut : List SinkEvent} (hi : s.inputs = .rstDuring w p :: rest) (hu : step (s.given w rest) = .next u)
    (he : u.events = s.events ++ new) (hleft : eventsBeforeReset p s.freeCount new = new.take p.after ++ cut) :
    step s = .next { hardReset s with
      inputs := rest
      events := s.events ++ new.take p.after ++ cut
      answers := s.answers.drop (answersIn (new.take p.after)).length
      freeCount := s.freeCount + questionsIn (new.take p.after ++ cut) } := by
  have hnew : u.events.drop s.events.length = new := by rw [he, List.drop_left]
  have hrest : u.inputs = rest := step_inputs hu
  have hanswers : answersIn (new.take p.after ++ cut) = answersIn (new.take p.after) := by
    rw [← hleft, answersIn_eventsBeforeReset]
  rw [step_rstDuring hi hu]
  simp only [resetInside, hnew, hleft, hanswers, hrest, List.append_assoc]
  rfl

/-- Settles O9: the events that are over are left alone, or the one in progress is left after them, cut short. -/
theorem resetClearsTheCore : Obligations.ResetClearsTheCore := by
  refine fun s rest => ⟨fun hi => step_rst hi, fun w p u new hi hu he => ?_⟩
  rcases eventsBeforeReset_cases p s.freeCount new with ⟨hleft, hover⟩ | ⟨e, hd, he', hleft⟩
  · have hnone (hd : p.during = true) : new[p.after]? = none :=
      List.getElem?_eq_none (hover.resolve_left (by simp [hd]))
    exact ⟨[], step_rstDuring_leaves hi hu he (by rw [hleft, List.append_nil]), fun _ => rfl,
      fun hd seq ok h => by simp [hnone hd] at h, fun hd ok h => by simp [hnone hd] at h,
      fun hd h => by simp [hnone hd] at h⟩
  · have hlt : p.after < new.length := (List.getElem?_eq_some_iff.1 he').1
    refine ⟨_, step_rstDuring_leaves hi hu he hleft, fun h => ?_, fun _ seq ok h => ?_, fun _ ok h => ?_,
      fun _ h => ?_⟩
    · exact h.elim (fun hf => by simp [hd] at hf) fun hle => absurd hlt (Nat.not_lt.2 hle)
    · cases he'.symm.trans h
      obtain ⟨kept, hlen, hcut⟩ := cut_wrote (s.freeCount + questionsIn (new.take p.after)) seq ok
      exact ⟨kept, hlen, by rw [hcut]⟩
    · cases he'.symm.trans h
      rfl
    · cases he'.symm.trans h
      rfl

end Sys2Proof.Machine

namespace Sys2Proof.Machine

/-! ### How many events a command issues (70_reset_and_hazards.md R248) -/

section Limits
variable {s t u : State} {k n : Nat}

/-- `ceil(k / C)`, the most capacity flushes that `k` APPENDs can make (70_reset_and_hazards.md R248). -/
def flushLimit (s : State) (k : Nat) : Nat := (k + s.params.capacity - 1) / s.params.capacity

/-- From `s` to `t` at most `n` events have been issued. -/
def IssuesAtMost (n : Nat) (s t : State) : Prop := t.events.length ≤ s.events.length + n

/-- Between two statements of a command from `s`, after `k` APPENDs: there have been `f` flushes and no other event.
The elements of the flushes and of the buffer are those the command appended and at most `C` that it found there, and
the last flush began before the last APPEND stored. -/
def AfterAppends (s : State) (k : Nat) (u : State) : Prop :=
  ∃ f, u.params = s.params ∧ u.events.length = s.events.length + f ∧
    f * s.params.capacity + u.buf.length ≤ k + s.params.capacity ∧ f * s.params.capacity < k + s.params.capacity

theorem le_flushLimit {f : Nat} (hc : 1 ≤ s.params.capacity) (h : f * s.params.capacity < k + s.params.capacity) :
    f ≤ flushLimit s k :=
  (Nat.le_div_iff_mul_le hc).2 (Nat.le_sub_one_of_lt h)

namespace AfterAppends

theorem start (hc : 1 ≤ s.params.capacity) (h : s.bufWf) (rest : List Input) : AfterAppends s 0 (s.took rest) :=
  ⟨0, rfl, rfl, by simpa using h, by omega⟩

/-- The data path is no part of it. -/
theorem with_regs (h : AfterAppends s k u) {a : BitVec 8} {m : BitVec 3} {r w : Nat} :
    AfterAppends s k { u with acc := a, bitCount := m, totalBytesRead := r, totalUnitsWritten := w } := h

theorem mono (h : AfterAppends s k u) (hk : k ≤ n) : AfterAppends s n u := by
  obtain ⟨f, hparams, hevents, hlen, hlt⟩ := h
  exact ⟨f, hparams, hevents, by omega, by omega⟩

theorem issuesAtMost (h : AfterAppends s k u) (hc : 1 ≤ s.params.capacity) (hk : k ≤ n) :
    IssuesAtMost (flushLimit s n) s u := by
  obtain ⟨f, -, hevents, -, hlt⟩ := h.mono hk
  rw [IssuesAtMost, hevents]
  exact Nat.add_le_add_left (le_flushLimit hc hlt) _

/-- A flush of a full buffer is followed by the store of one element (42_buffer_flush.md R160). -/
theorem stored (h : AfterAppends s k u) (x : Byte) : AfterAppends s (k + 1) (stored u x) := by
  obtain ⟨f, hparams, hevents, hlen, hlt⟩ := h
  unfold Machine.stored
  split
  · next hfull =>
    rw [hfull, hparams] at hlen
    refine ⟨f + 1, hparams, by simp [hevents, Nat.add_assoc], ?_, ?_⟩
    · rw [Nat.succ_mul, List.length_singleton]; omega
    · rw [Nat.succ_mul]; omega
  · exact ⟨f, hparams, hevents, by rw [List.length_append, List.length_singleton]; omega, by omega⟩

/-- A flush that fails counts like one that does not. -/
theorem writeFailed (h : AfterAppends s k u) (hc : 1 ≤ s.params.capacity) (hk : k < n)
    (hfull : u.buf.length = u.params.capacity) : IssuesAtMost (flushLimit s n) s (writeFailed u) := by
  obtain ⟨f, hparams, hevents, hlen, hlt⟩ := h
  rw [hfull, hparams] at hlen
  have hf : f + 1 ≤ flushLimit s n := le_flushLimit hc (by rw [Nat.succ_mul]; omega)
  show (u.events ++ [_]).length ≤ _
  rw [List.length_append, List.length_singleton, hevents, Nat.add_assoc]
  exact Nat.add_le_add_left hf _

theorem append (h : AfterAppends s k u) (hc : 1 ≤ s.params.capacity) (hk : k < n) (x : Byte) :
    (append x u).Ends (AfterAppends s (k + 1)) (IssuesAtMost (flushLimit s n) s) :=
  append_ends (h.stored x) fun hfull _ => h.writeFailed hc hk hfull

/-- Step 1 of ENC.FIN is one APPEND or none (40_encoder.md R122). -/
theorem emitPartial (h : AfterAppends s k u) (hc : 1 ≤ s.params.capacity) (hk : k < n) :
    (emitPartial u).Ends (AfterAppends s (k + 1)) (IssuesAtMost (flushLimit s n) s) := by
  unfold Machine.emitPartial
  split
  · exact h.mono (Nat.le_succ k)
  · exact (AfterAppends.append h.with_regs hc hk _).andThen fun _ hu => hu.with_regs

/-- Step 2 of ENC.FIN is an APPEND a pad (40_encoder.md R122). -/
theorem emitPads {m : Nat} (h : AfterAppends s k u) (hc : 1 ≤ s.params.capacity) (hk : k + m ≤ n) :
    (emitPads m u).Ends (AfterAppends s (k + m)) (IssuesAtMost (flushLimit s n) s) := by
  induction m generalizing k u with
  | zero => exact h
  | succ m ih =>
    have hshift : k + (m + 1) = k + 1 + m := Nat.add_right_comm k m 1
    rw [hshift] at hk ⊢
    exact (h.append hc (by omega) pad).andThen fun _ hu => ih hu.with_regs hk

end AfterAppends

theorem IssuesAtMost.mono {m : Nat} (h : IssuesAtMost n s t) (hm : n ≤ m) : IssuesAtMost m s t :=
  h.trans (Nat.add_le_add_left hm _)

/-- The end of a FIN is a Write at most, and a Close (42_buffer_flush.md R162, R163). -/
theorem IssuesAtMost.finalize (h : IssuesAtMost n s u) :
    (finalize u).Ends (IssuesAtMost (n + 2) s) (IssuesAtMost (n + 2) s) := by
  unfold IssuesAtMost at h ⊢
  refine finalize_ends (fun _ => ?_) (fun _ _ => ?_) fun _ _ => ?_
  · simp only [close_events, List.length_append, List.length_singleton]; omega
  · simp only [close_events, sinkWrite_events, List.length_append, List.length_singleton]; omega
  · simp only [writeFailed, raise_events, sinkWrite_events, List.length_append, List.length_singleton]; omega

theorem finish_issuesAtMost {r : Run} (h : r.Ends (IssuesAtMost n s) (IssuesAtMost n s)) :
    IssuesAtMost n s r.finish :=
  h.finish (fun _ ht => ht) fun _ ht => ht

/-- The end of a PUT of at most `n` APPENDs. -/
theorem finish_afterAppends {r : Run} (hc : 1 ≤ s.params.capacity)
    (h : r.Ends (AfterAppends s n) (IssuesAtMost (flushLimit s n) s)) : IssuesAtMost (flushLimit s n) s r.finish :=
  finish_issuesAtMost (h.mono (fun _ ht => ht.issuesAtMost hc (Nat.le_refl n)) fun _ ht => ht)

end Limits

/-! ### The commands -/

section Commands
variable {s u : State}

/-- ENC.PUT is one APPEND at 0 and 2 bits held and two at 4 (40_encoder.md R121). -/
theorem encPut_appends (h : AfterAppends s 0 u) (hc : 1 ≤ s.params.capacity) (hi : DataPathInv u)
    (hp : u.phase = .active) (hm : u.mode = .enc) (b : Byte) :
    (encPutBody b u).Ends (AfterAppends s 2) (IssuesAtMost (flushLimit s 2) s) := by
  by_cases hn : u.params.maxN = some u.totalBytesRead
  · rw [encPutBody, if_pos hn]
    exact h.issuesAtMost hc (Nat.zero_le 2)
  have hcount := hi.enc_bits hm hp
  have hbits : u.bitCount = 0#3 ∨ u.bitCount = 2#3 ∨ u.bitCount = 4#3 := by
    simp only [← BitVec.toNat_inj, BitVec.toNat_ofNat, hcount]; omega
  rcases hbits with hbits | hbits | hbits
  · rw [encPutBody_at0 hbits hn]
    exact (AfterAppends.append h.with_regs hc (by decide) _).andThen fun _ hv =>
      AfterAppends.mono hv.with_regs (by decide)
  · rw [encPutBody_at2 hbits hn]
    exact (AfterAppends.append h.with_regs hc (by decide) _).andThen fun _ hv =>
      AfterAppends.mono hv.with_regs (by decide)
  · rw [encPutBody_at4 hbits hn]
    exact (AfterAppends.append h.with_regs hc (by decide) _).andThen fun _ hv =>
      (AfterAppends.append hv.with_regs hc (by decide) _).andThen fun _ hv' => hv'.with_regs

/-- DEC.SYM is no APPEND with no bit held and one at any other count (41_decoder.md R141). -/
theorem decSym_appends (h : AfterAppends s 0 u) (hc : 1 ≤ s.params.capacity) (hi : DataPathInv u)
    (hp : u.phase = .active) (hm : u.mode = .dec) (v : Sextet) :
    (decSymBody v u).Ends (AfterAppends s 1) (IssuesAtMost (flushLimit s 1) s) := by
  have hacc := hi.acc_lt (by simp [hp])
  have heven := hi.dec_bits hm (by simp [hp])
  have hbits : u.bitCount = 0#3 ∨ u.bitCount = 2#3 ∨ u.bitCount = 4#3 ∨ u.bitCount = 6#3 := by
    have := u.bitCount.isLt
    simp only [← BitVec.toNat_inj, BitVec.toNat_ofNat]; omega
  rcases hbits with hbits | hbits | hbits | hbits
  · have h0 : u.acc = 0#8 := BitVec.eq_of_toNat_eq (by simpa [hbits] using hacc)
    rw [decSymBody_at0 hbits h0]
    exact AfterAppends.mono h.with_regs (Nat.zero_le 1)
  · rw [decSymBody_at2 hbits]
    exact (AfterAppends.append h.with_regs hc (by decide) _).andThen fun _ hv => hv.with_regs
  · rw [decSymBody_at4 hbits]
    exact (AfterAppends.append h.with_regs hc (by decide) _).andThen fun _ hv => hv.with_regs
  · rw [decSymBody_at6 hbits]
    exact (AfterAppends.append h.with_regs hc (by decide) _).andThen fun _ hv => hv.with_regs

/-- ENC.FIN is three APPENDs at most, the last group and two pads, and the drain and the Close (40_encoder.md R122,
R123). -/
theorem encFin_issuesAtMost (h : AfterAppends s 0 u) (hc : 1 ≤ s.params.capacity) (hi : DataPathInv u)
    (hp : u.phase = .active) (hm : u.mode = .enc) :
    IssuesAtMost (flushLimit s 3 + 2) s (encFinBody u).finish := by
  have hgroup := ((hi.encBits hp hm).emitPartial (Nat.le_refl _)).and (h.emitPartial hc (by decide : 0 < 3))
  have happends : ((emitPartial u).andThen emitPadding).Ends (IssuesAtMost (flushLimit s 3) s)
      (IssuesAtMost (flushLimit s 3) s) := by
    refine (hgroup.mono (fun _ ht => ht) fun _ ht => ht.2).andThen fun t ⟨hchars, ht⟩ => ?_
    have hpads : 1 + (encodedLength t.totalBytesRead - t.totalUnitsWritten) ≤ 3 := by
      rw [hchars.bytes, hchars.units, encodedLength]; omega
    exact (ht.emitPads hc hpads).mono (fun _ hv => hv.issuesAtMost hc hpads) fun _ hv => hv
  exact finish_issuesAtMost ((happends.mono (fun _ ht => ht) fun _ ht => ht.mono (Nat.le_add_right _ 2)).andThen
    fun _ ht => ht.finalize)

end Commands

/-! ### The steps -/

section Steps
variable {s t : State} {w : CmdWord} {rest : List Input} {m : Mode}

theorem putsIn_iff (hi : s.inputs = .cmd w :: rest) :
    s.putsIn m = true ↔ opField w = 0b10#2 ∧ s.phase = .active ∧ s.mode = m := by
  rw [putsIn_of_cmd hi, decide_eq_true_iff]

theorem finsIn_iff (hi : s.inputs = .cmd w :: rest) :
    s.finsIn m = true ↔ w = 0x300#10 ∧ s.phase = .active ∧ s.mode = m := by
  rw [finsIn_of_cmd hi, decide_eq_true_iff]

theorem flushLimit_one (hc : 1 ≤ s.params.capacity) : flushLimit s 1 = 1 := by
  rw [flushLimit, Nat.add_sub_cancel_left, Nat.div_self hc]

/-- The claim of R248 for `n` events of the next command of `s`. -/
structure EventsBounded (s : State) (n : Nat) : Prop where
  encPut : s.putsIn .enc = true → n ≤ flushLimit s 2
  decPut : s.putsIn .dec = true → n ≤ 1
  encFin : s.finsIn .enc = true → n ≤ flushLimit s 3 + 2
  decFin : s.finsIn .dec = true → n ≤ 2

theorem EventsBounded.mono {n k : Nat} (h : EventsBounded s n) (hk : k ≤ n) : EventsBounded s k :=
  ⟨fun hs => hk.trans (h.encPut hs), fun hs => hk.trans (h.decPut hs), fun hs => hk.trans (h.encFin hs),
    fun hs => hk.trans (h.decFin hs)⟩

theorem eventsBounded_of_no_command (h : s.nextWord = none) (n : Nat) : EventsBounded s n := by
  constructor <;> simp [State.putsIn, State.finsIn, h]

/-- A decode PUT, by the class of its symbol (30_encoding.md R96). -/
theorem step_decPut_issuesAtMost (hi : s.inputs = .cmd w :: rest) (hc : 1 ≤ s.params.capacity) (hd : DataPathInv s)
    (hb : BufferInv s) (hput : s.putsIn .dec = true) (h : step s = .next t) : IssuesAtMost 1 s t := by
  obtain ⟨hw, hp, hm⟩ := (putsIn_iff hi).1 hput
  rw [eq_putWord hw] at hi
  cases hr : rev (dataField w) with
  | val v =>
    cases h.symm.trans (step_decSym hi hp hm hr)
    rw [← flushLimit_one hc]
    exact finish_afterAppends hc (decSym_appends (.start hc hb.len_le rest) hc hd.with_output hp hm v)
  | isPad =>
    cases h.symm.trans (step_decPad hi hp hm hr)
    exact Nat.le_succ _
  | bad =>
    cases h.symm.trans (step_decBad hi hp hm hr)
    exact Nat.le_succ _

/-- A command that is not cut short. -/
theorem step_cmd_eventsBounded {new : List SinkEvent} (hi : s.inputs = .cmd w :: rest) (hc : 1 ≤ s.params.capacity)
    (hd : DataPathInv s) (hb : BufferInv s) (h : step s = .next t) (hnew : t.events = s.events ++ new) :
    EventsBounded s new.length := by
  have count {n : Nat} (hn : IssuesAtMost n s t) : new.length ≤ n := by
    rw [IssuesAtMost, hnew, List.length_append] at hn
    exact Nat.le_of_add_le_add_left hn
  have start := AfterAppends.start hc hb.len_le rest
  have hd' : DataPathInv (s.took rest) := hd.with_output
  refine ⟨fun hput => ?_, fun hput => count (step_decPut_issuesAtMost hi hc hd hb hput h), fun hfin => ?_,
    fun hfin => ?_⟩
  · obtain ⟨hw, hp, hm⟩ := (putsIn_iff hi).1 hput
    rw [eq_putWord hw] at hi
    cases h.symm.trans (step_encPut hi hp hm)
    exact count (finish_afterAppends hc (encPut_appends start hc hd' hp hm _))
  · obtain ⟨rfl, hp, hm⟩ := (finsIn_iff hi).1 hfin
    cases h.symm.trans (step_encFin hi hp hm)
    exact count (encFin_issuesAtMost start hc hd' hp hm)
  · obtain ⟨rfl, hp, hm⟩ := (finsIn_iff hi).1 hfin
    cases h.symm.trans (step_decFin hi hp hm)
    exact count (finish_issuesAtMost (IssuesAtMost.finalize (n := 0) (Nat.le_refl _)))

/-- Every step: reset in the middle of a command adds none to its events (70_reset_and_hazards.md R231). -/
theorem step_eventsBounded {new : List SinkEvent} (hc : 1 ≤ s.params.capacity) (hd : DataPathInv s) (hb : BufferInv s)
    (h : step s = .next t) (hnew : t.events = s.events ++ new) : EventsBounded s new.length := by
  rcases hi : s.inputs with _ | ⟨w | _ | ⟨w, p⟩, rest⟩
  · exact eventsBounded_of_no_command (by simp [State.nextWord, hi]) _
  · exact step_cmd_eventsBounded hi hc hd hb h hnew
  · exact eventsBounded_of_no_command (by simp [State.nextWord, hi]) _
  · obtain ⟨u, hu, -⟩ := step_spec (s.given w rest)
    obtain ⟨whole, hwhole⟩ := step_asks rfl hu
    have hbound := step_cmd_eventsBounded (s := s.given w rest) rfl hc hd.with_output (hb.with_host _ s.rsp) hu
      hwhole.events
    rw [step_rstDuring hi hu] at h
    cases h
    have hleft : new = eventsBeforeReset p s.freeCount whole := by
      simpa [hwhole.events] using hnew.symm
    have hle : new.length ≤ whole.length := hleft ▸ length_eventsBeforeReset_le p s.freeCount whole
    have hputs (m : Mode) : (s.given w rest).putsIn m = s.putsIn m := by
      simp [State.putsIn, State.nextWord, hi]
    have hfins (m : Mode) : (s.given w rest).finsIn m = s.finsIn m := by
      simp [State.finsIn, State.nextWord, hi]
    have hsame : EventsBounded s whole.length :=
      ⟨hputs .enc ▸ hbound.encPut, hputs .dec ▸ hbound.decPut, hfins .enc ▸ hbound.encFin,
        hfins .dec ▸ hbound.decFin⟩
    exact hsame.mono hle

end Steps

/-- Settles O50: a command's APPENDs bound its flushes, and a FIN adds its drain and its Close. -/
theorem writesPerCommandAreBounded : Obligations.WritesPerCommandAreBounded := by
  intro s t new hwf hd hb h hnew
  obtain ⟨hencPut, hdecPut, hencFin, hdecFin⟩ := step_eventsBounded hwf.1 hd hb h hnew
  exact ⟨hencPut, hdecPut, hencFin, hdecFin⟩

end Sys2Proof.Machine
